-- ==== Sys2Proof/Word.lean ====
section
/-! DEFINITION. The word types of the bus-protocol block and their plainest arithmetic
(spec/00_scope.md R6, R8, R9). -/

namespace Sys2Proof

/-- An 8-bit unsigned value; bit 0 is the least significant (R8). -/
abbrev Byte := BitVec 8

/-- The 40-bit command word `op a b c d` (R80). -/
abbrev CommandWord := BitVec 40

/-- A value of the `CLK_W = 32` bit millisecond counter (R6, R64). -/
abbrev ClockWord := BitVec 32

/-- `sext_16(v)`: read a 16-bit number as two's complement (R9). -/
def sext16 (v : Nat) : Int := if v < 32768 then (v : Int) else (v : Int) - 65536

end Sys2Proof
end

