-- ==== Sys2Proof/Syntax.lean ====
section
/-! DEFINITION. The instructions: the 21 block commands (R81) and the 16 host operations (R85) of
spec/opcode_table.json, one constructor per row; the requests a host makes, before decoding; and
the field kinds the decoder knows (R77). -/

namespace Sys2Proof

/-- A parameter of a host operation as the host's dispatcher holds it: a number of any size, or
text that could not be parsed at all (R235, "malformed"). -/
inductive HostParam where
  | num (n : Nat)
  | malformed
deriving DecidableEq, Repr, Inhabited

/-- One constructor per row of spec/opcode_table.json. Operands of block commands are the bytes of
the command word; operands of host operations are DOC0's named parameters. -/
inductive Instr where
  -- checksum unit
  | crcgen
  | crcchk
  | fvalid
  -- frame encoder and parameter validation
  | encrd (dest type len : Byte)
  | encwr (dest type woff val : Byte)
  | pchk (kind value : Byte)
  -- field decoder
  | dtype
  | tchk (type : Byte)
  | du8 (off : Byte)
  | du16 (off sgn : Byte)
  | dhalf (off : Byte)
  | dflag (off bit : Byte)
  | du24 (off : Byte)
  | dack
  -- poll monitor and frame I/O
  | await
  | xmit
  | recv
  -- sequencer
  | setto (value : Byte)
  | xread (rd : Byte)
  | xwrite (wd val : Byte)
  | wverify (wd val vd : Byte)
  -- host operations
  | op1
  | op2
  | op3
  | op4
  | op9
  | op10 (circuit mode : HostParam)
  | op11 (circuit mode temp : HostParam)
  | op12 (temp : HostParam)
  | op13 (mode : HostParam)
  | op14 (mode : HostParam)
  | op20
  | op21 (timezone : HostParam)
  | op22
  | op23
  | op24
  | op25 (value : HostParam)
deriving DecidableEq, Repr

/-- The named parameters a host hands over with an operation code (R85: "by numeric code and named
parameters"). A parameter the operation does not name is not looked at. -/
structure HostArgs where
  circuit : HostParam
  mode : HostParam
  temp : HostParam
  timezone : HostParam
  value : HostParam
deriving DecidableEq, Repr

/-- Every named parameter 0. -/
def HostArgs.zero : HostArgs := ⟨.num 0, .num 0, .num 0, .num 0, .num 0⟩

/-- What the host presents: a 40-bit command word for the block (format CMD40, R80), or an operation
code with its parameters for the host's dispatcher (format HOSTOP, R85). -/
inductive Request where
  | command (w : CommandWord)
  | hostOp (code : Byte) (args : HostArgs)
deriving DecidableEq, Repr

/-- The registers and buffer bytes a host may read between commands (R276); `T_TX` is not among them (R31).
Neither is `FAULT`: the table of 10_state.md section 6 writes 'read' for it, R276 does not list it, and R34
says that FAULT is no register of the block; the model follows the rules (DESIGN CHOICE, log entry 29). -/
inductive HostRegister where
  | status
  | btState
  | rxlen
  | rx (i : Nat)
  | tx (i : Nat)
  | res
  | resv
  | rc
  | xcnt
  | ansTo
deriving DecidableEq, Repr

/-- One event at the host side of the block. `issue idle req`: `idle` milliseconds after the last
clock value the block saw, the host issues `req` (R2, R305). `read r`: the host reads a register or a buffer byte (R276).
`reset`: the external reset (R290). -/
inductive Input where
  | issue (idle : Nat) (req : Request)
  | read (r : HostRegister)
  | reset
deriving DecidableEq, Repr

/-- The field kinds (R77). -/
inductive FieldKind where
  | u8 | u16 | s16 | half | flag | u24
deriving DecidableEq, Repr, Inhabited

/-- A field spec `FS = {kind, off, bit}` (R12, R77); `off` indexes the captured reply from its start. -/
structure FieldSpec where
  kind : FieldKind
  off : Byte
  bit : Fin 8
deriving DecidableEq, Repr, Inhabited

end Sys2Proof
end

