-- ==== Sys2Proof/Config.lean ====
section
/-! DEFINITION. What is fixed when the block is built: the numbers the spec fixes (R6), the
parameters it leaves OPEN with the constraints on them (R6, R7), the message catalog (R12, R236),
and the free values of the environment (R63, R64). The OPEN parameters are a value of type `Params`
that State carries unchanged, so a statement about every state is a statement about every legal
build; `Config.built` is one such build of which nothing is known. -/

namespace Sys2Proof

/-! ## Numbers the spec fixes (R6) -/

namespace Config

/-- `TX_FRAME`: the length of the outgoing frame buffer. -/
def txFrame : Nat := 7
/-- `TX_WIRE`: how many outgoing buffer bytes are sent as data. -/
def txWire : Nat := 6
/-- `MIN_FRAME`: the least captured length of a valid frame. -/
def minFrame : Nat := 5
/-- `ANS_TO_UNIT`: the unit of the answer-timeout, in milliseconds. -/
def ansToUnit : Nat := 100
/-- `ANS_TO_MIN`. -/
def ansToMin : Nat := 1
/-- `ANS_TO_MAX`. -/
def ansToMax : Nat := 255
/-- `CRC_INIT`. -/
def crcInit : Byte := 0x00
/-- `CRC_FB`, the checksum feedback value 12. -/
def crcFb : Byte := 0x0C
/-- `READ_FLAG`, the mode bit of a read request's destination byte. -/
def readFlag : Byte := 0x80
/-- `TEMP_HC_MAX`: 40×2 half-degree units. -/
def tempHcMax : Nat := 80
/-- `TEMP_WW_MAX`. -/
def tempWwMax : Nat := 80

end Config

/-! ## The message catalog (R12, R236) -/

/-- A read descriptor. `dest` is held as a byte, because R222 says what happens when a catalog holds
`dest > 0x7F`. -/
structure ReadDesc where
  dest : Byte
  type : Byte
  len : Byte
deriving DecidableEq, Repr, Inhabited

/-- A write descriptor; `woff` is the byte offset within the remote unit's record. -/
structure WriteDesc where
  dest : Byte
  type : Byte
  woff : Byte
deriving DecidableEq, Repr, Inhabited

/-- A map from a byte written to the raw integer expected back, as a table; a byte the table does
not list maps to itself (R12: "`expect` defaults to the identity"). -/
structure Expect where
  table : List (Byte × Int)
deriving DecidableEq, Repr, Inhabited

/-- A verify descriptor: the confirming read, the field to compare, and what to expect. -/
structure VerifyDesc where
  rd : Byte
  fs : FieldSpec
  expect : Expect
deriving DecidableEq, Repr, Inhabited

/-- One step of a host read operation: a read exchange and the named fields decoded from its reply. -/
structure ReadStep where
  rd : Byte
  fields : List (String × FieldSpec)
deriving DecidableEq, Repr, Inhabited

/-- The steps of a host read operation; there is at least one (R234: `m ≥ 1`). -/
structure ReadOp where
  first : ReadStep
  rest : List ReadStep
deriving DecidableEq, Repr, Inhabited

/-- The pair a host write operation selects: a write-descriptor id and a verify-descriptor id. -/
structure Selection where
  wd : Byte
  vd : Byte
deriving DecidableEq, Repr, Inhabited

/-- `CAT`, the fixed, read-only message catalog. Every table is keyed; of two entries with one key
the first counts. `readOp` is keyed by the operation code; `writeOp` by the code and the validated
parameters that select the record (circuit and mode for codes 10 and 11, none for 12 to 14).
`charge` is the catalog's encoding of the one-time-charge mode, identity where it lists nothing
(R246). -/
structure Catalog where
  read : List (Byte × ReadDesc)
  write : List (Byte × WriteDesc)
  verify : List (Byte × VerifyDesc)
  readOp : List (Nat × ReadOp)
  writeOp : List ((Nat × List Byte) × Selection)
  charge : List (Byte × Byte)
deriving DecidableEq, Repr, Inhabited

/-! ## The OPEN parameters (R6) and their constraints (R7) -/

/-- The parameters a block is built with. The proof fields are R7's constraints; `RX_MAX` has no upper
bound in R7 (log entry 28), and any `TX_GAP` is legal (log entry 7). -/
structure Params where
  ctrlAddr : BitVec 7
  idleFiller : Byte
  ackByte : Byte
  rxMax : Nat
  txGap : Nat
  pollTo : Nat
  ansToReset : Byte
  retryMax : Nat
  crcCarryIn : Bool
  rebootResets : Bool
  cat : Catalog
  rxMax_ge : 7 ≤ rxMax
  retryMax_pos : 1 ≤ retryMax
  pollTo_lt : pollTo < 2 ^ 31
  ansToReset_legal : Config.ansToMin ≤ ansToReset.toNat
deriving DecidableEq, Repr

/-! ## Received units and the free values of the environment -/

/-- A received unit `(b, fe)`: a byte and its framing-error flag (R63). -/
structure LinkUnit where
  byte : Byte
  fe : Bool
deriving DecidableEq, Repr, Inhabited

/-- What the receive side of the link answers when the block looks: nothing is waiting, or the
oldest waiting unit (R63). -/
inductive LinkEvent where
  | gap
  | arrived (u : LinkUnit)
deriving DecidableEq, Repr, Inhabited

namespace Config

/-- Free value: OPEN `CTRL_ADDR` of the block that State.reset describes. -/
opaque ctrlAddr : BitVec 7
/-- Free value: OPEN `IDLE_FILLER`. -/
opaque idleFiller : Byte
/-- Free value: OPEN `ACK_BYTE`. -/
opaque ackByte : Byte
/-- Free value: by how much OPEN `RX_MAX` exceeds its least value 7. -/
opaque rxMaxOver : Nat
/-- Free value: OPEN `TX_GAP`. -/
opaque txGap : Nat
/-- Free value: OPEN `POLL_TO`. -/
opaque pollTo : Fin (2 ^ 31)
/-- Free value: by how much OPEN `ANS_TO_RESET` exceeds `ANS_TO_MIN`. -/
opaque ansToResetOver : Fin 255
/-- Free value: by how much OPEN `RETRY_MAX` exceeds 1. -/
opaque retryMaxOver : Nat
/-- Free value: the parameter `CRC_CARRY_IN`. -/
opaque crcCarryIn : Bool
/-- Free value: OPEN `REBOOT_RESETS`. -/
opaque rebootResets : Bool
/-- Free value: OPEN `CAT`. -/
opaque cat : Catalog

/-- Free value: the time the environment lets pass at the `k`-th time draw after the script `env.times`
has run out (R64, I5, I7). -/
opaque freeTime : Nat → Nat
/-- Free value: what the link answers at the `k`-th unscripted look at it (R63, I4). -/
opaque freeLink : Nat → LinkEvent
/-- Free value: the clock at reset (R290: "`Now()` may have any value"). -/
opaque clockAtReset : ClockWord
/-- Free value: what the first time draws after reset let pass: any finite course the clock can take
(R64), reads that do not move it and reads that move it by up to `2^31 - 1` ms included (log entry 4). -/
opaque timesAtReset : List Nat

/-- The block that State.reset describes: any legal build (R7), and nothing more is known of it. -/
def built : Params where
  ctrlAddr := ctrlAddr
  idleFiller := idleFiller
  ackByte := ackByte
  rxMax := 7 + rxMaxOver
  txGap := txGap
  pollTo := pollTo.val
  ansToReset := BitVec.ofNat 8 (1 + ansToResetOver.val)
  retryMax := 1 + retryMaxOver
  crcCarryIn := crcCarryIn
  rebootResets := rebootResets
  cat := cat
  rxMax_ge := by omega
  retryMax_pos := by omega
  pollTo_lt := pollTo.isLt
  ansToReset_legal := by
    have h := ansToResetOver.isLt
    simp only [BitVec.toNat_ofNat, ansToMin]
    omega

end Config

end Sys2Proof
end

