-- ==== Sys2Proof/WellFormed.lean ====
section
/-! DEFINITION. Which instructions the encoding admits: the operand ranges of R81 and R82. A host
operation is well formed whatever its parameters are: a parameter out of range is a legal request
that ends in `ParameterOutOfRange` (R235). -/

namespace Sys2Proof

/-- The operand checks of R82 that are not about reserved operands. -/
def Instr.wellFormed : Instr → Bool
  | .encrd dest _ _ => decide (dest.toNat ≤ 0x7F)
  | .encwr dest _ _ _ => decide (dest.toNat ≤ 0x7F)
  | .pchk kind _ => decide (kind.toNat ≤ 5)
  | .du16 _ sgn => decide (sgn.toNat ≤ 1)
  | .dflag _ bit => decide (bit.toNat ≤ 7)
  | .crcgen | .crcchk | .fvalid | .dtype | .tchk _ | .du8 _ | .dhalf _ | .du24 _ | .dack => true
  | .await | .xmit | .recv | .setto _ | .xread _ | .xwrite _ _ | .wverify _ _ _ => true
  | .op1 | .op2 | .op3 | .op4 | .op9 | .op10 _ _ | .op11 _ _ _ | .op12 _ | .op13 _ | .op14 _ => true
  | .op20 | .op21 _ | .op22 | .op23 | .op24 | .op25 _ => true

end Sys2Proof
end

