-- ==== Sys2Proof/Decode.lean ====
section
/-! DEFINITION. The decoder: total on every request, rejecting by name (R80 to R86, R91); the
encoder, written from the same rows; and the words as spec/opcode_table.json numbers them. -/

namespace Sys2Proof

/-- Why a request names no instruction. All four end in `IllegalCommand` (R82, R83, R86). -/
inductive Reject where
  /-- `op` is not in the opcode map (R83). -/
  | illegalOpcode (op : Byte)
  /-- A reserved operand of the named command is not zero (R82). -/
  | reservedOperand (mnemonic : String)
  /-- An operand of the named command is outside its range (R82). -/
  | operandRange (mnemonic : String)
  /-- The host code names no operation (R86). -/
  | illegalHostCode (code : Byte)
deriving DecidableEq, Repr

/-! ## The fields of a command word (R80) -/

/-- Bits [39:32]. -/
def opField (w : CommandWord) : Byte := w.extractLsb' 32 8
/-- Bits [31:24]. -/
def aField (w : CommandWord) : Byte := w.extractLsb' 24 8
/-- Bits [23:16]. -/
def bField (w : CommandWord) : Byte := w.extractLsb' 16 8
/-- Bits [15:8]. -/
def cField (w : CommandWord) : Byte := w.extractLsb' 8 8
/-- Bits [7:0]. -/
def dField (w : CommandWord) : Byte := w.extractLsb' 0 8

/-- The word with these five fields. -/
def commandWord (op a b c d : Byte) : CommandWord := op ++ a ++ b ++ c ++ d

/-- Accept `i` when its reserved operands are zero and its operands in range (R82). -/
def accept (mnemonic : String) (reserved : List Byte) (i : Instr) : Except Reject Instr :=
  if reserved.all (· == 0) then
    if i.wellFormed then .ok i else .error (.operandRange mnemonic)
  else .error (.reservedOperand mnemonic)

/-- Read a command by its five fields: the opcode map of R81. -/
def decodeFields (op a b c d : Byte) : Except Reject Instr :=
  match op.toNat with
  | 0x01 => accept "CRCGEN" [a, b, c, d] .crcgen
  | 0x02 => accept "CRCCHK" [a, b, c, d] .crcchk
  | 0x03 => accept "FVALID" [a, b, c, d] .fvalid
  | 0x10 => accept "ENCRD" [d] (.encrd a b c)
  | 0x11 => accept "ENCWR" [] (.encwr a b c d)
  | 0x18 => accept "PCHK" [c, d] (.pchk a b)
  | 0x20 => accept "DTYPE" [a, b, c, d] .dtype
  | 0x21 => accept "TCHK" [b, c, d] (.tchk a)
  | 0x22 => accept "DU8" [b, c, d] (.du8 a)
  | 0x23 => accept "DU16" [c, d] (.du16 a b)
  | 0x24 => accept "DHALF" [b, c, d] (.dhalf a)
  | 0x25 => accept "DFLAG" [c, d] (.dflag a b)
  | 0x26 => accept "DU24" [b, c, d] (.du24 a)
  | 0x27 => accept "DACK" [a, b, c, d] .dack
  | 0x30 => accept "AWAIT" [a, b, c, d] .await
  | 0x31 => accept "XMIT" [a, b, c, d] .xmit
  | 0x32 => accept "RECV" [a, b, c, d] .recv
  | 0x38 => accept "SETTO" [b, c, d] (.setto a)
  | 0x40 => accept "XREAD" [b, c, d] (.xread a)
  | 0x41 => accept "XWRITE" [c, d] (.xwrite a b)
  | 0x42 => accept "WVERIFY" [d] (.wverify a b c)
  | _ => .error (.illegalOpcode op)

/-- Decode a command word. -/
def decodeCommand (w : CommandWord) : Except Reject Instr :=
  decodeFields (opField w) (aField w) (bField w) (cField w) (dField w)

/-- The host's dispatcher: an operation code and its named parameters (R85, R86). -/
def decodeHostOp (code : Byte) (args : HostArgs) : Except Reject Instr :=
  match code.toNat with
  | 1 => .ok .op1
  | 2 => .ok .op2
  | 3 => .ok .op3
  | 4 => .ok .op4
  | 9 => .ok .op9
  | 10 => .ok (.op10 args.circuit args.mode)
  | 11 => .ok (.op11 args.circuit args.mode args.temp)
  | 12 => .ok (.op12 args.temp)
  | 13 => .ok (.op13 args.mode)
  | 14 => .ok (.op14 args.mode)
  | 20 => .ok .op20
  | 21 => .ok (.op21 args.timezone)
  | 22 => .ok .op22
  | 23 => .ok .op23
  | 24 => .ok .op24
  | 25 => .ok (.op25 args.value)
  | _ => .error (.illegalHostCode code)

/-- Decode whatever the host presents. -/
def decode : Request → Except Reject Instr
  | .command w => decodeCommand w
  | .hostOp code args => decodeHostOp code args

/-! ## The encoder -/

/-- The request that stands for an instruction; reserved operands encode as 0 (R88), and so do the
named parameters a host operation does not take. -/
def encode : Instr → Request
  | .crcgen => .command (commandWord 0x01 0 0 0 0)
  | .crcchk => .command (commandWord 0x02 0 0 0 0)
  | .fvalid => .command (commandWord 0x03 0 0 0 0)
  | .encrd dest type len => .command (commandWord 0x10 dest type len 0)
  | .encwr dest type woff val => .command (commandWord 0x11 dest type woff val)
  | .pchk kind value => .command (commandWord 0x18 kind value 0 0)
  | .dtype => .command (commandWord 0x20 0 0 0 0)
  | .tchk type => .command (commandWord 0x21 type 0 0 0)
  | .du8 off => .command (commandWord 0x22 off 0 0 0)
  | .du16 off sgn => .command (commandWord 0x23 off sgn 0 0)
  | .dhalf off => .command (commandWord 0x24 off 0 0 0)
  | .dflag off bit => .command (commandWord 0x25 off bit 0 0)
  | .du24 off => .command (commandWord 0x26 off 0 0 0)
  | .dack => .command (commandWord 0x27 0 0 0 0)
  | .await => .command (commandWord 0x30 0 0 0 0)
  | .xmit => .command (commandWord 0x31 0 0 0 0)
  | .recv => .command (commandWord 0x32 0 0 0 0)
  | .setto value => .command (commandWord 0x38 value 0 0 0)
  | .xread rd => .command (commandWord 0x40 rd 0 0 0)
  | .xwrite wd val => .command (commandWord 0x41 wd val 0 0)
  | .wverify wd val vd => .command (commandWord 0x42 wd val vd 0)
  | .op1 => .hostOp 1 .zero
  | .op2 => .hostOp 2 .zero
  | .op3 => .hostOp 3 .zero
  | .op4 => .hostOp 4 .zero
  | .op9 => .hostOp 9 .zero
  | .op10 circuit mode => .hostOp 10 { HostArgs.zero with circuit, mode }
  | .op11 circuit mode temp => .hostOp 11 { HostArgs.zero with circuit, mode, temp }
  | .op12 temp => .hostOp 12 { HostArgs.zero with temp }
  | .op13 mode => .hostOp 13 { HostArgs.zero with mode }
  | .op14 mode => .hostOp 14 { HostArgs.zero with mode }
  | .op20 => .hostOp 20 .zero
  | .op21 timezone => .hostOp 21 { HostArgs.zero with timezone }
  | .op22 => .hostOp 22 .zero
  | .op23 => .hostOp 23 .zero
  | .op24 => .hostOp 24 .zero
  | .op25 value => .hostOp 25 { HostArgs.zero with value }

/-! ## Words as the opcode table numbers them -/

/-- The request a table word stands for: 8 bits are a host operation code, whose parameters (operand
words the table gives no bits) are then 0; anything else is a 40-bit command word. -/
def tableRequest (nbits w : Nat) : Request :=
  if nbits ≤ 8 then .hostOp (BitVec.ofNat 8 (w % 2 ^ nbits)) .zero
  else .command (BitVec.ofNat 40 (w % 2 ^ nbits))

/-- The instruction the decoder reads from a table word; none where it refuses. -/
def decodeTableWord (nbits w : Nat) : Option Instr :=
  match decode (tableRequest nbits w) with
  | .ok i => some i
  | .error _ => none

end Sys2Proof
end

