-- ==== Sys2Proof/Machine/State.lean ====
section
/-! DEFINITION. The state of the block (spec/10_state.md R36, R290), of its two devices (R63, R64)
and of its host interface (R2, R249), all plain data; the reasons a step can stop (R270, R271); and
the state after reset. -/

namespace Sys2Proof.Machine

/-- A byte buffer: the written bytes as (index, byte) pairs, indices strictly rising. An unlisted
index reads as no value at all: its written mark is clear (R33). -/
abbrev Memory := List Host.Cell

/-- What an unlisted index reads as: no value (R33; DOC0 gives no power-on content, I1). -/
def Memory.unlisted : Option Byte := none

/-- Every index of a buffer lies above `low`, and the indices strictly rise. -/
def Memory.risesFrom : Nat → Memory → Bool
  | _, [] => true
  | low, c :: cs => decide (low ≤ c.1) && Memory.risesFrom (c.1 + 1) cs

/-- The canonical form of a buffer: strictly rising indices. (No listed byte can equal what an
unlisted index reads as, which is no value.) -/
abbrev Memory.wf (m : Memory) : Bool := Memory.risesFrom 0 m

/-- The two buffers, as fault reasons name them. -/
inductive Buffer where
  | tx
  | rx
deriving DecidableEq, Repr

/-- The kinds of catalog entry, as fault reasons name them. -/
inductive CatalogKind where
  | read
  | write
  | verify
  | hostOp
deriving DecidableEq, Repr

/-- The host operations that lie outside the block (R247). -/
inductive OutsideOp where
  | rebootGateway
  | reconfigureNetwork
  | readStatisticsBasic
  | readStatisticsFull
  | resetStatistics
deriving DecidableEq, Repr

/-- The failure causes (R260). -/
inductive Cause where
  | parameterOutOfRange
  | pollTimeout
  | replyTimeout
  | checksumInvalid
  | messageTypeMismatch
  | writeNotAcknowledged
  | verifyMismatch
  | illegalCommand
deriving DecidableEq, Repr

/-- The transport states (R28); value 7 does not exist. -/
inductive BtState where
  | idle
  | waitingForPoll
  | transmitting
  | awaitingReply
  | replyCaptured
  | validated
  | timedOut
deriving DecidableEq, Repr

/-- The model faults (R270): readings for which the source gives no value. -/
inductive Fault where
  /-- A read of a `TX` or `RX` byte that nothing has written since reset. Raised by CRCGEN, CRCCHK,
  FVALID, the decode commands, DACK and XMIT, by the commands that run them, and by a host's read
  of a buffer. Safe: the model stops where the source gives no content. -/
  | unwrittenRead (buffer : Buffer) (index : Nat)
  /-- A host's read of `RES` while `RESV = 0` (R29). Safe. -/
  | unwrittenResult
  /-- A decode beyond the data region `RX[0..RXLEN-3]` (R141). Raised by DTYPE, TCHK, DU8, DU16,
  DHALF, DFLAG, DU24 and by the commands that run them. Safe: the model stops where the original
  would read stale or checksum bytes. -/
  | fieldOutsideFrame (off width rxlen : Nat)
  /-- A descriptor id or host-operation map that `CAT` lacks (R12, R236). Raised by XREAD, XWRITE,
  WVERIFY and host operations 1 to 4 and 9 to 14. Safe: the source gives no catalog. -/
  | catalogUndefined (kind : CatalogKind) (id : Nat)
  /-- A wait for `gap` milliseconds that can never return, because `gap` is `2^32` or more and
  `WaitMs(t)` returns only when `(Now() - t0) mod 2^32 >= t` (R64). Raised by XMIT of a block built with
  such a `TX_GAP`, after its first byte, and by the commands that run XMIT. A stuck state, which the spec
  lists as no model fault (log entry 7). Safe: the hardware waits there for ever. -/
  | stuckInWait (gap : Nat)
deriving DecidableEq, Repr

/-- Why the model has no step. -/
inductive Refusal where
  /-- Raised by exec's arm of an instruction that has no meaning yet. Safe. -/
  | notModelled (mnemonic : String)
  /-- Raised by host operations 21 to 24 always, and 20 when `REBOOT_RESETS` is false: they lie
  outside the block, which has no step for them (R247, R271). Safe. -/
  | outsideBlock (op : OutsideOp)
deriving DecidableEq, Repr

/-- One item of the send log (R63). -/
inductive SentItem where
  | data (b : Byte)
  | endOfFrame
deriving DecidableEq, Repr

/-- An item of the send log with the clock value at which it was handed to the link (R63). -/
structure Sent where
  item : SentItem
  stamp : ClockWord
deriving DecidableEq, Repr

/-- The clock and the link, seen from the block (R63, R64). -/
structure Env where
  /-- The clock's current value. -/
  clock : ClockWord
  /-- The milliseconds the environment lets pass at the next time draws; free values after them. At
  reset a free value itself, any finite list. -/
  times : List Nat
  /-- How many unscripted time draws there have been (the model's own field). -/
  timeDraws : Nat
  /-- What the link answers at the next looks at it; free values after them. -/
  arrivals : List LinkEvent
  /-- How many unscripted looks at the link there have been (the model's own field). -/
  linkDraws : Nat
  /-- The send log, oldest item first. -/
  sent : List Sent
deriving DecidableEq, Repr

/-- What the host gets: the outcome of a host operation (R249), which is the success marker with the
result fields or the failure marker with its cause and no fields; or the value it read (R276). That a
failure's report carries the cause follows R249, R234 and R235; R261 says that the host-level outcome
shows only OK = 0 and that STATUS.CAUSE keeps the cause (DESIGN CHOICE, unsafe: log entry 30). -/
inductive Report where
  | success (fields : List (String × Int))
  | failure (cause : Cause)
  | value (r : HostRegister) (v : Int)
deriving DecidableEq, Repr

/-- The host's side of the interface: what it will present, oldest first, and the outcomes and
values it has got, oldest first. -/
structure HostPort where
  pending : List Input
  reports : List Report
deriving DecidableEq, Repr

/-- Everything. `tx` to `xcnt` and `fault` are the block's state (R36); `refusal` is the mark of R271;
`env` and `host` are what stands outside; `cfg` is what the block was built with, which no step
changes (R6). -/
structure State where
  cfg : Params
  /-- `TX[0..6]` with written marks (R23). -/
  tx : Memory
  /-- `RX[0..RX_MAX-1]` with written marks (R25). -/
  rx : Memory
  /-- `RXLEN` (R26). -/
  rxlen : Nat
  /-- `STATUS`: OK in bit 0, CAUSE in bits 4 to 1 (R24). -/
  status : BitVec 8
  /-- `ANS_TO`, in units of 100 ms (R27). -/
  ansTo : Byte
  /-- `BT_STATE` (R28). -/
  bt : BtState
  /-- `RES` (R29), an integer of no fixed width. Every value of R29's table fits in 32 bits; so does the
  length RECV, XREAD and XWRITE put there, unless the build's `RX_MAX`, to which R7 gives no upper
  bound, is `2^31` or more. There the model keeps the length itself (log entry 28). -/
  res : Int
  /-- `RESV` (R29). -/
  resv : Bool
  /-- `RC`, the retry countdown (R30). -/
  rc : Nat
  /-- `T_TX` (R31). -/
  tTx : ClockWord
  /-- `XCNT` (R32). -/
  xcnt : ClockWord
  /-- `FAULT`, the set of fault reasons (R34). -/
  fault : List Fault
  /-- The refusal mark (R271). -/
  refusal : Option Refusal
  env : Env
  host : HostPort
deriving DecidableEq, Repr

/-- The block's registers and buffers right after reset (R290, the table of 10_state.md section 6);
the devices, the host's queue and the parameters are not reset. `res` and `tTx` are unwritten there
and hold 0 here (log entries 10 and 11). -/
def State.resetBlock (s : State) : State :=
  { s with
    tx := [], rx := [], rxlen := 0, status := 0, ansTo := s.cfg.ansToReset, bt := .idle,
    res := 0, resv := false, rc := 0, tTx := 0, xcnt := 0, fault := [], refusal := none }

/-- The state right after reset of a block built with `cfg`, in the environment `env`, with a host
that has `pending` to present. -/
def State.resetWith (cfg : Params) (env : Env) (pending : List Input) : State :=
  { cfg, env, host := { pending, reports := [] },
    tx := [], rx := [], rxlen := 0, status := 0, ansTo := cfg.ansToReset, bt := .idle,
    res := 0, resv := false, rc := 0, tTx := 0, xcnt := 0, fault := [], refusal := none }

/-- The environment at reset: a free clock value, time draws that are a free list and free values after
it, and a free value at every look at the link (R290: reset does not touch the link or the clock). -/
def Env.atReset : Env :=
  { clock := Config.clockAtReset, times := Config.timesAtReset, timeDraws := 0, arrivals := [],
    linkDraws := 0, sent := [] }

/-- The machine right after reset: any legal build, any environment, and a host that has not issued
anything yet (R290). -/
def State.reset : State := State.resetWith Config.built Env.atReset []

end Sys2Proof.Machine
end

