-- ==== Sys2Proof/Machine/Flags.lean ====
section
/-! DEFINITION. The STATUS word, its fields and its legal values (R24, R260), the numbers of the
transport states (R28), and the two verdict bits a command computes from data: the checksum match
(R103) and the poll match (R172) are in their own units. -/

namespace Sys2Proof.Machine

/-- The number of a cause (R260). -/
def Cause.code : Cause → Nat
  | .parameterOutOfRange => 1
  | .pollTimeout => 2
  | .replyTimeout => 3
  | .checksumInvalid => 4
  | .messageTypeMismatch => 5
  | .writeNotAcknowledged => 6
  | .verifyMismatch => 7
  | .illegalCommand => 8

/-- STATUS with these fields: OK in bit 0, CAUSE in bits [4:1], bits [7:5] zero (R24). -/
def statusWord (ok : Bool) (causeCode : Nat) : BitVec 8 :=
  BitVec.ofNat 8 (2 * causeCode + if ok then 1 else 0)

/-- STATUS of a success: OK = 1, CAUSE = NONE. -/
def statusOk : BitVec 8 := statusWord true 0

/-- STATUS of a failure with this cause. -/
def statusFail (c : Cause) : BitVec 8 := statusWord false c.code

/-- `STATUS.OK`. -/
def statusOkBit (w : BitVec 8) : Bool := w.getLsbD 0

/-- `STATUS.CAUSE`, as a number. -/
def statusCause (w : BitVec 8) : Nat := (w.extractLsb' 1 4).toNat

/-- `STATUS[7:5]`, which reads 0. -/
def statusReserved (w : BitVec 8) : Nat := (w.extractLsb' 5 3).toNat

/-- The values STATUS may hold (R24): reserved bits 0; OK = 1 only with CAUSE = 0; CAUSE at most 8. -/
def statusLegal (w : BitVec 8) : Bool :=
  statusReserved w == 0 && (if statusOkBit w then statusCause w == 0 else decide (statusCause w ≤ 8))

/-- The number of a transport state (R28). -/
def BtState.code : BtState → Nat
  | .idle => 0
  | .waitingForPoll => 1
  | .transmitting => 2
  | .awaitingReply => 3
  | .replyCaptured => 4
  | .validated => 5
  | .timedOut => 6

end Sys2Proof.Machine
end

