-- ==== Sys2Proof/Machine/Operands.lean ====
section
/-! DEFINITION. Operand forms: the address byte (R70), the multi-byte fields (R51, R77), the data
region (R141), the parameter classes (R87), catalog look-ups (R12, R230, R236), the DFIELD
pseudo-command (R89), and what a decoded number means (R78, R79, R150). -/

namespace Sys2Proof.Machine

/-! ## Address bytes (R70) -/

/-- A read request's destination byte: `dest OR READ_FLAG`. -/
def readDest (dest : Byte) : Byte := dest ||| Config.readFlag

/-- The polled address of a poll byte: bits [6:0] (R74). -/
def polledAddress (b : Byte) : BitVec 7 := b.setWidth 7

/-- `CTRL_ADDR` as a source byte: bit 7 is 0 (R71). -/
def sourceByte (p : Params) : Byte := p.ctrlAddr.setWidth 8

/-- A unit address fits 7 bits (R82). -/
def addressLegal (dest : Byte) : Bool := decide (dest.toNat ≤ 0x7F)

/-! ## Multi-byte fields, most significant byte first (R51, R77) -/

/-- `b0*256 + b1`. -/
def be16 (b0 b1 : Byte) : Nat := b0.toNat * 256 + b1.toNat

/-- `b0*65536 + b1*256 + b2`. -/
def be24 (b0 b1 b2 : Byte) : Nat := b0.toNat * 65536 + b1.toNat * 256 + b2.toNat

/-- Bit `i` of a byte, bit 0 the least significant (R8, R147). -/
def flagOf (b : Byte) (i : Nat) : Int := if b.getLsbD i then 1 else 0

/-- The data region rule (R141): bytes `off .. off+width-1` all lie in `RX[0..RXLEN-3]`. -/
def inDataRegion (off width rxlen : Nat) : Bool := decide (off + width + 2 ≤ rxlen)

/-! ## Parameter classes (R87, R122) -/

/-- The PCHK kinds. -/
inductive ParamKind where
  | circuit | mode3 | mode2 | tempHc | tempWw | timeout
deriving DecidableEq, Repr

/-- The class a kind code names; none above 5. -/
def ParamKind.ofCode (k : Byte) : Option ParamKind :=
  match k.toNat with
  | 0 => some .circuit
  | 1 => some .mode3
  | 2 => some .mode2
  | 3 => some .tempHc
  | 4 => some .tempWw
  | 5 => some .timeout
  | _ => none

/-- The code of a class. -/
def paramKindCode : ParamKind → Byte
  | .circuit => 0
  | .mode3 => 1
  | .mode2 => 2
  | .tempHc => 3
  | .tempWw => 4
  | .timeout => 5

/-- The legal values of a class (R87). -/
def paramLegal (k : ParamKind) (v : Byte) : Bool :=
  match k with
  | .circuit => v == 1 || v == 2
  | .mode3 => decide (v.toNat ≤ 2)
  | .mode2 => decide (v.toNat ≤ 1)
  | .tempHc => decide (v.toNat ≤ Config.tempHcMax)
  | .tempWw => decide (v.toNat ≤ Config.tempWwMax)
  | .timeout => decide (Config.ansToMin ≤ v.toNat) && decide (v.toNat ≤ Config.ansToMax)

/-- A host parameter as an operand byte: only a number up to 255 can be presented (R235). -/
def hostParamByte : HostParam → Option Byte
  | .num n => if n ≤ 255 then some (BitVec.ofNat 8 n) else none
  | .malformed => none

/-- The host could parse the parameter. -/
def hostParamParsed : HostParam → Bool
  | .num _ => true
  | .malformed => false

/-! ## The catalog -/

/-- `V.expect(val)`: the identity where the table lists nothing (R230). -/
def expected (e : Expect) (val : Byte) : Int := (e.table.lookup val).getD (val.toNat : Int)

/-- `CAT`'s encoding of the one-time-charge mode, identity by default (R246). -/
def chargeValue (c : Catalog) (mode : Byte) : Byte := (c.charge.lookup mode).getD mode

/-! ## DFIELD (R89) -/

/-- The one command a field spec expands to. -/
def expandField (fs : FieldSpec) : Instr :=
  match fs.kind with
  | .u8 => .du8 fs.off
  | .u16 => .du16 fs.off 0
  | .s16 => .du16 fs.off 1
  | .half => .dhalf fs.off
  | .flag => .dflag fs.off (BitVec.ofNat 8 fs.bit.val)
  | .u24 => .du24 fs.off

/-- The number of a field kind (R77). -/
def fieldKindCode : FieldKind → Nat
  | .u8 => 0
  | .u16 => 1
  | .s16 => 2
  | .half => 3
  | .flag => 4
  | .u24 => 5

/-- How many bytes a field kind reads (R77). -/
def fieldWidth : FieldKind → Nat
  | .u8 | .half | .flag => 1
  | .u16 | .s16 => 2
  | .u24 => 3

/-! ## What a number means (R78, R79, R150) -/

/-- The scale `s` of a field kind (R140). -/
def fieldScale : FieldKind → Nat
  | .u16 | .s16 => 10
  | .half => 2
  | .u8 | .flag | .u24 => 1

/-- The semantic value of a decoded raw integer: the exact rational `r / s` (R78). -/
def semanticValue (k : FieldKind) (r : Int) : Rat := (r : Rat) / (fieldScale k : Rat)

/-- The operating modes in the order their numbers have (R79). -/
inductive HeatingMode where
  | night | day | autoHoliday
deriving DecidableEq, Repr

/-- The number written for a mode, unless the catalog maps it otherwise (R79). -/
def heatingModeCode : HeatingMode → Byte
  | .night => 0
  | .day => 1
  | .autoHoliday => 2

/-- The semantic fields the source names (R150). -/
inductive NamedField where
  | burnerActive | fanActive | ignitionActive | heatPumpActive
  | warmWaterHeatingActive | warmWaterCirculationActive
  | temperature | flameCurrent | circuitSetPoint
  | burnerStarts | burnerRunMinutes | heatingRunMinutes | burnerTotalHours
  | pressure | errorField | warmWaterMode | circuitMode | dateTime
deriving DecidableEq, Repr

/-- The kinds a named field may have before the catalog says otherwise (R150). -/
def namedFieldKinds : NamedField → List FieldKind
  | .burnerActive | .fanActive | .ignitionActive | .heatPumpActive
  | .warmWaterHeatingActive | .warmWaterCirculationActive => [.flag]
  | .temperature | .flameCurrent => [.u16, .s16]
  | .circuitSetPoint => [.half]
  | .burnerStarts | .burnerRunMinutes | .heatingRunMinutes | .burnerTotalHours => [.u24]
  | .pressure | .errorField | .warmWaterMode | .circuitMode | .dateTime => [.u8]

end Sys2Proof.Machine
end

