-- ==== Sys2Proof/Machine/Ops.lean ====
section
/-! DEFINITION. The named operations over buffers, registers and devices, and the two ways a command
ends. The block has no traps: `fail(c)` (R262) stands where other machines take an exception, and
nothing returns from it (R266, R267). -/

namespace Sys2Proof.Machine

/-! ## Buffers (R10, R33) -/

/-- Read one byte; an unlisted index has no value. -/
def Memory.read : Memory → Nat → Option Byte
  | [], _ => Memory.unlisted
  | c :: cs, a => if c.1 = a then some c.2 else Memory.read cs a

/-- Write one byte, keeping the indices strictly rising. -/
def Memory.write : Memory → Nat → Byte → Memory
  | [], a, b => [(a, b)]
  | c :: cs, a, b =>
    if a < c.1 then (a, b) :: c :: cs
    else if a = c.1 then (a, b) :: cs
    else c :: Memory.write cs a b

/-- Write consecutive bytes from index `a` on, each a single-byte write (R55). -/
def Memory.writeFrom : Memory → Nat → List Byte → Memory
  | m, _, [] => m
  | m, a, b :: bs => Memory.writeFrom (m.write a b) (a + 1) bs

/-- Every listed index is below `size`. -/
def Memory.within (size : Nat) (m : Memory) : Bool := m.all fun c => decide (c.1 < size)

/-- `TX[i]` or `RX[i]`: a read of a byte whose mark is clear is the fault `UnwrittenRead` (R33). -/
def readByte (buf : Buffer) (m : Memory) (i : Nat) : Except Fault Byte :=
  match m.read i with
  | some b => .ok b
  | none => .error (.unwrittenRead buf i)

/-- Read `count` bytes from index `a` on, in increasing order; the first unwritten one faults. -/
def readBytes (buf : Buffer) (m : Memory) : Nat → Nat → Except Fault (List Byte)
  | _, 0 => .ok []
  | a, count + 1 =>
    match readByte buf m a with
    | .error f => .error f
    | .ok b =>
      match readBytes buf m (a + 1) count with
      | .error f => .error f
      | .ok bs => .ok (b :: bs)

/-! ## How a command ends (R24, R29, R262) -/

/-- A command that ran to its end: with no cause (OK = 1) or with one (OK = 0), and the state. -/
structure Ended where
  cause : Option Cause
  state : State

/-- End with success and without a result: `RES` and `RESV` unchanged. -/
def succeed (s : State) : Ended := ⟨none, { s with status := statusOk }⟩

/-- End with success and result `v`. -/
def succeedWith (v : Int) (s : State) : Ended :=
  ⟨none, { s with status := statusOk, res := v, resv := true }⟩

/-- `fail(c)` (R262): STATUS takes the cause, `RESV` is cleared, and everything written before stays. -/
def fail (c : Cause) (s : State) : Ended :=
  ⟨some c, { s with status := statusFail c, resv := false }⟩

/-- Run `k` after `r` unless `r` failed or faulted: the first failing step ends the whole sequence
with its cause (R221, R262). -/
def thenRun (r : Except Fault Ended) (k : State → Except Fault Ended) : Except Fault Ended :=
  match r with
  | .error f => .error f
  | .ok ⟨none, s⟩ => k s
  | .ok ⟨some c, s⟩ => .ok ⟨some c, s⟩

/-- What the host interface of this package calls the end of a command: success and failure both
give a next state (the failure is in STATUS), a model fault stops. -/
def outcome (r : Except Fault Ended) : Host.Outcome State Fault Refusal :=
  match r with
  | .ok e => .next e.state
  | .error f => .fault f

/-- Add a reason to the set `FAULT` (R34). -/
def recordFault (f : Fault) (s : State) : State :=
  { s with fault := if f ∈ s.fault then s.fault else s.fault ++ [f] }

/-- Mark the state as refused (R271). -/
def recordRefusal (r : Refusal) (s : State) : State := { s with refusal := some r }

/-! ## The clock (R64, R190) -/

/-- The next amount of time the environment lets pass, and whether it was scripted. -/
def Env.nextTime (e : Env) : Nat × Env :=
  match e.times with
  | t :: ts => (t, { e with times := ts })
  | [] => (Config.freeTime e.timeDraws, { e with timeDraws := e.timeDraws + 1 })

/-- By how much the clock has moved at a read of it. A scripted draw is any number below `2^31` ms, 0
included (R64); the script is any finite list, free at reset. Once it has run out the clock moves at
every read by at least 1 ms (the fairness of R64: it advances without bound, so every deadline is
reached) and at most `2^30` ms, so that AWAIT's last two reads do not jump over its deadline by a wrap
(R308; log entry 4). -/
def Env.readAdvance (e : Env) : Nat :=
  match e.times with
  | t :: _ => t % 2 ^ 31
  | [] => 1 + Config.freeTime e.timeDraws % 2 ^ 30

/-- `Now()`: time moves on and the clock is read; the value is the new `clock`. -/
def Env.now (e : Env) : Env :=
  { e.nextTime.2 with clock := e.clock + BitVec.ofNat 32 e.readAdvance }

/-- The clock value `dur` milliseconds have passed since (R190, modulo `2^32`). -/
def elapsedAtLeast (start clock : ClockWord) (dur : Nat) : Bool := decide (dur ≤ (clock - start).toNat)

/-- `Expired(start, dur)`: read the clock once and compare the elapsed time (R190). -/
def Env.expired (start : ClockWord) (dur : Nat) (e : Env) : Bool × Env :=
  (elapsedAtLeast start e.now.clock dur, e.now)

/-- `WaitMs(t)` for a `t` below `2^32`: returns at any time no sooner than `t` ms after its call (R64). -/
def Env.wait (t : Nat) (e : Env) : Env :=
  { e.nextTime.2 with clock := e.clock + BitVec.ofNat 32 (max t (e.nextTime.1 % 2 ^ 32)) }

/-- A wait that can never return is a stuck state: the elapsed time `(Now() - t0) mod 2^32` of R64 is
below `2^32` for ever (log entry 7). -/
def Env.waitMs (t : Nat) (e : Env) : Except Fault Env :=
  if t < 2 ^ 32 then .ok (e.wait t) else .error (.stuckInWait t)

/-- Time that passes between two host requests. -/
def Env.idle (t : Nat) (e : Env) : Env := { e with clock := e.clock + BitVec.ofNat 32 t }

/-! ## The link (R63) -/

/-- `LinkPoll()`: what the link answers now; an answered unit is removed. -/
def Env.poll (e : Env) : LinkEvent × Env :=
  match e.arrivals with
  | a :: as => (a, { e with arrivals := as })
  | [] => (Config.freeLink e.linkDraws, { e with linkDraws := e.linkDraws + 1 })

/-- `LinkAvail()`: whether `LinkPoll()` would return a unit now. No unit is removed; when none is
waiting, the moment passes. -/
def Env.avail (e : Env) : Bool × Env :=
  match e.poll with
  | (.gap, e') => (false, e')
  | (.arrived _, _) => (true, e)

/-- `LinkWrite(b)` and `LinkBreak()`: append an item to the send log, stamped with the clock. -/
def Env.send (item : SentItem) (e : Env) : Env := { e with sent := e.sent ++ [⟨item, e.clock⟩] }

/-- `LinkFlush()`: returns when everything has left the link, after any finite time (R192, I7). -/
def Env.flush (e : Env) : Env := e.wait 0

end Sys2Proof.Machine
end

