-- ==== Sys2Proof/Machine/Checksum.lean ====
section
/-! DEFINITION. The checksum unit: CRC_STEP, CRC (R100, R101) and CRCGEN, CRCCHK, FVALID
(R102 to R104). -/

namespace Sys2Proof.Machine

/-- `CRC_STEP(c, x)` (R100). -/
def crcStep (carryIn : Bool) (c x : Byte) : Byte :=
  let h := c.getLsbD 7
  let t := if h then c ^^^ Config.crcFb else c
  let s := t <<< 1
  let s := if carryIn && h then s ||| 0x01 else s
  s ^^^ x

/-- The checksum of these data bytes, in order, from `CRC_INIT` (R101). -/
def crcBytes (carryIn : Bool) (bs : List Byte) : Byte := bs.foldl (crcStep carryIn) Config.crcInit

/-- `CRC(buf, n)`: all bytes but the final two (R101). -/
def crcOf (carryIn : Bool) (buf : Buffer) (m : Memory) (n : Nat) : Except Fault Byte :=
  match readBytes buf m 0 (n - 2) with
  | .error f => .error f
  | .ok bs => .ok (crcBytes carryIn bs)

/-- Whether `CRC(RX, n)` equals `RX[n-2]`, for `n ≥ 2` (R103, R104). -/
def frameMatches (s : State) : Except Fault Bool :=
  match crcOf s.cfg.crcCarryIn .rx s.rx s.rxlen with
  | .error f => .error f
  | .ok v =>
    match readByte .rx s.rx (s.rxlen - 2) with
    | .error f => .error f
    | .ok b => .ok (v == b)

/-- CRCGEN (R102). -/
def crcgen (s : State) : Except Fault Ended :=
  match crcOf s.cfg.crcCarryIn .tx s.tx Config.txFrame with
  | .error f => .error f
  | .ok v => .ok (succeedWith v.toNat { s with tx := s.tx.write 5 v })

/-- CRCCHK (R103). -/
def crcchk (s : State) : Except Fault Ended :=
  if s.rxlen < 2 then .ok (succeedWith 0 s)
  else
    match frameMatches s with
    | .error f => .error f
    | .ok r => .ok (succeedWith (if r then 1 else 0) s)

/-- A validated reply: `BT_STATE` moves to VALIDATED from REPLY_CAPTURED only (R84, R104, R149). -/
def markValidated (s : State) : State :=
  if s.bt = .replyCaptured then { s with bt := .validated } else s

/-- FVALID (R104). -/
def fvalid (s : State) : Except Fault Ended :=
  if s.rxlen < Config.minFrame then .ok (fail .checksumInvalid s)
  else
    match frameMatches s with
    | .error f => .error f
    | .ok false => .ok (fail .checksumInvalid s)
    | .ok true => .ok (succeedWith 1 (markValidated s))

/-- The meaning of CRCGEN. -/
def execCrcgen (s : State) : Host.Outcome State Fault Refusal := outcome (crcgen s)

/-- The meaning of CRCCHK. -/
def execCrcchk (s : State) : Host.Outcome State Fault Refusal := outcome (crcchk s)

/-- The meaning of FVALID. -/
def execFvalid (s : State) : Host.Outcome State Fault Refusal := outcome (fvalid s)

end Sys2Proof.Machine
end

