-- ==== Sys2Proof/Machine/Encoder.lean ====
section
/-! DEFINITION. The frame encoder and parameter validation: ENCRD, ENCWR, PCHK (R71, R72,
R120 to R122). -/

namespace Sys2Proof.Machine

/-- The five bytes a request's checksum covers: source, destination, type, offset, and length or
value (R58, R71, R72). -/
def header (p : Params) (dest type off payload : Byte) : List Byte :=
  [sourceByte p, dest, type, off, payload]

/-- Write all seven bytes of `TX`: the header, its checksum, and the terminator slot `0x00`; a new
frame gives up any turn held (R120, R121, R304). -/
def buildFrame (dest type off payload : Byte) (s : State) : State :=
  let h := header s.cfg dest type off payload
  { s with tx := s.tx.writeFrom 0 (h ++ [crcBytes s.cfg.crcCarryIn h, 0x00]), bt := .idle }

/-- ENCRD (R120). -/
def encrd (dest type len : Byte) (s : State) : Ended :=
  if addressLegal dest then succeed (buildFrame (readDest dest) type 0x00 len s)
  else fail .illegalCommand s

/-- ENCWR (R121). -/
def encwr (dest type woff val : Byte) (s : State) : Ended :=
  if addressLegal dest then succeed (buildFrame dest type woff val s)
  else fail .illegalCommand s

/-- PCHK for a class (R122). -/
def pchkClass (k : ParamKind) (value : Byte) (s : State) : Ended :=
  if paramLegal k value then succeed s else fail .parameterOutOfRange s

/-- PCHK (R122); a kind code above 5 is illegal (R82). -/
def pchk (kind value : Byte) (s : State) : Ended :=
  match ParamKind.ofCode kind with
  | some k => pchkClass k value s
  | none => fail .illegalCommand s

/-- The meaning of ENCRD. -/
def execEncrd (dest type len : Byte) (s : State) : Host.Outcome State Fault Refusal :=
  .next (encrd dest type len s).state

/-- The meaning of ENCWR. -/
def execEncwr (dest type woff val : Byte) (s : State) : Host.Outcome State Fault Refusal :=
  .next (encwr dest type woff val s).state

/-- The meaning of PCHK. -/
def execPchk (kind value : Byte) (s : State) : Host.Outcome State Fault Refusal :=
  .next (pchk kind value s).state

end Sys2Proof.Machine
end

