-- ==== Sys2Proof/Machine/FieldDecoder.lean ====
section
/-! DEFINITION. The field decoder, the type check and the write acknowledgement (R140 to R149), and
DFIELD (R89). -/

namespace Sys2Proof.Machine

/-- Read `width` bytes of the captured frame at `off`; a field beyond the data region is the fault
`FieldOutsideFrame` (R141). -/
def readField (off width : Nat) (s : State) : Except Fault (List Byte) :=
  if inDataRegion off width s.rxlen then readBytes .rx s.rx off width
  else .error (.fieldOutsideFrame off width s.rxlen)

/-- A decode: read the field and end with the value it stands for (R140). -/
def decodeField (off width : Nat) (value : List Byte → Int) (s : State) : Except Fault Ended :=
  match readField off width s with
  | .error f => .error f
  | .ok bs => .ok (succeedWith (value bs) s)

/-- The raw value of a one-byte field. -/
def byteValue : List Byte → Int
  | b :: _ => b.toNat
  | [] => 0

/-- The raw value of a 16-bit field, unsigned or two's complement (R145). -/
def wordValue (signed : Bool) : List Byte → Int
  | b0 :: b1 :: _ => if signed then sext16 (be16 b0 b1) else be16 b0 b1
  | _ => 0

/-- The raw value of a 24-bit field (R148). -/
def counterValue : List Byte → Int
  | b0 :: b1 :: b2 :: _ => be24 b0 b1 b2
  | _ => 0

/-- The value of one bit of a one-byte field (R147). -/
def bitValue (i : Nat) : List Byte → Int
  | b :: _ => flagOf b i
  | [] => 0

/-- DTYPE (R142). -/
def dtype (s : State) : Except Fault Ended := decodeField 2 1 byteValue s

/-- TCHK (R143): `RES` and `RESV` unchanged on success. -/
def tchk (type : Byte) (s : State) : Except Fault Ended :=
  match readField 2 1 s with
  | .error f => .error f
  | .ok bs => if bs = [type] then .ok (succeed s) else .ok (fail .messageTypeMismatch s)

/-- DU8 (R144). -/
def du8 (off : Byte) (s : State) : Except Fault Ended := decodeField off.toNat 1 byteValue s

/-- DU16 (R145); `sgn > 1` is illegal (R82). -/
def du16 (off sgn : Byte) (s : State) : Except Fault Ended :=
  if sgn.toNat ≤ 1 then decodeField off.toNat 2 (wordValue (sgn == 1)) s
  else .ok (fail .illegalCommand s)

/-- DHALF (R146). -/
def dhalf (off : Byte) (s : State) : Except Fault Ended := decodeField off.toNat 1 byteValue s

/-- DFLAG (R147); `bit > 7` is illegal (R82). -/
def dflag (off bit : Byte) (s : State) : Except Fault Ended :=
  if bit.toNat ≤ 7 then decodeField off.toNat 1 (bitValue bit.toNat) s
  else .ok (fail .illegalCommand s)

/-- DU24 (R148). -/
def du24 (off : Byte) (s : State) : Except Fault Ended := decodeField off.toNat 3 counterValue s

/-- DACK (R149): the first captured byte is the acknowledgement byte. -/
def dack (s : State) : Except Fault Ended :=
  if s.rxlen = 0 then .ok (fail .replyTimeout s)
  else
    match readByte .rx s.rx 0 with
    | .error f => .error f
    | .ok b =>
      if b = s.cfg.ackByte then .ok (succeed (markValidated s))
      else .ok (fail .writeNotAcknowledged s)

/-- DFIELD (R89): the one command of the field's kind. -/
def dfield (fs : FieldSpec) (s : State) : Except Fault Ended :=
  match fs.kind with
  | .u8 => du8 fs.off s
  | .u16 => du16 fs.off 0 s
  | .s16 => du16 fs.off 1 s
  | .half => dhalf fs.off s
  | .flag => dflag fs.off (BitVec.ofNat 8 fs.bit.val) s
  | .u24 => du24 fs.off s

/-- The meaning of DTYPE. -/
def execDtype (s : State) : Host.Outcome State Fault Refusal := outcome (dtype s)

/-- The meaning of TCHK. -/
def execTchk (type : Byte) (s : State) : Host.Outcome State Fault Refusal := outcome (tchk type s)

/-- The meaning of DU8. -/
def execDu8 (off : Byte) (s : State) : Host.Outcome State Fault Refusal := outcome (du8 off s)

/-- The meaning of DU16. -/
def execDu16 (off sgn : Byte) (s : State) : Host.Outcome State Fault Refusal := outcome (du16 off sgn s)

/-- The meaning of DHALF. -/
def execDhalf (off : Byte) (s : State) : Host.Outcome State Fault Refusal := outcome (dhalf off s)

/-- The meaning of DFLAG. -/
def execDflag (off bit : Byte) (s : State) : Host.Outcome State Fault Refusal := outcome (dflag off bit s)

/-- The meaning of DU24. -/
def execDu24 (off : Byte) (s : State) : Host.Outcome State Fault Refusal := outcome (du24 off s)

/-- The meaning of DACK. -/
def execDack (s : State) : Host.Outcome State Fault Refusal := outcome (dack s)

end Sys2Proof.Machine
end

