-- ==== Sys2Proof/Machine/PollMonitor.lean ====
section
/-! DEFINITION. The capture that AWAIT and RECV share, and the poll monitor AWAIT (R170 to R172).

A loop that waits for a deadline runs on fuel: the number of time draws that are scripted, plus the
duration, plus one. Under the clock's fairness (R64) the deadline is reached before the fuel is
(R174; log entry 9). -/

namespace Sys2Proof.Machine

/-- Which captures stop at two units (R170). -/
inductive CaptureMode where
  | poll
  | frame
deriving DecidableEq, Repr

/-- Enough fuel for a wait of `dur` milliseconds in this environment. -/
def waitFuel (dur : Nat) (e : Env) : Nat := e.times.length + dur + 1

/-- Store unit `u` as `RX[n]` and go on draining what is immediately available (R170). `room` is how
many more units fit: `RX_MAX - n - 1`. -/
def captureDrain (mode : CaptureMode) : Nat → Nat → LinkUnit → State → State
  | room, n, u, s =>
    let s := { s with rx := s.rx.write n u.byte, rxlen := n + 1 }
    if u.fe then s
    else if mode = .poll ∧ n + 1 = 2 then s
    else
      match room with
      | 0 => s
      | room + 1 =>
        match s.env.poll with
        | (.gap, e) => { s with env := e }
        | (.arrived v, e) => captureDrain mode room (n + 1) v { s with env := e }

/-- The capture while nothing has been stored: test the deadline, look at the link, discard idle
fillers whatever their flag (R170, R171). -/
def captureIdle (mode : CaptureMode) (start : ClockWord) (dur : Nat) : Nat → State → State
  | 0, s => { s with rxlen := 0 }
  | fuel + 1, s =>
    match s.env.expired start dur with
    | (true, e) => { s with env := e, rxlen := 0 }
    | (false, e) =>
      match e.poll with
      | (.gap, e) => captureIdle mode start dur fuel { s with env := e }
      | (.arrived u, e) =>
        if u.byte = s.cfg.idleFiller then captureIdle mode start dur fuel { s with env := e }
        else captureDrain mode (s.cfg.rxMax - 1) 0 u { s with env := e }

/-- `CAPTURE(mode, start, dur)` (R170); the count it returns is `rxlen` of the state it leaves. -/
def capture (mode : CaptureMode) (start : ClockWord) (dur : Nat) (s : State) : State :=
  captureIdle mode start dur (waitFuel dur s.env) s

/-- The last capture is a poll of this controller: exactly two units, the first of them, masked to
7 bits, `CTRL_ADDR` (R74, R172). -/
def pollMatches (s : State) : Bool :=
  decide (s.rxlen = 2) &&
    match s.rx.read 0 with
    | some b => polledAddress b == s.cfg.ctrlAddr
    | none => false

/-- The loop of AWAIT: capture, compare, and only then test the deadline (R172). -/
def awaitLoop (start : ClockWord) (dur : Nat) : Nat → State → Ended
  | 0, s => fail .pollTimeout { s with bt := .idle }
  | fuel + 1, s =>
    let s := capture .poll start dur s
    if pollMatches s then succeed { s with bt := .transmitting }
    else
      match s.env.expired start dur with
      | (true, e) => fail .pollTimeout { s with env := e, bt := .idle }
      | (false, e) => awaitLoop start dur fuel { s with env := e }

/-- AWAIT (R172). -/
def awaitTurn (s : State) : Ended :=
  let e := s.env.now
  awaitLoop e.clock s.cfg.pollTo (waitFuel s.cfg.pollTo e) { s with env := e, bt := .waitingForPoll }

/-- The meaning of AWAIT. -/
def execAwait (s : State) : Host.Outcome State Fault Refusal := .next (awaitTurn s).state

end Sys2Proof.Machine
end

