-- ==== Sys2Proof/Machine/FrameIO.lean ====
section
/-! DEFINITION. Frame I/O and the inter-byte pacer: XMIT and RECV (R191 to R196). -/

namespace Sys2Proof.Machine

/-- Send these bytes of `TX`, each followed by a wait of at least `TX_GAP` (R192). -/
def sendBytes (gap : Nat) (tx : Memory) : List Nat → Env → Except Fault Env
  | [], e => .ok e
  | i :: is, e =>
    match readByte .tx tx i with
    | .error f => .error f
    | .ok b =>
      match (e.send (.data b)).waitMs gap with
      | .error f => .error f
      | .ok e => sendBytes gap tx is e

/-- XMIT (R192): `TX[0..5]` as paced data, the end-of-frame signal, the flush, and then the clock
reading that starts the answer window (R193). Some time passes before the first byte (R305). -/
def xmit (s : State) : Except Fault Ended :=
  if s.bt = .transmitting then
    match sendBytes s.cfg.txGap s.tx (List.range Config.txWire) s.env.now with
    | .error f => .error f
    | .ok e =>
      let e := (e.send .endOfFrame).flush.now
      .ok (succeed { s with env := e, tTx := e.clock, xcnt := s.xcnt + 1, bt := .awaitingReply })
  else .ok (fail .illegalCommand s)

/-- The answer-timeout in milliseconds (R27). -/
def answerWindow (s : State) : Nat := s.ansTo.toNat * Config.ansToUnit

/-- RECV gives up: nothing but fillers before the deadline (R195). -/
def recvTimeout (s : State) : Ended := fail .replyTimeout { s with rxlen := 0, bt := .timedOut }

/-- RECV once bytes are available: capture a frame and report its length (R195). -/
def recvCapture (start : ClockWord) (dur : Nat) (s : State) : Ended :=
  let s := capture .frame start dur s
  if s.rxlen = 0 then recvTimeout s
  else succeedWith s.rxlen { s with bt := .replyCaptured }

/-- The busy wait of RECV: the deadline first, then whether a unit is waiting (R195). -/
def recvLoop (start : ClockWord) (dur : Nat) : Nat → State → Ended
  | 0, s => recvTimeout s
  | fuel + 1, s =>
    match s.env.expired start dur with
    | (true, e) => recvTimeout { s with env := e }
    | (false, e) =>
      match e.avail with
      | (true, e) => recvCapture start dur { s with env := e }
      | (false, e) => recvLoop start dur fuel { s with env := e }

/-- RECV (R195). -/
def recv (s : State) : Ended :=
  if s.bt = .awaitingReply then recvLoop s.tTx (answerWindow s) (waitFuel (answerWindow s) s.env) s
  else fail .illegalCommand s

/-- The meaning of XMIT. -/
def execXmit (s : State) : Host.Outcome State Fault Refusal := outcome (xmit s)

/-- The meaning of RECV. -/
def execRecv (s : State) : Host.Outcome State Fault Refusal := .next (recv s).state

end Sys2Proof.Machine
end

