-- ==== Sys2Proof/Machine/Sequencer.lean ====
section
/-! DEFINITION. The exchange sequencer: SETTO, XREAD, XWRITE, WVERIFY (R220 to R232). -/

namespace Sys2Proof.Machine

/-- A catalog entry, or the fault `CatalogUndefined` (R12). -/
def descriptor {α : Type} (kind : CatalogKind) (table : List (Byte × α)) (id : Byte) : Except Fault α :=
  match table.lookup id with
  | some d => .ok d
  | none => .error (.catalogUndefined kind id.toNat)

/-- SETTO (R232). -/
def setto (value : Byte) (s : State) : Ended :=
  if paramLegal .timeout value then succeedWith value.toNat { s with ansTo := value }
  else fail .parameterOutOfRange s

/-- The read exchange of a descriptor: ENCRD, AWAIT, XMIT, RECV, FVALID, TCHK (R220, R222). -/
def readExchange (r : ReadDesc) (s : State) : Except Fault Ended :=
  thenRun (.ok (encrd r.dest r.type r.len s)) fun s =>
  thenRun (.ok (awaitTurn s)) fun s =>
  thenRun (xmit s) fun s =>
  thenRun (.ok (recv s)) fun s =>
  thenRun (fvalid s) fun s =>
  thenRun (tchk r.type s) fun s =>
  .ok (succeedWith s.rxlen s)

/-- The write exchange of a descriptor: ENCWR, AWAIT, XMIT, RECV, DACK (R220, R224). -/
def writeExchange (w : WriteDesc) (val : Byte) (s : State) : Except Fault Ended :=
  thenRun (.ok (encwr w.dest w.type w.woff val s)) fun s =>
  thenRun (.ok (awaitTurn s)) fun s =>
  thenRun (xmit s) fun s =>
  thenRun (.ok (recv s)) fun s =>
  thenRun (dack s) fun s =>
  .ok (succeedWith s.rxlen s)

/-- XREAD (R222). -/
def xread (rd : Byte) (s : State) : Except Fault Ended :=
  match descriptor .read s.cfg.cat.read rd with
  | .error f => .error f
  | .ok r => readExchange r s

/-- XWRITE (R224). -/
def xwrite (wd val : Byte) (s : State) : Except Fault Ended :=
  match descriptor .write s.cfg.cat.write wd with
  | .error f => .error f
  | .ok w => writeExchange w val s

/-- The confirming read of an attempt, and the field that is compared (R228). -/
def confirm (v : VerifyDesc) (s : State) : Except Fault Ended := thenRun (xread v.rd s) (dfield v.fs)

/-- The attempts of WVERIFY, `budget` of them at most; each uses one up in `RC`. An unacknowledged
write and a mismatch lead to a new attempt while the budget lasts; every other cause ends the
command at once (R226, R228, R230). -/
def verifyLoop (wd val : Byte) (v : VerifyDesc) : Nat → State → Except Fault Ended
  | 0, s => .ok (fail .verifyMismatch s)
  | budget + 1, s =>
    match xwrite wd val { s with rc := budget } with
    | .error f => .error f
    | .ok ⟨some c, t⟩ =>
      if c = .writeNotAcknowledged ∧ 0 < budget then verifyLoop wd val v budget t else .ok ⟨some c, t⟩
    | .ok ⟨none, t⟩ =>
      match confirm v t with
      | .error f => .error f
      | .ok ⟨some c, u⟩ => .ok ⟨some c, u⟩
      | .ok ⟨none, u⟩ =>
        if u.res = expected v.expect val then .ok (succeed { u with resv := true })
        else if budget = 0 then .ok (fail .verifyMismatch u)
        else verifyLoop wd val v budget u

/-- WVERIFY (R228): all three descriptors must exist. -/
def wverify (wd val vd : Byte) (s : State) : Except Fault Ended :=
  match descriptor .write s.cfg.cat.write wd with
  | .error f => .error f
  | .ok _ =>
    match descriptor .verify s.cfg.cat.verify vd with
    | .error f => .error f
    | .ok v =>
      match descriptor .read s.cfg.cat.read v.rd with
      | .error f => .error f
      | .ok _ => verifyLoop wd val v s.cfg.retryMax s

/-- The meaning of SETTO. -/
def execSetto (value : Byte) (s : State) : Host.Outcome State Fault Refusal := .next (setto value s).state

/-- The meaning of XREAD. -/
def execXread (rd : Byte) (s : State) : Host.Outcome State Fault Refusal := outcome (xread rd s)

/-- The meaning of XWRITE. -/
def execXwrite (wd val : Byte) (s : State) : Host.Outcome State Fault Refusal := outcome (xwrite wd val s)

/-- The meaning of WVERIFY. -/
def execWverify (wd val vd : Byte) (s : State) : Host.Outcome State Fault Refusal :=
  outcome (wverify wd val vd s)

end Sys2Proof.Machine
end

