-- ==== Sys2Proof/Machine/HostOps.lean ====
section
/-! DEFINITION. The host operations of DOC0's external interface (R85, R123, R234 to R249), and what
a host may read of the block between commands (R276). -/

namespace Sys2Proof.Machine

/-! ## Reporting (R249) -/

/-- Report an outcome. A failure's report carries its cause (log entry 30). -/
def report (r : Report) (s : State) : State := { s with host := { s.host with reports := s.host.reports ++ [r] } }

/-- A host operation's end: its report, and the state. -/
abbrev HostEnd := Except Fault State

/-- The next state of a host operation, or the model fault that stopped it. -/
def hostOutcome (r : HostEnd) : Host.Outcome State Fault Refusal :=
  match r with
  | .ok s => .next s
  | .error f => .fault f

/-- Report a block command's end: its result under `name`, or its cause (R249; log entry 30). -/
def reportEnd (name : String) (e : Ended) : State :=
  match e.cause with
  | none => report (.success [(name, e.state.res)]) e.state
  | some c => report (.failure c) e.state

/-! ## Read operations (R234) -/

/-- `result[name] <- v` (R234): the value of a name that is there is replaced, a new name comes last. -/
def assign : List (String × Int) → String → Int → List (String × Int)
  | [], name, v => [(name, v)]
  | (n, w) :: rest, name, v => if n = name then (n, v) :: rest else (n, w) :: assign rest name v

/-- Decode the named fields of a reply, in order, assigning each to its name in `acc`. -/
def decodeNamed : List (String × FieldSpec) → List (String × Int) → State →
    Except Fault (List (String × Int) × State)
  | [], acc, s => .ok (acc, s)
  | (name, fs) :: rest, acc, s =>
    match dfield fs s with
    | .error f => .error f
    | .ok e => decodeNamed rest (assign acc name e.state.res) e.state

/-- The chained read exchanges of an operation: each reply is decoded before the next exchange; the
first failure drops the results (R234). -/
def runReadSteps : List ReadStep → List (String × Int) → State → HostEnd
  | [], acc, s => .ok (report (.success acc) s)
  | step :: rest, acc, s =>
    match xread step.rd s with
    | .error f => .error f
    | .ok ⟨some c, t⟩ => .ok (report (.failure c) t)
    | .ok ⟨none, t⟩ =>
      match decodeNamed step.fields acc t with
      | .error f => .error f
      | .ok (acc, t) => runReadSteps rest acc t

/-- A host read operation over `CAT.op[code]`; a missing map is `CatalogUndefined` (R234, R236). -/
def readOperation (code : Nat) (s : State) : HostEnd :=
  match s.cfg.cat.readOp.lookup code with
  | none => .error (.catalogUndefined .hostOp code)
  | some op => runReadSteps (op.first :: op.rest) [] s

/-! ## Write operations (R235) -/

/-- The parameter checks of an operation, in table order: a number above 255 is turned away by the
host itself, any other runs PCHK of its class (R123, R235). With the checked bytes, or rejected. -/
def checkParams : List (ParamKind × HostParam) → List Byte → State → Option (List Byte) × State
  | [], acc, s => (some acc, s)
  | (k, p) :: rest, acc, s =>
    match hostParamByte p with
    | none => (none, s)
    | some v =>
      match pchkClass k v s with
      | ⟨none, t⟩ => checkParams rest (acc ++ [v]) t
      | ⟨some _, t⟩ => (none, t)

/-- The checks of all parameters. One that could not be parsed is turned away before any block
command is issued (R235). -/
def validated (params : List (ParamKind × HostParam)) (s : State) : Option (List Byte) × State :=
  if params.all fun p => hostParamParsed p.2 then checkParams params [] s else (none, s)

/-- A host write-and-verify operation: check, select by the first `selecting` parameters, write
`value` of the checked bytes and verify, report (R235, R236). -/
def writeOperation (code selecting : Nat) (params : List (ParamKind × HostParam))
    (value : Catalog → List Byte → Byte) (result : String) (s : State) : HostEnd :=
  match validated params s with
  | (none, t) => .ok (report (.failure .parameterOutOfRange) t)
  | (some vs, t) =>
    match t.cfg.cat.writeOp.lookup (code, vs.take selecting) with
    | none => .error (.catalogUndefined .hostOp code)
    | some sel =>
      match wverify sel.wd (value t.cfg.cat vs) sel.vd t with
      | .error f => .error f
      | .ok e => .ok (reportEnd result e)

/-- The last checked parameter is the value written. -/
def lastValue (_ : Catalog) (vs : List Byte) : Byte := vs.getLastD 0

/-- The catalog's encoding of the mode (R246). -/
def chargeOf (c : Catalog) (vs : List Byte) : Byte := chargeValue c (vs.getLastD 0)

/-- Host operation 25 (R248): a value the operand cannot hold is turned away by the host itself. -/
def timeoutOperation (value : HostParam) (s : State) : State :=
  match hostParamByte value with
  | none => report (.failure .parameterOutOfRange) s
  | some v => reportEnd "applied timeout" (setto v s)

/-! ## The meanings -/

/-- "Read burner monitor" (R237). -/
def execOp1 (s : State) : Host.Outcome State Fault Refusal := hostOutcome (readOperation 1 s)

/-- "Read warm-water monitor" (R238). -/
def execOp2 (s : State) : Host.Outcome State Fault Refusal := hostOutcome (readOperation 2 s)

/-- "Read heating circuit 1" (R239). -/
def execOp3 (s : State) : Host.Outcome State Fault Refusal := hostOutcome (readOperation 3 s)

/-- "Read heating circuit 2" (R240). -/
def execOp4 (s : State) : Host.Outcome State Fault Refusal := hostOutcome (readOperation 4 s)

/-- "Read controller clock" (R241). -/
def execOp9 (s : State) : Host.Outcome State Fault Refusal := hostOutcome (readOperation 9 s)

/-- "Set circuit working mode" (R242). -/
def execOp10 (circuit mode : HostParam) (s : State) : Host.Outcome State Fault Refusal :=
  hostOutcome (writeOperation 10 2 [(.circuit, circuit), (.mode3, mode)] lastValue "confirmed mode" s)

/-- "Set circuit temperature" (R243); circuit and mode select the record, the temperature is written. -/
def execOp11 (circuit mode temp : HostParam) (s : State) : Host.Outcome State Fault Refusal :=
  hostOutcome (writeOperation 11 2 [(.circuit, circuit), (.mode3, mode), (.tempHc, temp)] lastValue
    "confirmed temperature" s)

/-- "Set warm-water temperature" (R244). -/
def execOp12 (temp : HostParam) (s : State) : Host.Outcome State Fault Refusal :=
  hostOutcome (writeOperation 12 0 [(.tempWw, temp)] lastValue "confirmed temperature" s)

/-- "Set warm-water mode" (R245). -/
def execOp13 (mode : HostParam) (s : State) : Host.Outcome State Fault Refusal :=
  hostOutcome (writeOperation 13 0 [(.mode3, mode)] lastValue "confirmed mode" s)

/-- "Set warm-water one-time charge" (R246). -/
def execOp14 (mode : HostParam) (s : State) : Host.Outcome State Fault Refusal :=
  hostOutcome (writeOperation 14 0 [(.mode2, mode)] chargeOf "confirmed flag" s)

/-- "Reboot gateway" (R247): outside the block, except that it puts the block through reset when the
OPEN parameter `REBOOT_RESETS` says so (R290). -/
def execOp20 (s : State) : Host.Outcome State Fault Refusal :=
  if s.cfg.rebootResets then .next s.resetBlock else .refused (.outsideBlock .rebootGateway)

/-- "Reconfigure network module": outside the block (R247). -/
def execOp21 (_timezone : HostParam) (_s : State) : Host.Outcome State Fault Refusal :=
  .refused (.outsideBlock .reconfigureNetwork)

/-- "Read statistics (basic)": outside the block (R247). -/
def execOp22 (_s : State) : Host.Outcome State Fault Refusal := .refused (.outsideBlock .readStatisticsBasic)

/-- "Read statistics (full)": outside the block (R247). -/
def execOp23 (_s : State) : Host.Outcome State Fault Refusal := .refused (.outsideBlock .readStatisticsFull)

/-- "Reset statistics": outside the block (R247). -/
def execOp24 (_s : State) : Host.Outcome State Fault Refusal := .refused (.outsideBlock .resetStatistics)

/-- "Set bus answer timeout" (R248). -/
def execOp25 (value : HostParam) (s : State) : Host.Outcome State Fault Refusal :=
  .next (timeoutOperation value s)

/-! ## What the host can read (R29, R276) -/

/-- A byte of a buffer as an integer. -/
def byteRead (buf : Buffer) (m : Memory) (i : Nat) : Except Fault Int :=
  match readByte buf m i with
  | .error f => .error f
  | .ok b => .ok (b.toNat : Int)

/-- A host's read between commands: it changes nothing (R57), and reading an unwritten byte, or `RES`
while `RESV = 0`, is a model fault (R29, R33). -/
def hostRead (r : HostRegister) (s : State) : Except Fault Int :=
  match r with
  | .status => .ok (s.status.toNat : Int)
  | .btState => .ok (s.bt.code : Int)
  | .rxlen => .ok (s.rxlen : Int)
  | .rx i => byteRead .rx s.rx i
  | .tx i => byteRead .tx s.tx i
  | .res => if s.resv then .ok s.res else .error .unwrittenResult
  | .resv => .ok (if s.resv then 1 else 0)
  | .rc => .ok (s.rc : Int)
  | .xcnt => .ok (s.xcnt.toNat : Int)
  | .ansTo => .ok (s.ansTo.toNat : Int)

end Sys2Proof.Machine
end

