-- ==== Sys2Proof/Machine/Dispatch.lean ====
section
/-! DEFINITION. One arm per constructor of Instr, each a direct call of its meaning. -/

namespace Sys2Proof.Machine

def exec (i : Instr) (s : State) : Host.Outcome State Fault Refusal :=
  match i with
  | .crcgen => Sys2Proof.Machine.execCrcgen s
  | .crcchk => Sys2Proof.Machine.execCrcchk s
  | .fvalid => Sys2Proof.Machine.execFvalid s
  | .encrd dest type len => Sys2Proof.Machine.execEncrd dest type len s
  | .encwr dest type woff val => Sys2Proof.Machine.execEncwr dest type woff val s
  | .pchk kind value => Sys2Proof.Machine.execPchk kind value s
  | .dtype => Sys2Proof.Machine.execDtype s
  | .tchk type => Sys2Proof.Machine.execTchk type s
  | .du8 off => Sys2Proof.Machine.execDu8 off s
  | .du16 off sgn => Sys2Proof.Machine.execDu16 off sgn s
  | .dhalf off => Sys2Proof.Machine.execDhalf off s
  | .dflag off bit => Sys2Proof.Machine.execDflag off bit s
  | .du24 off => Sys2Proof.Machine.execDu24 off s
  | .dack => Sys2Proof.Machine.execDack s
  | .await => Sys2Proof.Machine.execAwait s
  | .xmit => Sys2Proof.Machine.execXmit s
  | .recv => Sys2Proof.Machine.execRecv s
  | .setto value => Sys2Proof.Machine.execSetto value s
  | .xread rd => Sys2Proof.Machine.execXread rd s
  | .xwrite wd val => Sys2Proof.Machine.execXwrite wd val s
  | .wverify wd val vd => Sys2Proof.Machine.execWverify wd val vd s
  | .op1 => Sys2Proof.Machine.execOp1 s
  | .op2 => Sys2Proof.Machine.execOp2 s
  | .op3 => Sys2Proof.Machine.execOp3 s
  | .op4 => Sys2Proof.Machine.execOp4 s
  | .op9 => Sys2Proof.Machine.execOp9 s
  | .op10 circuit mode => Sys2Proof.Machine.execOp10 circuit mode s
  | .op11 circuit mode temp => Sys2Proof.Machine.execOp11 circuit mode temp s
  | .op12 temp => Sys2Proof.Machine.execOp12 temp s
  | .op13 mode => Sys2Proof.Machine.execOp13 mode s
  | .op14 mode => Sys2Proof.Machine.execOp14 mode s
  | .op20 => Sys2Proof.Machine.execOp20 s
  | .op21 timezone => Sys2Proof.Machine.execOp21 timezone s
  | .op22 => Sys2Proof.Machine.execOp22 s
  | .op23 => Sys2Proof.Machine.execOp23 s
  | .op24 => Sys2Proof.Machine.execOp24 s
  | .op25 value => Sys2Proof.Machine.execOp25 value s

end Sys2Proof.Machine
end

