-- ==== Sys2Proof/Machine/Issue.lean ====
section
/-! DEFINITION. What a step does around exec: taking the host's next input, decoding it, and what a
request that names no instruction does (R2, R22, R80 to R86). There is no program counter and no
fetch; the host's queue stands where other machines have their program. -/

namespace Sys2Proof.Machine

/-- The host presents the next input: it leaves the queue, and the time it came after passes. -/
def takeInput (idle : Nat) (rest : List Input) (s : State) : State :=
  { s with host := { s.host with pending := rest }, env := s.env.idle idle }

/-- A request the decoder rejects. An illegal command word is answered by the block: `IllegalCommand`,
nothing changed but STATUS and RESV (R82, R83). An unlisted host code is answered by the host's
dispatcher, which issues no block command (R86). -/
def rejectRequest (r : Reject) (s : State) : State :=
  match r with
  | .illegalHostCode _ => report (.failure .illegalCommand) s
  | .illegalOpcode _ => (fail .illegalCommand s).state
  | .reservedOperand _ => (fail .illegalCommand s).state
  | .operandRange _ => (fail .illegalCommand s).state

/-- Decode a request and carry it out. -/
def runRequest (req : Request) (s : State) : Host.Outcome State Fault Refusal :=
  match decode req with
  | .ok i => exec i s
  | .error r => .next (rejectRequest r s)

/-- Take the host's next input, if there is one: a request is carried out; a read gives its value and
changes nothing (R57), or is a model fault (R29, R33); the external reset (R290) puts the block in its
reset state; and with nothing to take the block waits. -/
def runInput (s : State) : Host.Outcome State Fault Refusal :=
  match s.host.pending with
  | [] => .next s
  | .issue idle req :: rest => runRequest req (takeInput idle rest s)
  | .read r :: rest =>
    match hostRead r s with
    | .ok v => .next (report (.value r v) (takeInput 0 rest s))
    | .error f => .fault f
  | .reset :: rest => .next (takeInput 0 rest s).resetBlock

end Sys2Proof.Machine
end

