-- ==== Sys2Proof/Machine/Step.lean ====
section
/-! DEFINITION. One step of the machine, the recording of model faults and refusals in the state
(R34, R270, R271), and where the host places an instruction to be run next. -/

namespace Sys2Proof.Machine

/-- One step: while `FAULT` is non-empty, or the state is marked refused, the block takes no further
step (R34, R270, R271); otherwise the host's next input is carried out to completion (R2). -/
def step (s : State) : Host.Outcome State Fault Refusal :=
  match s.fault, s.refusal with
  | f :: _, _ => .fault f
  | [], some r => .refused r
  | [], none => runInput s

/-- The state a step leaves, with a model fault added to `FAULT` and a refusal marked (R270, R271). -/
def settle (s : State) : State :=
  match step s with
  | .next t => t
  | .fault f => recordFault f s
  | .refused r => recordRefusal r s

/-- `s` with the instruction of this table word as the next input the host presents, at once. -/
def State.withFetchWord (s : State) (nbits w : Nat) : State :=
  { s with host := { s.host with pending := .issue 0 (tableRequest nbits w) :: s.host.pending } }

end Sys2Proof.Machine
end

