-- ==== Sys2Proof/Safety.lean ====
section
/-! DEFINITION. What a safe run is, in the terms the statements use: the invariant every step keeps,
the premise that no model fault was recorded (R34, R270), and runs of the recording step. -/

namespace Sys2Proof.Machine

/-- The block can take a step: nothing in `FAULT`, no refusal marked (R34, R271). -/
def Ready (s : State) : Prop := s.fault = [] ∧ s.refusal = none

/-- The buffers keep their canonical form and their bounds; `TX` is wholly written or not at all,
because ENCRD and ENCWR write all seven bytes together (R192); the frame `RX[0..RXLEN-1]` is written
(R26). -/
structure BuffersSound (s : State) : Prop where
  txForm : s.tx.wf = true
  txWithin : s.tx.within Config.txFrame = true
  txWhole : s.tx = [] ∨ ∀ i < Config.txFrame, (s.tx.read i).isSome = true
  rxForm : s.rx.wf = true
  rxWithin : s.rx.within s.cfg.rxMax = true
  rxlenBound : s.rxlen ≤ s.cfg.rxMax
  rxWritten : ∀ i < s.rxlen, (s.rx.read i).isSome = true

/-- The control and status registers hold legal values (R24, R27, R30, R34). -/
structure RegistersLegal (s : State) : Prop where
  status : statusLegal s.status = true
  ansTo : Config.ansToMin ≤ s.ansTo.toNat
  rc : s.rc ≤ s.cfg.retryMax
  fault : s.fault.Nodup

/-- What `BT_STATE` says about the last capture (R28, R172, R175, R195): in TRANSMITTING it is a poll
of this controller; a captured reply has at least one byte; after a timeout there is none; and no
command leaves the block WAITING_FOR_POLL. -/
structure TransportSound (s : State) : Prop where
  turn : s.bt = .transmitting → pollMatches s = true
  captured : s.bt = .replyCaptured ∨ s.bt = .validated → 1 ≤ s.rxlen
  timedOut : s.bt = .timedOut → s.rxlen = 0
  settled : s.bt ≠ .waitingForPoll

/-- The invariant of the machine. -/
structure Inv (s : State) : Prop where
  buffers : BuffersSound s
  registers : RegistersLegal s
  transport : TransportSound s

/-- `k` recorded steps: a model fault goes into `FAULT` and stops the block (R270). -/
def settleRun : Nat → State → State
  | 0, s => s
  | k + 1, s => settleRun k (settle s)

/-- A safe run: no model fault and no refusal in `k` steps. -/
def SafeFor (k : Nat) (s : State) : Prop := Ready (settleRun k s)

end Sys2Proof.Machine
end

