-- ==== Sys2Proof/Certificates/Slice0/Obligations.lean ====
section
/-! DEFINITION. The statements for the provers. They come from the numbered rules of spec/; each
docstring names them. Where a statement uses a premise about the environment (what the link
delivers, what the clock does), the premise is spelled out in Sys2Proof.Spec, first part. -/

namespace Sys2Proof.Spec

open Sys2Proof.Machine

/-! ## Vocabulary -/

/-- The buffer holds these bytes from index 0 on. -/
def Holds (m : Memory) (bs : List Byte) : Prop := ∀ i < bs.length, m.read i = bs[i]?

/-- The last capture is this frame: `RXLEN` its length, `RX[0..RXLEN-1]` its bytes (R26). -/
def Frame (s : State) (bs : List Byte) : Prop := s.rxlen = bs.length ∧ Holds s.rx bs

/-- What a failure with cause code `code` writes, and nothing else: OK = 0, CAUSE, RESV = 0 (R262). -/
def failedWith (code : Nat) (s : State) : State := { s with status := BitVec.ofNat 8 (2 * code), resv := false }

/-- `IllegalCommand`, code 8 (R260). -/
def illegal (s : State) : State := failedWith 8 s

/-- Success with a result. -/
def succeededWith (v : Int) (s : State) : State := { s with status := 0x01, res := v, resv := true }

/-- Success without a result. -/
def succeeded (s : State) : State := { s with status := 0x01 }

/-- The frame's checksum byte matches: `CRC` over all but the final two bytes is the byte before
the last (R103). -/
def ChecksumMatches (p : Params) (bs : List Byte) : Prop :=
  some (crcBytes p.crcCarryIn (bs.take (bs.length - 2))) = bs[bs.length - 2]?

/-- The two buffers keep their bytes from these indices on. -/
def KeptFrom (txFrom rxFrom : Nat) (s t : State) : Prop :=
  (∀ i, txFrom ≤ i → t.tx.read i = s.tx.read i) ∧ ∀ i, rxFrom ≤ i → t.rx.read i = s.rx.read i

/-- Every register, buffer and mark of the block, and the devices, as they were (the host's queue and
reports are not compared). -/
def SameBlock (s t : State) : Prop := t = { s with host := t.host }

/-- The block commands, as against the host operations. -/
def isCommand : Instr → Bool
  | .crcgen | .crcchk | .fvalid | .encrd _ _ _ | .encwr _ _ _ _ | .pchk _ _ | .dtype | .tchk _ | .du8 _
  | .du16 _ _ | .dhalf _ | .dflag _ _ | .du24 _ | .dack | .await | .xmit | .recv | .setto _ | .xread _
  | .xwrite _ _ | .wverify _ _ _ => true
  | .op1 | .op2 | .op3 | .op4 | .op9 | .op10 _ _ | .op11 _ _ _ | .op12 _ | .op13 _ | .op14 _ | .op20
  | .op21 _ | .op22 | .op23 | .op24 | .op25 _ => false

/-- The field decoder's commands. -/
def isDecode : Instr → Bool
  | .dtype | .tchk _ | .du8 _ | .du16 _ _ | .dhalf _ | .dflag _ _ | .du24 _ | .dack => true
  | .crcgen | .crcchk | .fvalid | .encrd _ _ _ | .encwr _ _ _ _ | .pchk _ _ | .await | .xmit | .recv
  | .setto _ | .xread _ | .xwrite _ _ | .wverify _ _ _ => false
  | .op1 | .op2 | .op3 | .op4 | .op9 | .op10 _ _ | .op11 _ _ _ | .op12 _ | .op13 _ | .op14 _ | .op20
  | .op21 _ | .op22 | .op23 | .op24 | .op25 _ => false

/-- The commands that run whole exchanges, and the host operations made of them. -/
def runsExchanges : Instr → Bool
  | .xread _ | .xwrite _ _ | .wverify _ _ _ | .op1 | .op2 | .op3 | .op4 | .op9 | .op10 _ _ | .op11 _ _ _
  | .op12 _ | .op13 _ | .op14 _ => true
  | .crcgen | .crcchk | .fvalid | .encrd _ _ _ | .encwr _ _ _ _ | .pchk _ _ | .dtype | .tchk _ | .du8 _
  | .du16 _ _ | .dhalf _ | .dflag _ _ | .du24 _ | .dack | .await | .xmit | .recv | .setto _ => false
  | .op20 | .op21 _ | .op22 | .op23 | .op24 | .op25 _ => false

/-! ## The environment of one exchange -/

/-- The link delivers nothing but gaps and idle fillers, whatever their flag (R171). -/
def Quiet (filler : Byte) (es : List LinkEvent) : Prop := ∀ e ∈ es, e = .gap ∨ ∃ fe, e = .arrived ⟨filler, fe⟩

/-- The milliseconds these scripted clock reads let pass (R64). -/
def spent (ts : List Nat) : Nat := (ts.map (· % 2 ^ 31)).sum

/-- What a capture in POLL mode takes from the link once it has found a unit that is no filler, and how it
ends (R74, R170): at the second unit, at a boundary unit, or where the link has nothing more. -/
inductive PollGroup where
  | pair (b : Byte) (second : LinkUnit)
  | boundary (b : Byte)
  | lone (b : Byte)

/-- The group's events on the link. -/
def PollGroup.events : PollGroup → List LinkEvent
  | .pair b second => [.arrived ⟨b, false⟩, .arrived second]
  | .boundary b => [.arrived ⟨b, true⟩]
  | .lone b => [.arrived ⟨b, false⟩, .gap]

/-- The bytes it leaves from `RX[0]` on. -/
def PollGroup.bytes : PollGroup → List Byte
  | .pair b second => [b, second.byte]
  | .boundary b => [b]
  | .lone b => [b]

/-- The group is a capture, and no poll of this controller (R171, R172). -/
def PollGroup.Foreign (p : Params) : PollGroup → Prop
  | .pair b _ => b ≠ p.idleFiller ∧ (b &&& 0x7F).toNat ≠ p.ctrlAddr.toNat
  | .boundary b => b ≠ p.idleFiller
  | .lone b => b ≠ p.idleFiller

/-- Gaps and fillers, and then a group. -/
structure Traffic where
  quiet : List LinkEvent
  group : PollGroup

/-- The traffic's events on the link. -/
def Traffic.events (q : Traffic) : List LinkEvent := q.quiet ++ q.group.events

/-- How often AWAIT reads the clock for it: a deadline test at every look at the link for the capture's
first unit (R170), and one after the capture (R172). -/
def Traffic.reads (q : Traffic) : Nat := q.quiet.length + 2

/-- AWAIT captures the traffic and goes on scanning. -/
def Traffic.Foreign (p : Params) (q : Traffic) : Prop := Quiet p.idleFiller q.quiet ∧ q.group.Foreign p

/-- `RX` after these captures. -/
def storedBy (traffic : List Traffic) (rx : Memory) : Memory :=
  traffic.foldl (fun m q => m.writeFrom 0 q.group.bytes) rx

/-- A captured group of units and how its capture ends in FRAME mode (R76, R170): at a boundary
unit, at `RX_MAX` units, or where the link has nothing more; `rest` is what stays on the link. -/
def CaptureEnds (rxMax : Nat) (us : List LinkUnit) (tail rest : List LinkEvent) : Prop :=
  us ≠ [] ∧ us.length ≤ rxMax ∧ (∀ u ∈ us.dropLast, u.fe = false) ∧
    (((∃ u ∈ us.getLast?, u.fe = true) ∨ us.length = rxMax) ∧ rest = tail ∨
      us.length < rxMax ∧ (∃ u ∈ us.getLast?, u.fe = false) ∧ tail = .gap :: rest)

/-- These bytes as the units of one gap-free frame: the last is the boundary unit (R73). -/
def frameUnits : List Byte → List LinkUnit
  | [] => []
  | [b] => [⟨b, true⟩]
  | b :: bs => ⟨b, false⟩ :: frameUnits bs

/-- The read request of a descriptor, as it stands in TX[0..6] (R71). -/
def readRequest (p : Params) (r : ReadDesc) : List Byte :=
  let body := [BitVec.ofNat 8 p.ctrlAddr.toNat, r.dest ||| 0x80, r.type, 0x00, r.len]
  body ++ [crcBytes p.crcCarryIn body, 0x00]

/-- The write request of a descriptor, as it stands in TX[0..6] (R72). -/
def writeRequest (p : Params) (w : WriteDesc) (val : Byte) : List Byte :=
  let body := [BitVec.ofNat 8 p.ctrlAddr.toNat, w.dest, w.type, w.woff, val]
  body ++ [crcBytes p.crcCarryIn body, 0x00]

/-- What the transmission of a request adds to the send log: its first six bytes and the end-of-frame
signal (R61, R192). -/
def transmitted (request : List Byte) : List SentItem := (request.take 6).map .data ++ [.endOfFrame]

/-- From `s` to `t` the send log has grown by these items. -/
def Sends (items : List SentItem) (s t : State) : Prop :=
  t.env.sent.map (·.item) = s.env.sent.map (·.item) ++ items

/-- What the bus does in one exchange: a poll, and then a reply frame. -/
structure Exchange where
  poll : Byte
  second : LinkUnit
  reply : List Byte

/-- The events on the link. -/
def Exchange.events (x : Exchange) : List LinkEvent :=
  .arrived ⟨x.poll, false⟩ :: .arrived x.second :: (frameUnits x.reply).map .arrived

/-- The poll addresses this controller, and the reply can be captured whole (R74, R170, R172). -/
def Exchange.Heard (p : Params) (x : Exchange) : Prop :=
  x.poll ≠ p.idleFiller ∧ (x.poll &&& 0x7F).toNat = p.ctrlAddr.toNat ∧
    x.reply ≠ [] ∧ x.reply.length ≤ p.rxMax ∧ x.reply[0]? ≠ some p.idleFiller

/-- The reply is a valid frame of the requested type (R104, R143). -/
def Exchange.Answers (p : Params) (r : ReadDesc) (x : Exchange) : Prop :=
  x.Heard p ∧ 5 ≤ x.reply.length ∧ ChecksumMatches p x.reply ∧ x.reply[2]? = some r.type

/-- The reply acknowledges a write (R75). -/
def Exchange.Acknowledges (p : Params) (x : Exchange) : Prop := x.Heard p ∧ x.reply[0]? = some p.ackByte

/-- `n` exchanges' worth of scripted time draws, so close together that no deadline passes, in a build
whose pacing wait can return (log entry 7). An exchange draws 13 times: twice in AWAIT, nine times in
XMIT, twice in RECV. -/
def Prompt (s : State) (n : Nat) (ts : List Nat) : Prop :=
  ts.length = 13 * n ∧ spent ts < s.cfg.pollTo ∧ spent ts < s.ansTo.toNat * 100 ∧ s.cfg.txGap < 2 ^ 32

/-- The raw value of a field in a frame (R77), as the table of kinds has it. -/
def fieldValue (fs : FieldSpec) (bs : List Byte) : Int :=
  let b (k : Nat) : Nat := (bs.getD (fs.off.toNat + k) 0).toNat
  match fs.kind with
  | .u8 => b 0
  | .u16 => b 0 * 256 + b 1
  | .s16 => if b 0 * 256 + b 1 < 32768 then b 0 * 256 + b 1 else (b 0 * 256 + b 1 : Int) - 65536
  | .half => b 0
  | .flag => (b 0 / 2 ^ fs.bit.val) % 2
  | .u24 => b 0 * 65536 + b 1 * 256 + b 2

/-- The field lies in the frame's data region, the bytes before the checksum (R141). -/
def FieldInside (fs : FieldSpec) (bs : List Byte) : Prop := fs.off.toNat + fieldWidth fs.kind + 2 ≤ bs.length

/-- An attempt of WVERIFY that fails and may be retried (R226): the write is not acknowledged, or it
is and the confirming read does not match. -/
inductive FailedAttempt where
  | notAcknowledged (write : Exchange)
  | mismatched (write read : Exchange)

/-- The link's events in a failed attempt. -/
def FailedAttempt.events : FailedAttempt → List LinkEvent
  | .notAcknowledged w => w.events
  | .mismatched w r => w.events ++ r.events

/-- The longest reply in the attempt. -/
def FailedAttempt.longest : FailedAttempt → Nat
  | .notAcknowledged w => w.reply.length
  | .mismatched w r => max w.reply.length r.reply.length

/-- What the block sends in the attempt: the write request, and the confirming read request when the write
was acknowledged. -/
def FailedAttempt.sends (p : Params) (w : WriteDesc) (val : Byte) (r : ReadDesc) : FailedAttempt → List SentItem
  | .notAcknowledged _ => transmitted (writeRequest p w val)
  | .mismatched _ _ => transmitted (writeRequest p w val) ++ transmitted (readRequest p r)

/-- How many exchanges an attempt has. -/
def FailedAttempt.exchanges : FailedAttempt → Nat
  | .notAcknowledged _ => 1
  | .mismatched _ _ => 2

/-- What makes the attempt fail. -/
def FailedAttempt.Fails (p : Params) (val : Byte) (v : VerifyDesc) (r : ReadDesc) : FailedAttempt → Prop
  | .notAcknowledged w => w.Heard p ∧ w.reply[0]? ≠ some p.ackByte
  | .mismatched w x => w.Acknowledges p ∧ x.Answers p r ∧ FieldInside v.fs x.reply ∧
      fieldValue v.fs x.reply ≠ expected v.expect val

/-- The three descriptors WVERIFY looks up, with addresses of 7 bits (R228). -/
def VerifyEntries (p : Params) (wd vd : Byte) (w : WriteDesc) (v : VerifyDesc) (r : ReadDesc) : Prop :=
  p.cat.write.lookup wd = some w ∧ p.cat.verify.lookup vd = some v ∧ p.cat.read.lookup v.rd = some r ∧
    w.dest.toNat ≤ 0x7F ∧ r.dest.toNat ≤ 0x7F

/-- The bus in a WVERIFY that succeeds after `failed` attempts (R228). -/
structure Confirmed (s : State) (wd val vd : Byte) (w : WriteDesc) (v : VerifyDesc) (r : ReadDesc)
    (failed : List FailedAttempt) (write read : Exchange) (rest : List LinkEvent) (ts ts' : List Nat) : Prop where
  entries : VerifyEntries s.cfg wd vd w v r
  failures : ∀ a ∈ failed, a.Fails s.cfg val v r
  answered : read.Answers s.cfg r
  budget : failed.length < s.cfg.retryMax
  acknowledged : write.Acknowledges s.cfg
  inside : FieldInside v.fs read.reply
  matched : fieldValue v.fs read.reply = expected v.expect val
  link : s.env.arrivals = failed.flatMap FailedAttempt.events ++ write.events ++ read.events ++ rest
  times : s.env.times = ts ++ ts'
  prompt : Prompt s ((failed.map FailedAttempt.exchanges).sum + 2) ts

/-- One step of a read operation is answered: the descriptor exists, the reply is valid and holds
every field the step decodes (R234). -/
def StepAnswered (p : Params) (step : ReadStep) (x : Exchange) : Prop :=
  ∃ r, p.cat.read.lookup step.rd = some r ∧ r.dest.toNat ≤ 0x7F ∧ x.Answers p r ∧
    ∀ nf ∈ step.fields, FieldInside nf.2 x.reply

/-- The read request a step of a read operation sends. -/
def stepRequest (p : Params) (step : ReadStep) : List Byte :=
  match p.cat.read.lookup step.rd with
  | some r => readRequest p r
  | none => []

/-- The report's fields are what these assignments leave, in this order (R234: `result[name] <- RES`): each
name once, with the last value assigned to it. -/
def Assigned (pairs fields : List (String × Int)) : Prop :=
  (fields.map Prod.fst).Nodup ∧ ∀ name, fields.lookup name = pairs.reverse.lookup name

/-- The named values of a step's reply. -/
def stepValues (step : ReadStep) (x : Exchange) : List (String × Int) :=
  step.fields.map fun nf => (nf.1, fieldValue nf.2 x.reply)

/-! ## Sequencer commands as sequences of commands -/

/-- Run commands one after the other through exec, as a host would, until one fails or stops (R221). -/
def runSteps : List Instr → State → Host.Outcome State Fault Refusal
  | [], s => .next s
  | i :: is, s =>
    match exec i s with
    | .next t => if statusOkBit t.status then runSteps is t else .next t
    | .fault f => .fault f
    | .refused r => .refused r

/-- Finish a sequence: when its last step succeeded, go on with `k`. -/
def onSuccess (o : Host.Outcome State Fault Refusal) (k : State → Host.Outcome State Fault Refusal) :
    Host.Outcome State Fault Refusal :=
  match o with
  | .next t => if statusOkBit t.status then k t else .next t
  | .fault f => .fault f
  | .refused r => .refused r

/-- The loop of R228, written with exec of the commands it names. -/
def verifyByCommands (wd val : Byte) (v : VerifyDesc) : Nat → State → Host.Outcome State Fault Refusal
  | 0, s => .next (failedWith 7 s)
  | rc + 1, s =>
    match exec (.xwrite wd val) { s with rc := rc } with
    | .fault f => .fault f
    | .refused r => .refused r
    | .next t =>
      if statusCause t.status = 6 then
        if rc = 0 then .next t else verifyByCommands wd val v rc t
      else if statusOkBit t.status = false then .next t
      else
        match runSteps [.xread v.rd, expandField v.fs] t with
        | .fault f => .fault f
        | .refused r => .refused r
        | .next u =>
          if statusOkBit u.status = false then .next u
          else if u.res = expected v.expect val then .next { u with status := 0x01, resv := true }
          else if rc = 0 then .next (failedWith 7 u)
          else verifyByCommands wd val v rc u

/-- The cause a number names (R260). -/
def causeNamed : Nat → Cause
  | 1 => .parameterOutOfRange
  | 2 => .pollTimeout
  | 3 => .replyTimeout
  | 4 => .checksumInvalid
  | 5 => .messageTypeMismatch
  | 6 => .writeNotAcknowledged
  | 7 => .verifyMismatch
  | _ => .illegalCommand

/-- Report the failure that STATUS holds (log entry 30: the report carries the cause). -/
def reportCause (t : State) : State := report (.failure (causeNamed (statusCause t.status))) t

/-- Decode named fields one after the other through exec, assign each value to its name, and go on. -/
def decodeByCommands (k : List (String × Int) → State → Host.Outcome State Fault Refusal) :
    List (String × FieldSpec) → List (String × Int) → State → Host.Outcome State Fault Refusal
  | [], acc, s => k acc s
  | (name, fs) :: rest, acc, s =>
    match exec (expandField fs) s with
    | .next t => decodeByCommands k rest (assign acc name t.res) t
    | .fault f => .fault f
    | .refused r => .refused r

/-- The loop of R234, written with exec of the commands it names. -/
def readByCommands : List ReadStep → List (String × Int) → State → Host.Outcome State Fault Refusal
  | [], acc, s => .next (report (.success acc) s)
  | step :: rest, acc, s =>
    match exec (.xread step.rd) s with
    | .next t =>
      if statusOkBit t.status then decodeByCommands (readByCommands rest) step.fields acc t
      else .next (reportCause t)
    | .fault f => .fault f
    | .refused r => .refused r

/-- The parameter checks of R235, written with exec of PCHK, and then `k`. -/
def checkParamsByCommands (k : State → Host.Outcome State Fault Refusal) :
    List (Nat × HostParam) → State → Host.Outcome State Fault Refusal
  | [], s => k s
  | (_, .malformed) :: _, s => .next (report (.failure .parameterOutOfRange) s)
  | (kind, .num n) :: rest, s =>
    if 255 < n then .next (report (.failure .parameterOutOfRange) s)
    else
      match exec (.pchk (BitVec.ofNat 8 kind) (BitVec.ofNat 8 n)) s with
      | .next t =>
        if statusOkBit t.status then checkParamsByCommands k rest t
        else .next (report (.failure .parameterOutOfRange) t)
      | .fault f => .fault f
      | .refused r => .refused r

/-- The last part of R235: the map's pair, WVERIFY through exec, and the report. -/
def confirmByCommands (code : Nat) (key : List Byte) (val : Byte) (name : String) (s : State) :
    Host.Outcome State Fault Refusal :=
  match s.cfg.cat.writeOp.lookup (code, key) with
  | none => .fault (.catalogUndefined .hostOp code)
  | some sel =>
    match exec (.wverify sel.wd val sel.vd) s with
    | .next t => .next (if statusOkBit t.status then report (.success [(name, t.res)]) t else reportCause t)
    | .fault f => .fault f
    | .refused r => .refused r

/-- The request at the head of the host's queue. -/
def nextRequest (s : State) : Option Request :=
  match s.host.pending with
  | .issue _ req :: _ => some req
  | .read _ :: _ => none
  | .reset :: _ => none
  | [] => none

/-- The instruction the next step runs, if its request decodes. -/
def nextInstr (s : State) : Option Instr :=
  match nextRequest s with
  | some req =>
    match decode req with
    | .ok i => some i
    | .error _ => none
  | none => none

/-- The next input is the external reset. -/
def nextIsReset (s : State) : Prop := ∃ rest, s.host.pending = .reset :: rest

/-- The legal command words by R81 and R82, field by field of the 40-bit number: bits [39:32] are
`op`, then `a`, `b`, `c`, `d` down to bit 0 (R80). -/
def LegalCommand (w : CommandWord) : Prop :=
  let op := w.toNat / 2 ^ 32
  let a := w.toNat / 2 ^ 24 % 256
  let b := w.toNat / 2 ^ 16 % 256
  let c := w.toNat / 2 ^ 8 % 256
  let d := w.toNat % 256
  (op = 0x01 ∨ op = 0x02 ∨ op = 0x03 ∨ op = 0x20 ∨ op = 0x27 ∨ op = 0x30 ∨ op = 0x31 ∨ op = 0x32) ∧
      a = 0 ∧ b = 0 ∧ c = 0 ∧ d = 0 ∨
    op = 0x10 ∧ a ≤ 0x7F ∧ d = 0 ∨
    op = 0x11 ∧ a ≤ 0x7F ∨
    op = 0x18 ∧ a ≤ 5 ∧ c = 0 ∧ d = 0 ∨
    (op = 0x21 ∨ op = 0x22 ∨ op = 0x24 ∨ op = 0x26 ∨ op = 0x38 ∨ op = 0x40) ∧ b = 0 ∧ c = 0 ∧ d = 0 ∨
    op = 0x23 ∧ b ≤ 1 ∧ c = 0 ∧ d = 0 ∨
    op = 0x25 ∧ b ≤ 7 ∧ c = 0 ∧ d = 0 ∨
    op = 0x41 ∧ c = 0 ∧ d = 0 ∨
    op = 0x42 ∧ d = 0

/-- The host operation codes of R85. -/
def hostCodes : List Nat := [1, 2, 3, 4, 9, 10, 11, 12, 13, 14, 20, 21, 22, 23, 24, 25]

/-- The legal values of each PCHK class, as the table of R87 lists them. -/
def legalParam (kind value : Nat) : Prop :=
  kind = 0 ∧ (value = 1 ∨ value = 2) ∨ kind = 1 ∧ value ≤ 2 ∨ kind = 2 ∧ value ≤ 1 ∨
    kind = 3 ∧ value ≤ 80 ∨ kind = 4 ∧ value ≤ 80 ∨ kind = 5 ∧ 1 ≤ value ∧ value ≤ 255

/-- The parameters of host operations 10 to 14 with the class each is checked against (R242 to R246). -/
def checkedParams : Instr → List (Nat × HostParam)
  | .op10 circuit mode => [(0, circuit), (1, mode)]
  | .op11 circuit mode temp => [(0, circuit), (1, mode), (3, temp)]
  | .op12 temp => [(4, temp)]
  | .op13 mode => [(1, mode)]
  | .op14 mode => [(2, mode)]
  | .crcgen | .crcchk | .fvalid | .encrd _ _ _ | .encwr _ _ _ _ | .pchk _ _ | .dtype | .tchk _ | .du8 _
  | .du16 _ _ | .dhalf _ | .dflag _ _ | .du24 _ | .dack | .await | .xmit | .recv | .setto _ | .xread _
  | .xwrite _ _ | .wverify _ _ _ | .op1 | .op2 | .op3 | .op4 | .op9 | .op20 | .op21 _ | .op22 | .op23
  | .op24 | .op25 _ => []

/-- The parameters a host operation is given (R85). -/
def hostParams : Instr → List HostParam
  | .op10 circuit mode => [circuit, mode]
  | .op11 circuit mode temp => [circuit, mode, temp]
  | .op12 temp => [temp]
  | .op13 mode => [mode]
  | .op14 mode => [mode]
  | .op21 timezone => [timezone]
  | .op25 value => [value]
  | .crcgen | .crcchk | .fvalid | .encrd _ _ _ | .encwr _ _ _ _ | .pchk _ _ | .dtype | .tchk _ | .du8 _
  | .du16 _ _ | .dhalf _ | .dflag _ _ | .du24 _ | .dack | .await | .xmit | .recv | .setto _ | .xread _
  | .xwrite _ _ | .wverify _ _ _ | .op1 | .op2 | .op3 | .op4 | .op9 | .op20 | .op22 | .op23 | .op24 => []

/-- A parameter that cannot be presented to the block: it could not be parsed, or it is above 255 (R235). -/
def Unpresentable (p : HostParam) : Prop := p = .malformed ∨ ∃ n, p = .num n ∧ 255 < n

/-- A parameter is a number its class allows. -/
def ParamGood (kp : Nat × HostParam) : Prop := ∃ n, kp.2 = .num n ∧ legalParam kp.1 n

end Sys2Proof.Spec

section

open Sys2Proof Sys2Proof.Machine Sys2Proof.Spec

/-! ## Encodings and stepping -/

/-- R80, R81, R85, R88: decoding the encoding of a well-formed instruction gives it back, with every
operand at every value. -/
def Obligations.DecodeOfEncodeIsTheInstruction : Prop :=
  ∀ i : Instr, i.wellFormed = true → decode (encode i) = .ok i

/-- R81, R91: a word decodes exactly when the opcode map lists it with reserved operands zero and
operands in range, and then it has exactly one meaning: the instruction it decodes to has that word
and no other as its encoding. -/
def Obligations.LegalWordsHaveOneMeaning : Prop :=
  ∀ w : CommandWord,
    ((∃ i, decode (.command w) = .ok i) ↔ LegalCommand w) ∧
    ∀ i, decode (.command w) = .ok i → encode i = .command w ∧ i.wellFormed = true ∧ isCommand i = true

/-- R82, R83: an illegal command word fails with IllegalCommand and has no other effect. -/
def Obligations.IllegalWordOnlyFails : Prop :=
  ∀ (s : State) (idle : Nat) (w : CommandWord) (rest : List Input), Ready s →
    s.host.pending = .issue idle (.command w) :: rest → ¬ LegalCommand w →
    step s = .next (illegal (takeInput idle rest s))

/-- R86 and log entry 16 (the model's reading that the block itself is not touched): an unlisted
host code is reported as IllegalCommand (a cause in a report: log entry 30) and no block command is issued. -/
def Obligations.UnlistedHostCodeIsReported : Prop :=
  ∀ (s : State) (idle : Nat) (code : Byte) (args : HostArgs) (rest : List Input), Ready s →
    s.host.pending = .issue idle (.hostOp code args) :: rest → code.toNat ∉ hostCodes →
    step s = .next (report (.failure .illegalCommand) (takeInput idle rest s))

/-- R80, R81, R85: words written out from the tables decode to the instructions they stand for. -/
def Obligations.SampleWordsDecode : Prop :=
  decodeTableWord 40 0x1008182000 = some (.encrd 0x08 0x18 0x20) ∧
  decodeTableWord 40 0x11103D0746 = some (.encwr 0x10 0x3D 0x07 0x46) ∧
  decodeTableWord 40 0x0300000000 = some .fvalid ∧
  decodeTableWord 40 0x2309010000 = some (.du16 9 1) ∧
  decodeTableWord 40 0x3200000000 = some .recv ∧
  decodeTableWord 40 0x4201020100 = some (.wverify 1 2 1) ∧
  decodeTableWord 40 0x3001000000 = none ∧
  decodeTableWord 8 0x09 = some .op9

/-- Log entry 2 (how the host's commands reach the block): a step with a request that decodes is exec
of the instruction, after the request has left the queue and the time before it has passed. -/
def Obligations.StepRunsTheDecodedInstruction : Prop :=
  ∀ (s : State) (idle : Nat) (req : Request) (rest : List Input) (i : Instr), Ready s →
    s.host.pending = .issue idle req :: rest → decode req = .ok i →
    step s = exec i (takeInput idle rest s)

/-- R276, R290 and log entries 2, 23 and 24: with nothing to take the block waits; a host's read gives the
value and changes nothing of the block, or is a model fault; the external reset gives the block its
reset state and leaves the link, the clock and the reports alone. -/
def Obligations.StepWaitsReadsOrResets : Prop :=
  ∀ s : State, Ready s →
    (s.host.pending = [] → step s = .next s) ∧
    (∀ r rest v, s.host.pending = .read r :: rest → hostRead r s = .ok v → ∃ t, step s = .next t ∧
      SameBlock s t ∧ t.host = ⟨rest, s.host.reports ++ [.value r v]⟩) ∧
    (∀ r rest f, s.host.pending = .read r :: rest → hostRead r s = .error f → step s = .fault f) ∧
    ∀ rest, s.host.pending = .reset :: rest → ∃ t, step s = .next t ∧
      t = { State.resetWith s.cfg s.env rest with host := ⟨rest, s.host.reports⟩ }

/-- R34, R270, R271 and log entries 13 and 14 (how a fault or a refusal is recorded and repeated): a block
that can take a step and faults has exactly that reason added to FAULT, and one that refuses has the refusal
mark set, and nothing else changes; while FAULT is non-empty, or the refusal mark is set, the block takes no
further step and nothing of the state changes. -/
def Obligations.FaultIsRecordedAndFinal : Prop :=
  ∀ s : State,
    (∀ f, Ready s → step s = .fault f → settle s = { s with fault := [f] }) ∧
    (∀ r, Ready s → step s = .refused r → settle s = { s with refusal := some r }) ∧
    (s.fault ≠ [] → (∃ f ∈ s.fault, step s = .fault f) ∧ ∀ k, settleRun k s = s) ∧
    ∀ r, s.fault = [] → s.refusal = some r → step s = .refused r ∧ ∀ k, settleRun k s = s

/-! ## Reset -/

/-- R290: the reset state, for every build and every environment: buffers unwritten, the registers of
10_state.md section 6, the link, the clock and the parameters as they were; and then the block waits for
the host's first command (log entry 2 says how). -/
def Obligations.ResetState : Prop :=
  ∀ (cfg : Params) (env : Env) (pending : List Input), ∃ s, s = State.resetWith cfg env pending ∧
    (∀ i, s.tx.read i = none ∧ s.rx.read i = none) ∧ s.rxlen = 0 ∧ s.status = 0x00 ∧ s.ansTo = cfg.ansToReset ∧
    s.bt = .idle ∧ s.bt.code = 0 ∧ s.resv = false ∧ s.rc = 0 ∧ s.xcnt = 0 ∧ s.fault = [] ∧ s.env = env ∧
    s.cfg = cfg ∧ (pending = [] → step s = .next s)

/-- R292: the commands right after reset that do not run as usual. -/
def Obligations.CommandsRightAfterReset : Prop :=
  ∀ (cfg : Params) (env : Env) (pending : List Input) (x y : Byte), ∃ s, s = State.resetWith cfg env pending ∧
    exec .crcgen s = .fault (.unwrittenRead .tx 0) ∧
    exec .crcchk s = .next (succeededWith 0 s) ∧
    exec .fvalid s = .next (failedWith 4 s) ∧
    exec .dtype s = .fault (.fieldOutsideFrame 2 1 0) ∧
    exec (.tchk x) s = .fault (.fieldOutsideFrame 2 1 0) ∧
    exec (.du8 x) s = .fault (.fieldOutsideFrame x.toNat 1 0) ∧
    (y.toNat ≤ 1 → exec (.du16 x y) s = .fault (.fieldOutsideFrame x.toNat 2 0)) ∧
    exec (.dhalf x) s = .fault (.fieldOutsideFrame x.toNat 1 0) ∧
    (y.toNat ≤ 7 → exec (.dflag x y) s = .fault (.fieldOutsideFrame x.toNat 1 0)) ∧
    exec (.du24 x) s = .fault (.fieldOutsideFrame x.toNat 3 0) ∧
    exec .dack s = .next (failedWith 3 s) ∧
    exec .xmit s = .next (illegal s) ∧
    exec .recv s = .next (illegal s)

/-! ## Checksum unit -/

/-- R106, R105 (d), (d'), (e): the equivalent form of a checksum step; it is one-to-one in the data
byte, and with carry also in the register; the checksum of a longer frame extends the checksum of its
prefix, so frames that differ in their last data byte only have different checksums; without carry
an earlier change can go undetected. -/
def Obligations.ChecksumStepLaws : Prop :=
  (∀ carry c x, crcStep carry c x =
    (c <<< 1) ^^^ (if 128 ≤ c.toNat then (if carry then 0x19 else 0x18) else 0x00) ^^^ x) ∧
  (∀ carry c x y, crcStep carry c x = crcStep carry c y → x = y) ∧
  (∀ c c' x, crcStep true c x = crcStep true c' x → c = c') ∧
  (∀ carry bs x, crcBytes carry (bs ++ [x]) = crcStep carry (crcBytes carry bs) x) ∧
  (∀ carry bs x y, crcBytes carry (bs ++ [x]) = crcBytes carry (bs ++ [y]) → x = y) ∧
  crcBytes false [0x80, 0x00] = crcBytes false [0x0C, 0x00]

/-- R102: CRCGEN writes the checksum of TX[0..4] to TX[5] and to RES, and nothing else; when one of
TX[0..4] is unwritten it is the fault UnwrittenRead at the first such byte. -/
def Obligations.CrcgenWritesTheChecksum : Prop :=
  ∀ s : State,
    (∀ bs : List Byte, bs.length = 5 → Holds s.tx bs →
      ∃ t, exec .crcgen s = .next t ∧
        t.tx.read 5 = some (crcBytes s.cfg.crcCarryIn bs) ∧ (∀ i, i ≠ 5 → t.tx.read i = s.tx.read i) ∧
        t = { succeededWith (crcBytes s.cfg.crcCarryIn bs).toNat s with tx := t.tx }) ∧
    ∀ k < 5, (∀ i < k, (s.tx.read i).isSome = true) → s.tx.read k = none →
      exec .crcgen s = .fault (.unwrittenRead .tx k)

/-- R103: CRCCHK's verdict, for every captured length. -/
def Obligations.CrcchkVerdict : Prop :=
  ∀ (s : State) (bs : List Byte), Frame s bs →
    (bs.length < 2 → exec .crcchk s = .next (succeededWith 0 s)) ∧
    (2 ≤ bs.length → ChecksumMatches s.cfg bs → exec .crcchk s = .next (succeededWith 1 s)) ∧
    (2 ≤ bs.length → ¬ ChecksumMatches s.cfg bs → exec .crcchk s = .next (succeededWith 0 s))

/-- R104: FVALID succeeds exactly on a frame of at least 5 bytes whose checksum matches, and moves
BT_STATE only from REPLY_CAPTURED. -/
def Obligations.FvalidVerdict : Prop :=
  ∀ (s : State) (bs : List Byte), Frame s bs →
    (5 ≤ bs.length → ChecksumMatches s.cfg bs →
      exec .fvalid s = .next
        { succeededWith 1 s with bt := if s.bt = .replyCaptured then .validated else s.bt }) ∧
    (bs.length < 5 ∨ ¬ ChecksumMatches s.cfg bs → exec .fvalid s = .next (failedWith 4 s))

/-! ## Encoder and parameter validation -/

/-- R120: ENCRD builds the read request and gives up any turn; an address above 0x7F is illegal, and a
word with a non-zero fourth operand is no ENCRD. -/
def Obligations.EncrdBuildsTheReadRequest : Prop :=
  ∀ (s : State) (dest type len : Byte),
    (dest.toNat ≤ 0x7F →
      ∃ t src, exec (.encrd dest type len) s = .next t ∧ src = BitVec.ofNat 8 s.cfg.ctrlAddr.toNat ∧
        Holds t.tx [src, dest ||| 0x80, type, 0x00, len,
          crcBytes s.cfg.crcCarryIn [src, dest ||| 0x80, type, 0x00, len], 0x00] ∧
        (∀ i, 7 ≤ i → t.tx.read i = s.tx.read i) ∧
        t = { succeeded s with tx := t.tx, bt := .idle }) ∧
    (0x7F < dest.toNat → exec (.encrd dest type len) s = .next (illegal s)) ∧
    ∀ d i, d ≠ 0 → decode (.command (commandWord 0x10 dest type len d)) ≠ .ok i

/-- R121: ENCWR builds the write request and gives up any turn; an address above 0x7F is illegal. -/
def Obligations.EncwrBuildsTheWriteRequest : Prop :=
  ∀ (s : State) (dest type woff val : Byte),
    (dest.toNat ≤ 0x7F →
      ∃ t src, exec (.encwr dest type woff val) s = .next t ∧ src = BitVec.ofNat 8 s.cfg.ctrlAddr.toNat ∧
        Holds t.tx [src, dest, type, woff, val, crcBytes s.cfg.crcCarryIn [src, dest, type, woff, val], 0x00] ∧
        (∀ i, 7 ≤ i → t.tx.read i = s.tx.read i) ∧
        t = { succeeded s with tx := t.tx, bt := .idle }) ∧
    (0x7F < dest.toNat → exec (.encwr dest type woff val) s = .next (illegal s))

/-- R87, R122: PCHK accepts exactly the legal values of its class and touches nothing else; a kind code
above 5 is illegal, and a word with a non-zero third or fourth operand is no PCHK. -/
def Obligations.PchkAcceptsExactlyTheLegalValues : Prop :=
  ∀ (s : State) (kind value : Byte),
    (legalParam kind.toNat value.toNat → exec (.pchk kind value) s = .next (succeeded s)) ∧
    (kind.toNat ≤ 5 → ¬ legalParam kind.toNat value.toNat → exec (.pchk kind value) s = .next (failedWith 1 s)) ∧
    (5 < kind.toNat → exec (.pchk kind value) s = .next (illegal s)) ∧
    ∀ c d i, c ≠ 0 ∨ d ≠ 0 → decode (.command (commandWord 0x18 kind value c d)) ≠ .ok i

/-! ## Field decoder -/

/-- R142, R143: the message type, and the type check; a capture shorter than 5 has no type byte. -/
def Obligations.TypeByteIsReadAndChecked : Prop :=
  ∀ (s : State) (type : Byte),
    (∀ b, 5 ≤ s.rxlen → s.rx.read 2 = some b →
      exec .dtype s = .next (succeededWith b.toNat s) ∧
      (b = type → exec (.tchk type) s = .next (succeeded s)) ∧
      (b ≠ type → exec (.tchk type) s = .next (failedWith 5 s))) ∧
    (s.rxlen < 5 → exec .dtype s = .fault (.fieldOutsideFrame 2 1 s.rxlen) ∧
      exec (.tchk type) s = .fault (.fieldOutsideFrame 2 1 s.rxlen))

/-- R144, R146, R147: one-byte fields: the byte, the byte in half units, one bit of it; outside the data
region a fault; a bit number above 7 is illegal. -/
def Obligations.OneByteFieldsDecode : Prop :=
  ∀ (s : State) (off bit : Byte),
    (∀ b, off.toNat + 3 ≤ s.rxlen → s.rx.read off.toNat = some b →
      exec (.du8 off) s = .next (succeededWith b.toNat s) ∧
      exec (.dhalf off) s = .next (succeededWith b.toNat s) ∧
      (bit.toNat ≤ 7 → exec (.dflag off bit) s = .next (succeededWith (b.toNat / 2 ^ bit.toNat % 2 : Nat) s))) ∧
    (s.rxlen < off.toNat + 3 → exec (.du8 off) s = .fault (.fieldOutsideFrame off.toNat 1 s.rxlen) ∧
      exec (.dhalf off) s = .fault (.fieldOutsideFrame off.toNat 1 s.rxlen) ∧
      (bit.toNat ≤ 7 → exec (.dflag off bit) s = .fault (.fieldOutsideFrame off.toNat 1 s.rxlen))) ∧
    (7 < bit.toNat → exec (.dflag off bit) s = .next (illegal s))

/-- R145: a 16-bit field, most significant byte first, unsigned or two's complement; outside the data
region a fault; a sign operand above 1 is illegal. -/
def Obligations.SixteenBitFieldDecodes : Prop :=
  ∀ (s : State) (off sgn : Byte),
    (∀ b0 b1, off.toNat + 4 ≤ s.rxlen → s.rx.read off.toNat = some b0 → s.rx.read (off.toNat + 1) = some b1 →
      exec (.du16 off 0) s = .next (succeededWith (b0.toNat * 256 + b1.toNat : Nat) s) ∧
      exec (.du16 off 1) s = .next (succeededWith (b0 ++ b1).toInt s)) ∧
    (s.rxlen < off.toNat + 4 → sgn.toNat ≤ 1 →
      exec (.du16 off sgn) s = .fault (.fieldOutsideFrame off.toNat 2 s.rxlen)) ∧
    (1 < sgn.toNat → exec (.du16 off sgn) s = .next (illegal s))

/-- R148: a 24-bit counter, most significant byte first, from 0 to 16777215; outside the data region a
fault. -/
def Obligations.CounterDecodes : Prop :=
  ∀ (s : State) (off : Byte),
    (∀ b0 b1 b2, off.toNat + 5 ≤ s.rxlen → s.rx.read off.toNat = some b0 →
      s.rx.read (off.toNat + 1) = some b1 → s.rx.read (off.toNat + 2) = some b2 →
      ∃ v : Nat, v = b0.toNat * 65536 + b1.toNat * 256 + b2.toNat ∧ v ≤ 16777215 ∧
        exec (.du24 off) s = .next (succeededWith v s)) ∧
    (s.rxlen < off.toNat + 5 → exec (.du24 off) s = .fault (.fieldOutsideFrame off.toNat 3 s.rxlen))

/-- R75, R149: the acknowledgement is the first captured byte, whatever follows it. -/
def Obligations.DackChecksTheFirstByte : Prop :=
  ∀ s : State,
    (s.rxlen = 0 → exec .dack s = .next (failedWith 3 s)) ∧
    ∀ b, 1 ≤ s.rxlen → s.rx.read 0 = some b →
      (b = s.cfg.ackByte → exec .dack s = .next
        { succeeded s with bt := if s.bt = .replyCaptured then .validated else s.bt }) ∧
      (b ≠ s.cfg.ackByte → exec .dack s = .next (failedWith 6 s))

/-- R89: DFIELD is the one command its field's kind names; inside a frame that command gives the kind's
raw value (the table of R77). -/
def Obligations.DfieldDecodesByKind : Prop :=
  (∀ (off : Byte) (bit : Fin 8),
    expandField ⟨.u8, off, bit⟩ = .du8 off ∧ expandField ⟨.u16, off, bit⟩ = .du16 off 0 ∧
    expandField ⟨.s16, off, bit⟩ = .du16 off 1 ∧ expandField ⟨.half, off, bit⟩ = .dhalf off ∧
    (∃ k : Byte, k.toNat = bit.val ∧ expandField ⟨.flag, off, bit⟩ = .dflag off k) ∧
    expandField ⟨.u24, off, bit⟩ = .du24 off) ∧
  ∀ (s : State) (fs : FieldSpec) (bs : List Byte), Frame s bs → FieldInside fs bs →
    (expandField fs).wellFormed = true ∧
    exec (expandField fs) s = .next (succeededWith (fieldValue fs bs) s)

/-- R140: a decode command never writes TX, RX, RXLEN or the link, and only DACK moves BT_STATE. -/
def Obligations.DecodeCommandsTouchOnlyTheResult : Prop :=
  ∀ (i : Instr) (s t : State), isDecode i = true → exec i s = .next t →
    t = { s with status := t.status, res := t.res, resv := t.resv, bt := t.bt } ∧
    (t.bt = s.bt ∨ i = .dack ∧ s.bt = .replyCaptured ∧ t.bt = .validated)

/-! ## Poll monitor and frame I/O -/

/-- R74, R170, R171, R172: when, before the deadline, after any number of captured groups that are no poll of
this controller and any number of gaps and idle fillers, a poll of this controller is on the link, AWAIT takes
the turn: after a capture that does not match, scanning resumes. The second unit is not examined. -/
def Obligations.AwaitTakesTheTurn : Prop :=
  ∀ (s : State) (traffic : List Traffic) (quiet : List LinkEvent) (b : Byte) (second : LinkUnit)
    (rest : List LinkEvent) (t0 : Nat) (ts ts' : List Nat),
    s.env.arrivals =
      traffic.flatMap Traffic.events ++ quiet ++ .arrived ⟨b, false⟩ :: .arrived second :: rest →
    (∀ q ∈ traffic, q.Foreign s.cfg) → Quiet s.cfg.idleFiller quiet →
    b ≠ s.cfg.idleFiller → (b &&& 0x7F).toNat = s.cfg.ctrlAddr.toNat →
    s.env.times = t0 :: (ts ++ ts') → ts.length = (traffic.map Traffic.reads).sum + quiet.length + 1 →
    spent ts < s.cfg.pollTo →
    ∃ t, exec .await s = .next t ∧ t.rx.read 0 = some b ∧ t.rx.read 1 = some second.byte ∧
      (∀ i, 2 ≤ i → t.rx.read i = s.rx.read i) ∧
      t.env.arrivals = rest ∧ t.env.times = ts' ∧ t.env.sent = s.env.sent ∧
      t = { succeeded s with rx := t.rx, rxlen := 2, bt := .transmitting, env := t.env }

/-- R170, R172: with no poll of this controller on the link until the deadline, AWAIT fails with
PollTimeout. First clause: the deadline comes while it waits for a capture's first unit (`POLL_TO = 0`: at
once, without reading the link), and RXLEN is 0. Second clause: it comes at the test after a capture that
does not match, and RXLEN is that capture's length. RX holds what the captures stored, and no more. -/
def Obligations.AwaitTimesOut : Prop :=
  ∀ (s : State) (traffic : List Traffic) (rest : List LinkEvent) (t0 d : Nat) (ts ts' : List Nat),
    (∀ q ∈ traffic, q.Foreign s.cfg) →
    (∀ quiet d', s.env.arrivals = traffic.flatMap Traffic.events ++ quiet ++ rest → Quiet s.cfg.idleFiller quiet →
      s.env.times = t0 :: (ts ++ d :: d' :: ts') →
      ts.length = (traffic.map Traffic.reads).sum + quiet.length →
      (ts = [] ∨ spent ts < s.cfg.pollTo) → s.cfg.pollTo ≤ spent (ts ++ [d]) →
      spent (ts ++ [d, d']) < 2 ^ 32 →
      ∃ t, exec .await s = .next t ∧ t.env.arrivals = rest ∧ t.env.times = ts' ∧ t.env.sent = s.env.sent ∧
        t = { failedWith 2 s with rx := storedBy traffic s.rx, rxlen := 0, bt := .idle, env := t.env }) ∧
    ∀ last : Traffic, last.Foreign s.cfg →
      s.env.arrivals = traffic.flatMap Traffic.events ++ last.events ++ rest →
      s.env.times = t0 :: (ts ++ d :: ts') →
      ts.length = (traffic.map Traffic.reads).sum + last.quiet.length + 1 →
      spent ts < s.cfg.pollTo → s.cfg.pollTo ≤ spent (ts ++ [d]) →
      ∃ t, exec .await s = .next t ∧ t.env.arrivals = rest ∧ t.env.times = ts' ∧ t.env.sent = s.env.sent ∧
        t = { failedWith 2 s with
          rx := storedBy (traffic ++ [last]) s.rx, rxlen := last.group.bytes.length, bt := .idle, env := t.env }

/-- R172: however the link and the clock behave, AWAIT ends with this controller's poll in RX[0..1]
and the turn, or, when POLL_TO has passed since its first clock reading and not before, with PollTimeout and
no turn; beyond RX[0..1], RXLEN, BT_STATE, STATUS and RESV it writes nothing, and it sends nothing. -/
def Obligations.AwaitEndsInTurnOrTimeout : Prop :=
  ∀ s : State, ∃ t, exec .await s = .next t ∧ t.env.sent = s.env.sent ∧
    (∀ i, 2 ≤ i → t.rx.read i = s.rx.read i) ∧
    ((∃ b, t.rxlen = 2 ∧ t.rx.read 0 = some b ∧ (b &&& 0x7F).toNat = s.cfg.ctrlAddr.toNat ∧
        t = { succeeded s with rx := t.rx, rxlen := 2, bt := .transmitting, env := t.env }) ∨
      (t.rxlen ≤ 2 ∧ s.cfg.pollTo ≤ (t.env.clock - s.env.now.clock).toNat ∧
        t = { failedWith 2 s with rx := t.rx, rxlen := t.rxlen, bt := .idle, env := t.env }))

/-- R191, R192, R193, R307: in TRANSMITTING, XMIT sends TX[0..5] and the end-of-frame signal, each at
least TX_GAP after the one before, starts the answer window, counts, and reads nothing of the link. (With a
TX_GAP of `2^32` or more XMIT never ends, R64: UnwrittenReadsFault and log entry 7.) -/
def Obligations.XmitSendsThePacedFrame : Prop :=
  ∀ (s : State) (bs : List Byte), s.bt = .transmitting → s.cfg.txGap < 2 ^ 32 → bs.length = 6 → Holds s.tx bs →
    ∃ t stamps, exec .xmit s = .next t ∧ stamps.length = 7 ∧
      t.env.sent = s.env.sent ++
        List.zipWith (fun item c => ⟨item, c⟩) (bs.map SentItem.data ++ [SentItem.endOfFrame]) stamps ∧
      (∀ i a b, stamps[i]? = some a → stamps[i + 1]? = some b → s.cfg.txGap ≤ (b - a).toNat) ∧
      t.env.arrivals = s.env.arrivals ∧ t.env.linkDraws = s.env.linkDraws ∧
      t = { succeeded s with bt := .awaitingReply, xcnt := s.xcnt + 1, tTx := t.env.clock, env := t.env }

/-- R196: XMIT runs only in TRANSMITTING, which only a successful AWAIT sets; RECV runs only in
AWAITING_REPLY, which only XMIT sets; any other order fails with IllegalCommand and changes nothing
but STATUS and RESV. -/
def Obligations.TransportInterlocks : Prop :=
  (∀ s : State, (s.bt ≠ .transmitting → exec .xmit s = .next (illegal s)) ∧
    (s.bt ≠ .awaitingReply → exec .recv s = .next (illegal s))) ∧
  ∀ (i : Instr) (s t : State), exec i s = .next t →
    (t.bt = .transmitting → s.bt = .transmitting ∨ i = .await ∧ t.status = 0x01) ∧
    (t.bt = .awaitingReply → s.bt = .awaitingReply ∨ i = .xmit ∧ s.bt = .transmitting ∧ t.status = 0x01)

/-- R33, R29, R192, R276, R28: a read of a buffer byte that nothing has written is the fault UnwrittenRead at
that byte: by XMIT the first one of the frame, by the host any one, one beyond the buffer included (the model's
choice, log entry 23); the host's read of RES while RESV = 0 is a fault under a name of the model's own,
`unwrittenResult` (log entry 23). Everything else the host can read gives its value, BT_STATE the code of
R28. A wait for a TX_GAP of `2^32` or more never returns, and XMIT is stuck in it (log entry 7). -/
def Obligations.UnwrittenReadsFault : Prop :=
  ∀ (s : State) (k : Nat),
    (k < 6 → (∀ i < k, (s.tx.read i).isSome = true) → s.tx.read k = none → s.bt = .transmitting →
      k = 0 ∨ s.cfg.txGap < 2 ^ 32 → exec .xmit s = .fault (.unwrittenRead .tx k)) ∧
    ((s.tx.read 0).isSome = true → s.bt = .transmitting → 2 ^ 32 ≤ s.cfg.txGap →
      exec .xmit s = .fault (.stuckInWait s.cfg.txGap)) ∧
    (s.tx.read k = none → hostRead (.tx k) s = .error (.unwrittenRead .tx k)) ∧
    (s.rx.read k = none → hostRead (.rx k) s = .error (.unwrittenRead .rx k)) ∧
    (∀ b, s.tx.read k = some b → hostRead (.tx k) s = .ok b.toNat) ∧
    (∀ b, s.rx.read k = some b → hostRead (.rx k) s = .ok b.toNat) ∧
    (s.resv = false → hostRead .res s = .error .unwrittenResult) ∧
    (s.resv = true → hostRead .res s = .ok s.res ∧ hostRead .resv s = .ok 1) ∧
    (s.resv = false → hostRead .resv s = .ok 0) ∧
    hostRead .status s = .ok s.status.toNat ∧ hostRead .rxlen s = .ok s.rxlen ∧ hostRead .rc s = .ok s.rc ∧
    hostRead .xcnt s = .ok s.xcnt.toNat ∧ hostRead .ansTo s = .ok s.ansTo.toNat ∧
    ∃ code : Nat, hostRead .btState s = .ok code ∧
      (s.bt, code) ∈ [(.idle, 0), (.waitingForPoll, 1), (.transmitting, 2), (.awaitingReply, 3),
        (.replyCaptured, 4), (.validated, 5), (.timedOut, 6)]

/-- R76, R170, R171, R195: before the deadline, after any number of gaps and idle fillers, RECV captures
one group of units in arrival order, fillers inside it included, until a boundary unit, RX_MAX or
a gap ends it. -/
def Obligations.RecvCapturesTheReply : Prop :=
  ∀ (s : State) (quiet : List LinkEvent) (us : List LinkUnit) (tail rest : List LinkEvent) (ts ts' : List Nat),
    s.bt = .awaitingReply → s.env.arrivals = quiet ++ us.map .arrived ++ tail →
    Quiet s.cfg.idleFiller quiet → CaptureEnds s.cfg.rxMax us tail rest →
    (∀ u ∈ us.head?, u.byte ≠ s.cfg.idleFiller) →
    s.env.times = ts ++ ts' → ts.length = quiet.length + 2 →
    (s.env.clock - s.tTx).toNat + spent ts < s.ansTo.toNat * 100 →
    ∃ t, exec .recv s = .next t ∧ Holds t.rx (us.map (·.byte)) ∧
      (∀ i, us.length ≤ i → t.rx.read i = s.rx.read i) ∧
      t.env.arrivals = rest ∧ t.env.times = ts' ∧ t.env.sent = s.env.sent ∧
      t = { succeededWith us.length s with rx := t.rx, rxlen := us.length, bt := .replyCaptured, env := t.env }

/-- R195, R171: with nothing but gaps and idle fillers on the link until the answer window is over, RECV
fails with ReplyTimeout. While it waits for a first unit it tests the deadline once before each look, `k` of
them. When the (k+1)-th look finds a unit waiting, it enters the capture and tests the deadline before every
further look, `quiet.length` of them, the waiting unit included; then the capture returns 0. Where the window
is over at the capture's first test (`quiet = []`), the waiting unit, whatever it is, stays on the link. -/
def Obligations.RecvTimesOut : Prop :=
  ∀ (s : State) (k : Nat) (quiet rest : List LinkEvent) (d : Nat) (ts ts' : List Nat),
    s.bt = .awaitingReply → s.env.arrivals = List.replicate k .gap ++ quiet ++ rest →
    Quiet s.cfg.idleFiller quiet → s.env.times = ts ++ d :: ts' →
    (quiet = [] ∧ ts.length = k ∨
      (∃ u as, quiet ++ rest = .arrived u :: as) ∧ ts.length = k + 1 + quiet.length) →
    (ts = [] ∨ (s.env.clock - s.tTx).toNat + spent ts < s.ansTo.toNat * 100) →
    s.ansTo.toNat * 100 ≤ (s.env.clock - s.tTx).toNat + spent (ts ++ [d]) →
    (s.env.clock - s.tTx).toNat + spent (ts ++ [d]) < 2 ^ 32 →
    ∃ t, exec .recv s = .next t ∧ t.env.arrivals = rest ∧ t.env.times = ts' ∧ t.env.sent = s.env.sent ∧
      t = { failedWith 3 s with rxlen := 0, bt := .timedOut, env := t.env }

/-- R195: however the link and the clock behave, RECV in AWAITING_REPLY ends with a captured reply of 1
to RX_MAX units and its length in RES, or, when the answer window is over and not before, with ReplyTimeout
and none; RX beyond the capture keeps its content, and nothing is sent. -/
def Obligations.RecvEndsInReplyOrTimeout : Prop :=
  ∀ s : State, s.bt = .awaitingReply → ∃ t, exec .recv s = .next t ∧ t.env.sent = s.env.sent ∧
    (∀ i, t.rxlen ≤ i → t.rx.read i = s.rx.read i) ∧ (∀ i < t.rxlen, (t.rx.read i).isSome = true) ∧
    ((1 ≤ t.rxlen ∧ t.rxlen ≤ s.cfg.rxMax ∧
        t = { succeededWith t.rxlen s with rx := t.rx, rxlen := t.rxlen, bt := .replyCaptured, env := t.env }) ∨
      s.ansTo.toNat * 100 ≤ (t.env.clock - s.tTx).toNat ∧
        t = { failedWith 3 s with rx := t.rx, rxlen := 0, bt := .timedOut, env := t.env })

/-- R190, R198: the deadline test is right across a wrap of the clock: `d` milliseconds after `start`
it holds exactly when `dur ≤ d`. -/
def Obligations.DeadlineTestIsModular : Prop :=
  ∀ (start : ClockWord) (d dur : Nat), d < 2 ^ 32 →
    (elapsedAtLeast start (start + BitVec.ofNat 32 d) dur = true ↔ dur ≤ d)

/-- R174 and log entries 4 and 9: no wait is cut short by the model's fuel: more fuel than a wait is
given changes nothing. -/
def Obligations.WaitsEndBeforeTheirFuel : Prop :=
  ∀ (s : State) (start : ClockWord) (dur fuel : Nat) (mode : CaptureMode), dur < 2 ^ 31 →
    waitFuel dur s.env ≤ fuel →
    captureIdle mode start dur fuel s = captureIdle mode start dur (waitFuel dur s.env) s ∧
    awaitLoop start dur fuel s = awaitLoop start dur (waitFuel dur s.env) s ∧
    recvLoop start dur fuel s = recvLoop start dur (waitFuel dur s.env) s

/-! ## Sequencer -/

/-- R232, R27: SETTO takes exactly 1 to 255. -/
def Obligations.SettoSetsTheTimeout : Prop :=
  ∀ (s : State) (value : Byte),
    (1 ≤ value.toNat → exec (.setto value) s = .next { succeededWith value.toNat s with ansTo := value }) ∧
    (value.toNat = 0 → exec (.setto value) s = .next (failedWith 1 s))

/-- R222, R224: XREAD is its six commands, and XWRITE its five, run one after the other, ended by the
first that fails; after the last one RES is RXLEN. An id the catalog lacks is the fault
CatalogUndefined. -/
def Obligations.ExchangesAreTheirCommands : Prop :=
  ∀ (s : State) (id val : Byte),
    (∀ r, s.cfg.cat.read.lookup id = some r → exec (.xread id) s =
      onSuccess (runSteps [.encrd r.dest r.type r.len, .await, .xmit, .recv, .fvalid, .tchk r.type] s)
        fun t => .next (succeededWith t.rxlen t)) ∧
    (s.cfg.cat.read.lookup id = none → exec (.xread id) s = .fault (.catalogUndefined .read id.toNat)) ∧
    (∀ w, s.cfg.cat.write.lookup id = some w → exec (.xwrite id val) s =
      onSuccess (runSteps [.encwr w.dest w.type w.woff val, .await, .xmit, .recv, .dack] s)
        fun t => .next (succeededWith t.rxlen t)) ∧
    (s.cfg.cat.write.lookup id = none → exec (.xwrite id val) s = .fault (.catalogUndefined .write id.toNat))

/-- R228: WVERIFY is the loop of its rule over XWRITE, XREAD and DFIELD; a descriptor the catalog lacks is
the fault CatalogUndefined. -/
def Obligations.WverifyIsItsLoop : Prop :=
  ∀ (s : State) (wd val vd : Byte),
    (∀ w v r, s.cfg.cat.write.lookup wd = some w → s.cfg.cat.verify.lookup vd = some v →
      s.cfg.cat.read.lookup v.rd = some r →
      exec (.wverify wd val vd) s = verifyByCommands wd val v s.cfg.retryMax s) ∧
    (s.cfg.cat.write.lookup wd = none → exec (.wverify wd val vd) s = .fault (.catalogUndefined .write wd.toNat)) ∧
    ((s.cfg.cat.write.lookup wd).isSome = true → s.cfg.cat.verify.lookup vd = none →
      exec (.wverify wd val vd) s = .fault (.catalogUndefined .verify vd.toNat)) ∧
    (∀ v, (s.cfg.cat.write.lookup wd).isSome = true → s.cfg.cat.verify.lookup vd = some v →
      s.cfg.cat.read.lookup v.rd = none →
      exec (.wverify wd val vd) s = .fault (.catalogUndefined .read v.rd.toNat))

/-- R234, R236: a host read operation is its chain of XREADs, each followed by the decodes of its step;
the first failure is reported without fields, with its cause as R234's `report failure(CAUSE)` has it
(log entry 30 names the rule that reads otherwise); an operation the catalog has no map for is the fault
CatalogUndefined. -/
def Obligations.HostReadOperationsAreTheirCommands : Prop :=
  ∀ (i : Instr) (code : Nat) (s : State),
    (i, code) ∈ [(.op1, 1), (.op2, 2), (.op3, 3), (.op4, 4), (.op9, 9)] →
    (∀ op, s.cfg.cat.readOp.lookup code = some op → exec i s = readByCommands (op.first :: op.rest) [] s) ∧
    (s.cfg.cat.readOp.lookup code = none → exec i s = .fault (.catalogUndefined .hostOp code))

/-- R235, R236, R242 to R246: a host write operation is its PCHKs in parameter order and then WVERIFY of
the pair its map selects with the value its rule names. A parameter above 255 is turned away by the host
itself (that STATUS then keeps its value is log entry 16). A failure is reported with its cause
(log entry 30). -/
def Obligations.HostWriteOperationsAreTheirCommands : Prop :=
  ∀ (i : Instr) (code : Nat) (key : List Byte) (val : Byte) (name : String) (s : State),
    ((∃ c m : Nat, i = .op10 (.num c) (.num m) ∧ code = 10 ∧ key = [BitVec.ofNat 8 c, BitVec.ofNat 8 m] ∧
        val = BitVec.ofNat 8 m ∧ name = "confirmed mode") ∨
      (∃ c m x : Nat, i = .op11 (.num c) (.num m) (.num x) ∧ code = 11 ∧
        key = [BitVec.ofNat 8 c, BitVec.ofNat 8 m] ∧ val = BitVec.ofNat 8 x ∧ name = "confirmed temperature") ∨
      (∃ x : Nat, i = .op12 (.num x) ∧ code = 12 ∧ key = [] ∧ val = BitVec.ofNat 8 x ∧
        name = "confirmed temperature") ∨
      (∃ m : Nat, i = .op13 (.num m) ∧ code = 13 ∧ key = [] ∧ val = BitVec.ofNat 8 m ∧ name = "confirmed mode") ∨
      (∃ m : Nat, i = .op14 (.num m) ∧ code = 14 ∧ key = [] ∧
        val = (s.cfg.cat.charge.lookup (BitVec.ofNat 8 m)).getD (BitVec.ofNat 8 m) ∧ name = "confirmed flag")) →
    exec i s = checkParamsByCommands (confirmByCommands code key val name) (checkedParams i) s

/-- R222, R71: XREAD succeeds when the bus polls this controller and answers with a valid frame of the
requested type in time; the reply is then in RX, the read request of its descriptor is in TX and its six bytes
have been sent, and RES is the reply's length. -/
def Obligations.XreadSucceedsWhenAnswered : Prop :=
  ∀ (s : State) (rd : Byte) (r : ReadDesc) (x : Exchange) (rest : List LinkEvent) (ts ts' : List Nat),
    s.cfg.cat.read.lookup rd = some r → r.dest.toNat ≤ 0x7F → x.Answers s.cfg r →
    s.env.arrivals = x.events ++ rest → s.env.times = ts ++ ts' → Prompt s 1 ts →
    ∃ t src crc, exec (.xread rd) s = .next t ∧ Frame t x.reply ∧ src = BitVec.ofNat 8 s.cfg.ctrlAddr.toNat ∧
      crc = crcBytes s.cfg.crcCarryIn [src, r.dest ||| 0x80, r.type, 0x00, r.len] ∧
      Holds t.tx [src, r.dest ||| 0x80, r.type, 0x00, r.len, crc, 0x00] ∧
      t.env.sent.map (·.item) = s.env.sent.map (·.item) ++
        [src, r.dest ||| 0x80, r.type, 0x00, r.len, crc].map .data ++ [.endOfFrame] ∧
      t.env.arrivals = rest ∧ t.env.times = ts' ∧ KeptFrom 7 (max 2 x.reply.length) s t ∧
      t = { succeededWith x.reply.length s with
        tx := t.tx, rx := t.rx, rxlen := x.reply.length, bt := .validated, tTx := t.tTx, xcnt := s.xcnt + 1,
        env := t.env }

/-- R224, R72: XWRITE succeeds when the bus polls this controller and answers with the acknowledgement byte
in time; the write request of its descriptor is then in TX and its six bytes have been sent. -/
def Obligations.XwriteSucceedsWhenAcknowledged : Prop :=
  ∀ (s : State) (wd val : Byte) (w : WriteDesc) (x : Exchange) (rest : List LinkEvent) (ts ts' : List Nat),
    s.cfg.cat.write.lookup wd = some w → w.dest.toNat ≤ 0x7F → x.Acknowledges s.cfg →
    s.env.arrivals = x.events ++ rest → s.env.times = ts ++ ts' → Prompt s 1 ts →
    ∃ t src crc, exec (.xwrite wd val) s = .next t ∧ Frame t x.reply ∧
      src = BitVec.ofNat 8 s.cfg.ctrlAddr.toNat ∧
      crc = crcBytes s.cfg.crcCarryIn [src, w.dest, w.type, w.woff, val] ∧
      Holds t.tx [src, w.dest, w.type, w.woff, val, crc, 0x00] ∧
      t.env.sent.map (·.item) = s.env.sent.map (·.item) ++
        [src, w.dest, w.type, w.woff, val, crc].map .data ++ [.endOfFrame] ∧
      t.env.arrivals = rest ∧ t.env.times = ts' ∧ KeptFrom 7 (max 2 x.reply.length) s t ∧
      t = { succeededWith x.reply.length s with
        tx := t.tx, rx := t.rx, rxlen := x.reply.length, bt := .validated, tTx := t.tTx, xcnt := s.xcnt + 1,
        env := t.env }

/-- R226, R228, R230: after any number of failed attempts within the budget, WVERIFY succeeds on the
attempt whose confirming read matches; RES is the confirmed value and RC the attempts left. It has sent the
requests of the failed attempts, the write request and the confirming read request, which is left in TX. -/
def Obligations.WverifySucceedsOnAMatch : Prop :=
  ∀ (s : State) (wd val vd : Byte) (w : WriteDesc) (v : VerifyDesc) (r : ReadDesc) (failed : List FailedAttempt)
    (write read : Exchange) (rest : List LinkEvent) (ts ts' : List Nat),
    Confirmed s wd val vd w v r failed write read rest ts ts' →
    ∃ t, exec (.wverify wd val vd) s = .next t ∧ Frame t read.reply ∧ Holds t.tx (readRequest s.cfg r) ∧
      Sends (failed.flatMap (FailedAttempt.sends s.cfg w val r) ++ transmitted (writeRequest s.cfg w val) ++
        transmitted (readRequest s.cfg r)) s t ∧
      t.rc = s.cfg.retryMax - failed.length - 1 ∧
      t.xcnt = s.xcnt + BitVec.ofNat 32 ((failed.map FailedAttempt.exchanges).sum + 2) ∧
      t.env.arrivals = rest ∧ t.env.times = ts' ∧
      (∀ m, 2 ≤ m → write.reply.length ≤ m → read.reply.length ≤ m → (∀ a ∈ failed, a.longest ≤ m) →
        KeptFrom 7 m s t) ∧
      t = { succeededWith (expected v.expect val) s with
        tx := t.tx, rx := t.rx, rxlen := read.reply.length, bt := .validated, rc := t.rc, tTx := t.tTx,
        xcnt := t.xcnt, env := t.env }

/-- R251, R226: when every attempt of the budget fails, WVERIFY ends with the cause of the last one and
`RC = 0`; it has sent the requests of all attempts; when all were acknowledged and mismatched, these are
`2 * RETRY_MAX` frames. -/
def Obligations.WverifyExhaustsItsBudget : Prop :=
  ∀ (s : State) (wd val vd : Byte) (w : WriteDesc) (v : VerifyDesc) (r : ReadDesc) (failed : List FailedAttempt)
    (rest : List LinkEvent) (ts ts' : List Nat),
    VerifyEntries s.cfg wd vd w v r → (∀ a ∈ failed, a.Fails s.cfg val v r) → failed.length = s.cfg.retryMax →
    s.env.arrivals = failed.flatMap FailedAttempt.events ++ rest → s.env.times = ts ++ ts' →
    Prompt s ((failed.map FailedAttempt.exchanges).sum) ts →
    ∃ t, exec (.wverify wd val vd) s = .next t ∧
      t = { s with
        tx := t.tx, rx := t.rx, rxlen := t.rxlen, status := t.status, bt := t.bt, res := t.res, resv := false,
        rc := 0, tTx := t.tTx, xcnt := t.xcnt, env := t.env } ∧
      t.env.arrivals = rest ∧ t.env.times = ts' ∧ Sends (failed.flatMap (FailedAttempt.sends s.cfg w val r)) s t ∧
      t.xcnt = s.xcnt + BitVec.ofNat 32 ((failed.map FailedAttempt.exchanges).sum) ∧
      (∀ x, failed.getLast? = some (.notAcknowledged x) → statusCause t.status = 6) ∧
      (∀ x y, failed.getLast? = some (.mismatched x y) → statusCause t.status = 7) ∧
      ((∀ a ∈ failed, ∃ x y, a = .mismatched x y) → t.xcnt = s.xcnt + BitVec.ofNat 32 (2 * s.cfg.retryMax))

/-- R226, R228: whatever the bus does, WVERIFY uses at least one and at most RETRY_MAX attempts, sends
at most two frames per attempt, and ends with a retried cause only when the budget is used up. -/
def Obligations.WverifyKeepsItsBudget : Prop :=
  ∀ (s t : State) (wd val vd : Byte), exec (.wverify wd val vd) s = .next t →
    t.rc < s.cfg.retryMax ∧
    (∃ k ≤ 2 * (s.cfg.retryMax - t.rc), t.xcnt = s.xcnt + BitVec.ofNat 32 k) ∧
    (statusCause t.status = 6 ∨ statusCause t.status = 7 → t.rc = 0)

/-- R303: on a link that echoes, XREAD succeeds on the echo of its own request: after a poll of this
controller, its six bytes and any boundary unit come back, and no reply. The controller's address must not be
the idle filler, which a capture discards. -/
def Obligations.EchoOfAReadRequestAnswersIt : Prop :=
  ∀ (s : State) (rd : Byte) (r : ReadDesc) (poll src crc last : Byte) (second : LinkUnit) (rest : List LinkEvent)
    (ts ts' : List Nat),
    s.cfg.cat.read.lookup rd = some r → r.dest.toNat ≤ 0x7F →
    src = BitVec.ofNat 8 s.cfg.ctrlAddr.toNat →
    crc = crcBytes s.cfg.crcCarryIn [src, r.dest ||| 0x80, r.type, 0x00, r.len] →
    poll ≠ s.cfg.idleFiller → (poll &&& 0x7F).toNat = s.cfg.ctrlAddr.toNat → src ≠ s.cfg.idleFiller →
    s.env.arrivals = .arrived ⟨poll, false⟩ :: .arrived second ::
      [src, r.dest ||| 0x80, r.type, 0x00, r.len, crc].map (fun b => .arrived ⟨b, false⟩) ++
      .arrived ⟨last, true⟩ :: rest →
    s.env.times = ts ++ ts' → Prompt s 1 ts →
    ∃ t, exec (.xread rd) s = .next t ∧ Frame t [src, r.dest ||| 0x80, r.type, 0x00, r.len, crc, last] ∧
      Holds t.tx [src, r.dest ||| 0x80, r.type, 0x00, r.len, crc, 0x00] ∧
      t.env.sent.map (·.item) = s.env.sent.map (·.item) ++
        [src, r.dest ||| 0x80, r.type, 0x00, r.len, crc].map .data ++ [.endOfFrame] ∧
      t.env.arrivals = rest ∧ t.env.times = ts' ∧ KeptFrom 7 7 s t ∧
      t = { succeededWith 7 s with
        tx := t.tx, rx := t.rx, rxlen := 7, bt := .validated, tTx := t.tTx, xcnt := s.xcnt + 1, env := t.env }

/-! ## Host operations -/

/-- R234, R237 to R241: a host read operation whose every step is answered reports the decoded fields of
all its replies, under each name the value assigned to it last; it has sent the read request of each step, the
last of which is left in TX. What RES, RESV, RXLEN, T_TX and RX below the longest reply hold in the end is not
said here: HostReadOperationsAreTheirCommands says it. -/
def Obligations.HostReadOperationsReportTheirFields : Prop :=
  ∀ (i : Instr) (code : Nat) (s : State) (op : ReadOp) (xs : List Exchange) (rest : List LinkEvent)
    (ts ts' : List Nat),
    (i, code) ∈ [(.op1, 1), (.op2, 2), (.op3, 3), (.op4, 4), (.op9, 9)] →
    s.cfg.cat.readOp.lookup code = some op →
    List.Forall₂ (StepAnswered s.cfg) (op.first :: op.rest) xs →
    s.env.arrivals = xs.flatMap Exchange.events ++ rest → s.env.times = ts ++ ts' → Prompt s xs.length ts →
    ∃ t fields, exec i s = .next t ∧ t.host.reports = s.host.reports ++ [.success fields] ∧
      Assigned (List.zipWith stepValues (op.first :: op.rest) xs).flatten fields ∧
      Sends ((op.first :: op.rest).flatMap fun step => transmitted (stepRequest s.cfg step)) s t ∧
      (∀ step ∈ (op.first :: op.rest).getLast?, Holds t.tx (stepRequest s.cfg step)) ∧
      t.host.pending = s.host.pending ∧ t.status = 0x01 ∧ t.bt = .validated ∧
      t.xcnt = s.xcnt + BitVec.ofNat 32 xs.length ∧ t.env.arrivals = rest ∧
      (∀ m, 2 ≤ m → (∀ x ∈ xs, x.reply.length ≤ m) → KeptFrom 7 m s t) ∧
      t = { s with
        status := t.status, res := t.res, resv := t.resv, tx := t.tx, rx := t.rx, rxlen := t.rxlen, bt := t.bt,
        tTx := t.tTx, xcnt := t.xcnt, env := t.env, host := t.host }

/-- R235, R242 to R246: a host write operation with legal parameters whose WVERIFY is confirmed reports the
confirmed value. It has sent the write request for the value its rule names to the record its map selects,
once in every attempt, and at last the confirming read request, which is left in TX. -/
def Obligations.HostWriteOperationsReportTheConfirmedValue : Prop :=
  ∀ (i : Instr) (code : Nat) (key : List Byte) (val : Byte) (name : String) (s : State) (sel : Selection)
    (w : WriteDesc) (v : VerifyDesc) (r : ReadDesc) (failed : List FailedAttempt) (write read : Exchange)
    (rest : List LinkEvent) (ts ts' : List Nat),
    ((∃ c m : Byte, i = .op10 (.num c.toNat) (.num m.toNat) ∧ code = 10 ∧ key = [c, m] ∧ val = m ∧
        name = "confirmed mode") ∨
      (∃ c m x : Byte, i = .op11 (.num c.toNat) (.num m.toNat) (.num x.toNat) ∧ code = 11 ∧ key = [c, m] ∧
        val = x ∧ name = "confirmed temperature") ∨
      (∃ x : Byte, i = .op12 (.num x.toNat) ∧ code = 12 ∧ key = [] ∧ val = x ∧ name = "confirmed temperature") ∨
      (∃ m : Byte, i = .op13 (.num m.toNat) ∧ code = 13 ∧ key = [] ∧ val = m ∧ name = "confirmed mode") ∨
      (∃ m : Byte, i = .op14 (.num m.toNat) ∧ code = 14 ∧ key = [] ∧ val = (s.cfg.cat.charge.lookup m).getD m ∧
        name = "confirmed flag")) →
    (∀ kp ∈ checkedParams i, ParamGood kp) →
    s.cfg.cat.writeOp.lookup (code, key) = some sel →
    Confirmed s sel.wd val sel.vd w v r failed write read rest ts ts' →
    ∃ t, exec i s = .next t ∧ Frame t read.reply ∧ Holds t.tx (readRequest s.cfg r) ∧
      Sends (failed.flatMap (FailedAttempt.sends s.cfg w val r) ++ transmitted (writeRequest s.cfg w val) ++
        transmitted (readRequest s.cfg r)) s t ∧
      t.host.reports = s.host.reports ++ [.success [(name, expected v.expect val)]] ∧
      t.host.pending = s.host.pending ∧ t.rc = s.cfg.retryMax - failed.length - 1 ∧
      t.env.arrivals = rest ∧
      (∀ m, 2 ≤ m → write.reply.length ≤ m → read.reply.length ≤ m → (∀ a ∈ failed, a.longest ≤ m) →
        KeptFrom 7 m s t) ∧
      t = { succeededWith (expected v.expect val) s with
        tx := t.tx, rx := t.rx, rxlen := t.rxlen, bt := .validated, rc := t.rc, tTx := t.tTx,
        xcnt := t.xcnt, env := t.env, host := t.host }

/-- R123, R235: a host write operation with a bad parameter reports ParameterOutOfRange and touches
neither the bus nor anything of the block but STATUS and RESV; when a parameter could not be parsed,
not even those. That the report names the cause is log entry 30. -/
def Obligations.BadParametersTouchNoBus : Prop :=
  ∀ (i : Instr) (s : State), (∃ kp ∈ checkedParams i, ¬ ParamGood kp) →
    ∃ t, exec i s = .next t ∧ t.host.reports = s.host.reports ++ [.failure .parameterOutOfRange] ∧
      t = { s with status := t.status, resv := t.resv, host := t.host } ∧
      t.host.pending = s.host.pending ∧
      ((∃ kp ∈ checkedParams i, kp.2 = .malformed) → SameBlock s t)

/-- R248, R232: host operation 25 sets the answer-timeout and reports it, or reports
ParameterOutOfRange (a cause in a report: log entry 30) and leaves it. -/
def Obligations.HostTimeoutOperation : Prop :=
  ∀ (s : State) (n : Nat),
    (1 ≤ n ∧ n ≤ 255 → exec (.op25 (.num n)) s =
      .next (report (.success [("applied timeout", n)]) { succeededWith n s with ansTo := BitVec.ofNat 8 n })) ∧
    (n = 0 → exec (.op25 (.num n)) s = .next (report (.failure .parameterOutOfRange) (failedWith 1 s))) ∧
    (255 < n → exec (.op25 (.num n)) s = .next (report (.failure .parameterOutOfRange) s)) ∧
    exec (.op25 .malformed) s = .next (report (.failure .parameterOutOfRange) s)

/-- R247, R271: host operations 21 to 24 are refused by name; operation 20 resets the block when
REBOOT_RESETS says so (log entry 15) and is refused otherwise. -/
def Obligations.OperationsOutsideTheBlockAreRefused : Prop :=
  ∀ (s : State) (tz : HostParam),
    exec (.op21 tz) s = .refused (.outsideBlock .reconfigureNetwork) ∧
    exec .op22 s = .refused (.outsideBlock .readStatisticsBasic) ∧
    exec .op23 s = .refused (.outsideBlock .readStatisticsFull) ∧
    exec .op24 s = .refused (.outsideBlock .resetStatistics) ∧
    (s.cfg.rebootResets = false → exec .op20 s = .refused (.outsideBlock .rebootGateway)) ∧
    (s.cfg.rebootResets = true → exec .op20 s =
      .next { State.resetWith s.cfg s.env s.host.pending with host := s.host })

/-- R249: a host operation that ends reports exactly one outcome: success only with STATUS a success,
and a failure with the cause the block keeps in STATUS, unless a parameter is malformed or above 255 and the
host itself turned it away as ParameterOutOfRange (log entry 16). That the report carries the cause is
log entry 30. A block command reports none. -/
def Obligations.HostOperationsReportOnce : Prop :=
  ∀ (i : Instr) (s t : State), exec i s = .next t → t.host.pending = s.host.pending ∧
    (isCommand i = true → t.host = s.host) ∧
    (isCommand i = false → i ≠ .op20 → ∃ rep, t.host.reports = s.host.reports ++ [rep] ∧
      ((∃ fields, rep = .success fields ∧ t.status = 0x01) ∨
        ∃ c, rep = .failure c ∧ (t.status = BitVec.ofNat 8 (2 * c.code) ∨
          c = .parameterOutOfRange ∧ ∃ p ∈ hostParams i, Unpresentable p)))

/-! ## Whole-machine rules -/

/-- R24: a block command that ends leaves STATUS a success with CAUSE = NONE, or a failure with one of the
causes 1 to 8 (and then RESV = 0, R262); after reset STATUS is 0x00. -/
def Obligations.CommandsReportOneOutcome : Prop :=
  (∀ (i : Instr) (s t : State), isCommand i = true → exec i s = .next t →
    t.status = 0x01 ∨ ∃ code, 1 ≤ code ∧ code ≤ 8 ∧ t.status = BitVec.ofNat 8 (2 * code) ∧ t.resv = false) ∧
  ∀ cfg env pending, (State.resetWith cfg env pending).status = 0x00

/-- R28, R30, R31, R32, R27, R26, R25, R23: which commands write which register. -/
def Obligations.RegistersHaveTheirWriters : Prop :=
  ∀ (i : Instr) (s t : State), exec i s = .next t → runsExchanges i = false → i ≠ .op20 →
    (t.tx = s.tx ∨ i = .crcgen ∨ (∃ a b c, i = .encrd a b c) ∨ ∃ a b c d, i = .encwr a b c d) ∧
    (t.rx = s.rx ∧ t.rxlen = s.rxlen ∨ i = .await ∨ i = .recv) ∧
    (t.ansTo = s.ansTo ∨ (∃ v, i = .setto v) ∨ ∃ v, i = .op25 v) ∧
    (t.bt = s.bt ∨ i = .await ∨ i = .xmit ∨ i = .recv ∨ i = .fvalid ∨ i = .dack ∨ (∃ a b c, i = .encrd a b c) ∨
      ∃ a b c d, i = .encwr a b c d) ∧
    t.rc = s.rc ∧
    (t.tTx = s.tTx ∧ t.xcnt = s.xcnt ∨ i = .xmit) ∧
    (t.env = s.env ∨ i = .await ∨ i = .xmit ∨ i = .recv) ∧
    t.fault = s.fault ∧ t.refusal = s.refusal

/-- R6, R66: what the block was built with never changes. -/
def Obligations.ParametersNeverChange : Prop := ∀ s t : State, step s = .next t → t.cfg = s.cfg

/-- R27: only SETTO, host operation 25, and a reset write ANS_TO. -/
def Obligations.OnlySettoChangesTheTimeout : Prop :=
  ∀ s t : State, step s = .next t → t.ansTo ≠ s.ansTo →
    (∃ v, nextInstr s = some (.setto v)) ∨ (∃ v, nextInstr s = some (.op25 v)) ∨ nextInstr s = some .op20 ∨
      nextIsReset s

/-- R175, R61: the send log only grows, and only XMIT and the commands that run it make it grow. -/
def Obligations.OnlyTransmissionsReachTheBus : Prop :=
  ∀ s t : State, step s = .next t → s.env.sent <+: t.env.sent ∧
    (t.env.sent ≠ s.env.sent → ∃ i, nextInstr s = some i ∧
      (runsExchanges i = true ∨ i = .xmit ∧ s.bt = .transmitting))

/-- R26, R24, R28, R175, R192: the invariant holds after reset. -/
def Obligations.ResetMeetsTheInvariant : Prop :=
  (∀ cfg env pending, Inv (State.resetWith cfg env pending)) ∧ Inv State.reset

/-- R26, R24, R28, R175, R192: every step keeps the invariant: the buffers keep their form and bounds, the
registers legal values, and BT_STATE = TRANSMITTING means that a poll of this controller is what was
captured last. -/
def Obligations.StepKeepsTheInvariant : Prop := ∀ s t : State, Inv s → step s = .next t → Inv t

/-- R102, R104, R149, R192: in a state that meets the invariant an instruction meets an unwritten byte only
where CRCGEN or XMIT reads a frame that was never built. -/
def Obligations.InvariantRulesOutUnwrittenReads : Prop :=
  ∀ (i : Instr) (s : State) (buffer : Buffer) (k : Nat), Inv s → exec i s = .fault (.unwrittenRead buffer k) →
    buffer = .tx ∧ k = 0 ∧ s.tx = [] ∧ (i = .crcgen ∨ i = .xmit)

end
end

