-- ==== Sys2Proof/Laws/State.lean ====
section
/-! SUPPORT. One lemma per field per named update of State, true by rfl, so that no later proof
unfolds an update. -/

namespace Sys2Proof.Machine

variable (s : State) (v : Int) (c : Cause) (f : Fault) (r : Refusal) (rep : Report) (idle : Nat)
  (rest : List Input)

@[simp] theorem succeed_cause : (succeed s).cause = none := rfl
@[simp] theorem succeedWith_cause : (succeedWith v s).cause = none := rfl
@[simp] theorem fail_cause : (fail c s).cause = some c := rfl

@[simp] theorem succeed_cfg : (succeed s).state.cfg = s.cfg := rfl
@[simp] theorem succeed_tx : (succeed s).state.tx = s.tx := rfl
@[simp] theorem succeed_rx : (succeed s).state.rx = s.rx := rfl
@[simp] theorem succeed_rxlen : (succeed s).state.rxlen = s.rxlen := rfl
@[simp] theorem succeed_status : (succeed s).state.status = statusOk := rfl
@[simp] theorem succeed_ansTo : (succeed s).state.ansTo = s.ansTo := rfl
@[simp] theorem succeed_bt : (succeed s).state.bt = s.bt := rfl
@[simp] theorem succeed_res : (succeed s).state.res = s.res := rfl
@[simp] theorem succeed_resv : (succeed s).state.resv = s.resv := rfl
@[simp] theorem succeed_rc : (succeed s).state.rc = s.rc := rfl
@[simp] theorem succeed_tTx : (succeed s).state.tTx = s.tTx := rfl
@[simp] theorem succeed_xcnt : (succeed s).state.xcnt = s.xcnt := rfl
@[simp] theorem succeed_fault : (succeed s).state.fault = s.fault := rfl
@[simp] theorem succeed_refusal : (succeed s).state.refusal = s.refusal := rfl
@[simp] theorem succeed_env : (succeed s).state.env = s.env := rfl
@[simp] theorem succeed_host : (succeed s).state.host = s.host := rfl

@[simp] theorem succeedWith_cfg : (succeedWith v s).state.cfg = s.cfg := rfl
@[simp] theorem succeedWith_tx : (succeedWith v s).state.tx = s.tx := rfl
@[simp] theorem succeedWith_rx : (succeedWith v s).state.rx = s.rx := rfl
@[simp] theorem succeedWith_rxlen : (succeedWith v s).state.rxlen = s.rxlen := rfl
@[simp] theorem succeedWith_status : (succeedWith v s).state.status = statusOk := rfl
@[simp] theorem succeedWith_ansTo : (succeedWith v s).state.ansTo = s.ansTo := rfl
@[simp] theorem succeedWith_bt : (succeedWith v s).state.bt = s.bt := rfl
@[simp] theorem succeedWith_res : (succeedWith v s).state.res = v := rfl
@[simp] theorem succeedWith_resv : (succeedWith v s).state.resv = true := rfl
@[simp] theorem succeedWith_rc : (succeedWith v s).state.rc = s.rc := rfl
@[simp] theorem succeedWith_tTx : (succeedWith v s).state.tTx = s.tTx := rfl
@[simp] theorem succeedWith_xcnt : (succeedWith v s).state.xcnt = s.xcnt := rfl
@[simp] theorem succeedWith_fault : (succeedWith v s).state.fault = s.fault := rfl
@[simp] theorem succeedWith_refusal : (succeedWith v s).state.refusal = s.refusal := rfl
@[simp] theorem succeedWith_env : (succeedWith v s).state.env = s.env := rfl
@[simp] theorem succeedWith_host : (succeedWith v s).state.host = s.host := rfl

@[simp] theorem fail_cfg : (fail c s).state.cfg = s.cfg := rfl
@[simp] theorem fail_tx : (fail c s).state.tx = s.tx := rfl
@[simp] theorem fail_rx : (fail c s).state.rx = s.rx := rfl
@[simp] theorem fail_rxlen : (fail c s).state.rxlen = s.rxlen := rfl
@[simp] theorem fail_status : (fail c s).state.status = statusFail c := rfl
@[simp] theorem fail_ansTo : (fail c s).state.ansTo = s.ansTo := rfl
@[simp] theorem fail_bt : (fail c s).state.bt = s.bt := rfl
@[simp] theorem fail_res : (fail c s).state.res = s.res := rfl
@[simp] theorem fail_resv : (fail c s).state.resv = false := rfl
@[simp] theorem fail_rc : (fail c s).state.rc = s.rc := rfl
@[simp] theorem fail_tTx : (fail c s).state.tTx = s.tTx := rfl
@[simp] theorem fail_xcnt : (fail c s).state.xcnt = s.xcnt := rfl
@[simp] theorem fail_fault : (fail c s).state.fault = s.fault := rfl
@[simp] theorem fail_refusal : (fail c s).state.refusal = s.refusal := rfl
@[simp] theorem fail_env : (fail c s).state.env = s.env := rfl
@[simp] theorem fail_host : (fail c s).state.host = s.host := rfl

@[simp] theorem recordRefusal_cfg : (recordRefusal r s).cfg = s.cfg := rfl
@[simp] theorem recordRefusal_tx : (recordRefusal r s).tx = s.tx := rfl
@[simp] theorem recordRefusal_rx : (recordRefusal r s).rx = s.rx := rfl
@[simp] theorem recordRefusal_rxlen : (recordRefusal r s).rxlen = s.rxlen := rfl
@[simp] theorem recordRefusal_status : (recordRefusal r s).status = s.status := rfl
@[simp] theorem recordRefusal_ansTo : (recordRefusal r s).ansTo = s.ansTo := rfl
@[simp] theorem recordRefusal_bt : (recordRefusal r s).bt = s.bt := rfl
@[simp] theorem recordRefusal_res : (recordRefusal r s).res = s.res := rfl
@[simp] theorem recordRefusal_resv : (recordRefusal r s).resv = s.resv := rfl
@[simp] theorem recordRefusal_rc : (recordRefusal r s).rc = s.rc := rfl
@[simp] theorem recordRefusal_tTx : (recordRefusal r s).tTx = s.tTx := rfl
@[simp] theorem recordRefusal_xcnt : (recordRefusal r s).xcnt = s.xcnt := rfl
@[simp] theorem recordRefusal_fault : (recordRefusal r s).fault = s.fault := rfl
@[simp] theorem recordRefusal_refusal : (recordRefusal r s).refusal = some r := rfl
@[simp] theorem recordRefusal_env : (recordRefusal r s).env = s.env := rfl
@[simp] theorem recordRefusal_host : (recordRefusal r s).host = s.host := rfl

@[simp] theorem recordFault_cfg : (recordFault f s).cfg = s.cfg := rfl
@[simp] theorem recordFault_tx : (recordFault f s).tx = s.tx := rfl
@[simp] theorem recordFault_rx : (recordFault f s).rx = s.rx := rfl
@[simp] theorem recordFault_rxlen : (recordFault f s).rxlen = s.rxlen := rfl
@[simp] theorem recordFault_status : (recordFault f s).status = s.status := rfl
@[simp] theorem recordFault_ansTo : (recordFault f s).ansTo = s.ansTo := rfl
@[simp] theorem recordFault_bt : (recordFault f s).bt = s.bt := rfl
@[simp] theorem recordFault_res : (recordFault f s).res = s.res := rfl
@[simp] theorem recordFault_resv : (recordFault f s).resv = s.resv := rfl
@[simp] theorem recordFault_rc : (recordFault f s).rc = s.rc := rfl
@[simp] theorem recordFault_tTx : (recordFault f s).tTx = s.tTx := rfl
@[simp] theorem recordFault_xcnt : (recordFault f s).xcnt = s.xcnt := rfl
@[simp] theorem recordFault_fault : (recordFault f s).fault = if f ∈ s.fault then s.fault else s.fault ++ [f] := rfl
@[simp] theorem recordFault_refusal : (recordFault f s).refusal = s.refusal := rfl
@[simp] theorem recordFault_env : (recordFault f s).env = s.env := rfl
@[simp] theorem recordFault_host : (recordFault f s).host = s.host := rfl

@[simp] theorem report_cfg : (report rep s).cfg = s.cfg := rfl
@[simp] theorem report_tx : (report rep s).tx = s.tx := rfl
@[simp] theorem report_rx : (report rep s).rx = s.rx := rfl
@[simp] theorem report_rxlen : (report rep s).rxlen = s.rxlen := rfl
@[simp] theorem report_status : (report rep s).status = s.status := rfl
@[simp] theorem report_ansTo : (report rep s).ansTo = s.ansTo := rfl
@[simp] theorem report_bt : (report rep s).bt = s.bt := rfl
@[simp] theorem report_res : (report rep s).res = s.res := rfl
@[simp] theorem report_resv : (report rep s).resv = s.resv := rfl
@[simp] theorem report_rc : (report rep s).rc = s.rc := rfl
@[simp] theorem report_tTx : (report rep s).tTx = s.tTx := rfl
@[simp] theorem report_xcnt : (report rep s).xcnt = s.xcnt := rfl
@[simp] theorem report_fault : (report rep s).fault = s.fault := rfl
@[simp] theorem report_refusal : (report rep s).refusal = s.refusal := rfl
@[simp] theorem report_env : (report rep s).env = s.env := rfl
@[simp] theorem report_host : (report rep s).host = { s.host with reports := s.host.reports ++ [rep] } := rfl

@[simp] theorem takeInput_cfg : (takeInput idle rest s).cfg = s.cfg := rfl
@[simp] theorem takeInput_tx : (takeInput idle rest s).tx = s.tx := rfl
@[simp] theorem takeInput_rx : (takeInput idle rest s).rx = s.rx := rfl
@[simp] theorem takeInput_rxlen : (takeInput idle rest s).rxlen = s.rxlen := rfl
@[simp] theorem takeInput_status : (takeInput idle rest s).status = s.status := rfl
@[simp] theorem takeInput_ansTo : (takeInput idle rest s).ansTo = s.ansTo := rfl
@[simp] theorem takeInput_bt : (takeInput idle rest s).bt = s.bt := rfl
@[simp] theorem takeInput_res : (takeInput idle rest s).res = s.res := rfl
@[simp] theorem takeInput_resv : (takeInput idle rest s).resv = s.resv := rfl
@[simp] theorem takeInput_rc : (takeInput idle rest s).rc = s.rc := rfl
@[simp] theorem takeInput_tTx : (takeInput idle rest s).tTx = s.tTx := rfl
@[simp] theorem takeInput_xcnt : (takeInput idle rest s).xcnt = s.xcnt := rfl
@[simp] theorem takeInput_fault : (takeInput idle rest s).fault = s.fault := rfl
@[simp] theorem takeInput_refusal : (takeInput idle rest s).refusal = s.refusal := rfl
@[simp] theorem takeInput_env : (takeInput idle rest s).env = s.env.idle idle := rfl
@[simp] theorem takeInput_host : (takeInput idle rest s).host = { s.host with pending := rest } := rfl

@[simp] theorem resetBlock_cfg : s.resetBlock.cfg = s.cfg := rfl
@[simp] theorem resetBlock_tx : s.resetBlock.tx = [] := rfl
@[simp] theorem resetBlock_rx : s.resetBlock.rx = [] := rfl
@[simp] theorem resetBlock_rxlen : s.resetBlock.rxlen = 0 := rfl
@[simp] theorem resetBlock_status : s.resetBlock.status = 0 := rfl
@[simp] theorem resetBlock_ansTo : s.resetBlock.ansTo = s.cfg.ansToReset := rfl
@[simp] theorem resetBlock_bt : s.resetBlock.bt = .idle := rfl
@[simp] theorem resetBlock_res : s.resetBlock.res = 0 := rfl
@[simp] theorem resetBlock_resv : s.resetBlock.resv = false := rfl
@[simp] theorem resetBlock_rc : s.resetBlock.rc = 0 := rfl
@[simp] theorem resetBlock_tTx : s.resetBlock.tTx = 0 := rfl
@[simp] theorem resetBlock_xcnt : s.resetBlock.xcnt = 0 := rfl
@[simp] theorem resetBlock_fault : s.resetBlock.fault = [] := rfl
@[simp] theorem resetBlock_refusal : s.resetBlock.refusal = none := rfl
@[simp] theorem resetBlock_env : s.resetBlock.env = s.env := rfl
@[simp] theorem resetBlock_host : s.resetBlock.host = s.host := rfl

end Sys2Proof.Machine
end

