-- ==== Sys2Proof/Laws/Memory.lean ====
section
/-! SUPPORT. The laws of the buffers: a read after a write, the canonical form kept by every write,
and what a run of reads answers. -/

namespace Sys2Proof.Machine

@[simp] theorem Memory.read_nil (a : Nat) : Memory.read [] a = none := rfl

/-- A read gives the value of the most recent write, and a write leaves every other index alone. -/
theorem Memory.read_write (m : Memory) (a i : Nat) (b : Byte) :
    (m.write a b).read i = if i = a then some b else m.read i := by
  induction m with
  | nil =>
    by_cases h : i = a
    · simp [Memory.write, Memory.read, h]
    · simp [Memory.write, Memory.read, Memory.unlisted, h, Ne.symm h]
  | cons c cs ih =>
    simp only [Memory.write]
    split
    · by_cases h : i = a
      · simp [Memory.read, h]
      · simp [Memory.read, h, Ne.symm h]
    · split
      · rename_i h1 h2
        by_cases h : i = a
        · simp [Memory.read, h]
        · have h3 : ¬ c.1 = i := by omega
          simp [Memory.read, h, Ne.symm h, h3]
      · rename_i h1 h2
        by_cases h : i = a
        · subst h
          have h3 : ¬ c.1 = i := by omega
          simp [Memory.read, h3, ih]
        · simp [Memory.read, ih, h]

@[simp] theorem Memory.read_write_same (m : Memory) (a : Nat) (b : Byte) : (m.write a b).read a = some b := by
  simp [Memory.read_write]

theorem Memory.read_write_other (m : Memory) {a i : Nat} (b : Byte) (h : i ≠ a) :
    (m.write a b).read i = m.read i := by
  simp [Memory.read_write, h]

/-- A write keeps the canonical form above any bound that lies below the index written. -/
theorem Memory.write_rises (m : Memory) (low a : Nat) (b : Byte) (hm : m.risesFrom low = true) (ha : low ≤ a) :
    (m.write a b).risesFrom low = true := by
  induction m generalizing low with
  | nil => simp [Memory.write, Memory.risesFrom, ha]
  | cons c cs ih =>
    simp only [Memory.risesFrom, Bool.and_eq_true, decide_eq_true_eq] at hm
    simp only [Memory.write]
    split
    · simp only [Memory.risesFrom, Bool.and_eq_true, decide_eq_true_eq]
      exact ⟨ha, by omega, hm.2⟩
    · split
      · rename_i h1 h2
        subst h2
        simp [Memory.risesFrom, hm]
      · simp only [Memory.risesFrom, Bool.and_eq_true, decide_eq_true_eq]
        exact ⟨hm.1, ih _ hm.2 (by omega)⟩

/-- A write keeps the canonical form. -/
theorem Memory.write_wf (m : Memory) (a : Nat) (b : Byte) (hm : m.wf = true) : (m.write a b).wf = true :=
  m.write_rises 0 a b hm (Nat.zero_le a)

/-- A write below `size` keeps a buffer within `size`. -/
theorem Memory.write_within (m : Memory) (size a : Nat) (b : Byte) (hm : m.within size = true) (ha : a < size) :
    (m.write a b).within size = true := by
  induction m with
  | nil => simp [Memory.write, Memory.within, ha]
  | cons c cs ih =>
    simp only [Memory.within, List.all_cons, Bool.and_eq_true, decide_eq_true_eq] at hm ih ⊢
    simp only [Memory.write]
    split
    · simp [ha, hm]
    · split
      · simp [ha, hm]
      · simp only [List.all_cons, Bool.and_eq_true, decide_eq_true_eq]
        exact ⟨hm.1, ih hm.2⟩

/-- Consecutive writes: inside the run the new bytes, outside it the old ones. -/
theorem Memory.read_writeFrom (bs : List Byte) (m : Memory) (a i : Nat) :
    (m.writeFrom a bs).read i = if a ≤ i ∧ i < a + bs.length then bs[i - a]? else m.read i := by
  induction bs generalizing m a with
  | nil =>
    have h : ¬ (a ≤ i ∧ i < a + 0) := by omega
    simp [Memory.writeFrom]
  | cons b bs ih =>
    simp only [Memory.writeFrom, ih, Memory.read_write, List.length_cons]
    by_cases h : i = a
    · subst h; simp
    · by_cases h1 : a ≤ i ∧ i < a + (bs.length + 1)
      · have h2 : a + 1 ≤ i ∧ i < a + 1 + bs.length := by omega
        have h3 : i - a = (i - (a + 1)) + 1 := by omega
        simp [h1, h2, h3]
      · have h2 : ¬ (a + 1 ≤ i ∧ i < a + 1 + bs.length) := by omega
        rw [if_neg h2, if_neg h1, if_neg h]

theorem Memory.writeFrom_wf (bs : List Byte) (m : Memory) (a : Nat) (hm : m.wf = true) :
    (m.writeFrom a bs).wf = true := by
  induction bs generalizing m a with
  | nil => exact hm
  | cons b bs ih => exact ih _ _ (m.write_wf a b hm)

theorem Memory.writeFrom_within (bs : List Byte) (m : Memory) (size a : Nat) (hm : m.within size = true)
    (ha : a + bs.length ≤ size) : (m.writeFrom a bs).within size = true := by
  induction bs generalizing m a with
  | nil => exact hm
  | cons b bs ih =>
    simp only [List.length_cons] at ha
    exact ih _ _ (m.write_within size a b hm (by omega)) (by omega)

/-- A byte outside the bound of a buffer is unwritten. -/
theorem Memory.read_eq_none_of_within (m : Memory) (size i : Nat) (hm : m.within size = true) (hi : size ≤ i) :
    m.read i = none := by
  induction m with
  | nil => rfl
  | cons c cs ih =>
    simp only [Memory.within, List.all_cons, Bool.and_eq_true, decide_eq_true_eq] at hm ih
    have : ¬ c.1 = i := by omega
    simp [Memory.read, this, ih hm.2]

/-! ## Runs of reads -/

theorem readByte_of_read {buf : Buffer} {m : Memory} {i : Nat} {b : Byte} (h : m.read i = some b) :
    readByte buf m i = .ok b := by
  simp [readByte, h]

theorem readByte_of_unwritten {buf : Buffer} {m : Memory} {i : Nat} (h : m.read i = none) :
    readByte buf m i = .error (.unwrittenRead buf i) := by
  simp [readByte, h]

/-- A run of reads answers the bytes the buffer holds there. -/
theorem readBytes_of_reads {buf : Buffer} {m : Memory} (bs : List Byte) (a : Nat)
    (h : ∀ i < bs.length, m.read (a + i) = bs[i]?) : readBytes buf m a bs.length = .ok bs := by
  induction bs generalizing a with
  | nil => rfl
  | cons b bs ih =>
    have h0 := h 0 (by simp)
    have h1 := ih (a + 1) fun i hi => by
      have := h (i + 1) (by simpa using hi)
      simpa [Nat.add_assoc, Nat.add_comm 1] using this
    simp at h0
    simp [readBytes, readByte_of_read h0, h1]

/-- When a run of reads answers bytes, the buffer holds them. -/
theorem reads_of_readBytes {buf : Buffer} {m : Memory} {n a : Nat} {bs : List Byte}
    (h : readBytes buf m a n = .ok bs) : bs.length = n ∧ ∀ i < n, m.read (a + i) = bs[i]? := by
  induction n generalizing a bs with
  | zero => simp [readBytes] at h; subst h; simp
  | succ n ih =>
    simp only [readBytes] at h
    split at h
    · cases h
    · rename_i b hb
      split at h
      · cases h
      · rename_i cs hcs
        cases h
        obtain ⟨hl, hr⟩ := ih hcs
        have hb' : m.read a = some b := by
          simp only [readByte] at hb
          split at hb
          · cases hb; assumption
          · cases hb
        refine ⟨by simp [hl], fun i hi => ?_⟩
        cases i with
        | zero => simpa using hb'
        | succ i =>
          have := hr i (by omega)
          simpa [Nat.add_assoc, Nat.add_comm 1] using this

/-- A run of reads of written bytes does not fault. -/
theorem readBytes_ok_of_written {buf : Buffer} {m : Memory} (n a : Nat)
    (h : ∀ i < n, (m.read (a + i)).isSome = true) : ∃ bs, readBytes buf m a n = .ok bs := by
  induction n generalizing a with
  | zero => exact ⟨[], rfl⟩
  | succ n ih =>
    obtain ⟨b, hb⟩ := Option.isSome_iff_exists.1 (h 0 (by omega))
    obtain ⟨bs, hbs⟩ := ih (a + 1) fun i hi => by
      have := h (i + 1) (by omega)
      simpa [Nat.add_assoc, Nat.add_comm 1] using this
    simp at hb
    exact ⟨b :: bs, by simp [readBytes, readByte_of_read hb, hbs]⟩

/-- A run of reads faults at the first unwritten byte. -/
theorem readBytes_fault {buf : Buffer} {m : Memory} (n a k : Nat) (hk : k < n)
    (hw : ∀ i < k, (m.read (a + i)).isSome = true) (hu : m.read (a + k) = none) :
    readBytes buf m a n = .error (.unwrittenRead buf (a + k)) := by
  induction n generalizing a k with
  | zero => omega
  | succ n ih =>
    cases k with
    | zero => simp at hu; simp [readBytes, readByte_of_unwritten hu]
    | succ k =>
      obtain ⟨b, hb⟩ := Option.isSome_iff_exists.1 (hw 0 (by omega))
      simp at hb
      have := ih (a + 1) k (by omega)
        (fun i hi => by
          have := hw (i + 1) (by omega)
          simpa [Nat.add_assoc, Nat.add_comm 1] using this)
        (by simpa [Nat.add_assoc, Nat.add_comm 1] using hu)
      simp [readBytes, readByte_of_read hb, this, Nat.add_assoc, Nat.add_comm 1]

end Sys2Proof.Machine
end

