-- ==== Sys2Proof/Laws/Commands.lean ====
section
/-! SUPPORT. One lemma for each shared operation of the checksum unit, the encoder and the field decoder:
what it answers when the bytes it reads are written, and when it faults or fails. -/

namespace Sys2Proof.Machine

/-! ## How a sequence goes on -/

@[simp] theorem thenRun_error (f : Fault) (k : State → Except Fault Ended) : thenRun (.error f) k = .error f := rfl

@[simp] theorem thenRun_done (s : State) (k : State → Except Fault Ended) : thenRun (.ok ⟨none, s⟩) k = k s := rfl

@[simp] theorem thenRun_failed (c : Cause) (s : State) (k : State → Except Fault Ended) :
    thenRun (.ok ⟨some c, s⟩) k = .ok ⟨some c, s⟩ := rfl

/-- A sequence ends well or badly in its first part, or in its second (R221). -/
theorem thenRun_cases {r : Except Fault Ended} {k : State → Except Fault Ended} {e : Ended}
    (h : thenRun r k = .ok e) :
    (∃ s, r = .ok ⟨none, s⟩ ∧ k s = .ok e) ∨ (∃ c, e.cause = some c ∧ r = .ok e) := by
  unfold thenRun at h
  split at h
  · cases h
  · exact .inl ⟨_, rfl, h⟩
  · cases h; exact .inr ⟨_, rfl, rfl⟩

/-- A sequence faults in its first part, or in its second. -/
theorem thenRun_faults {r : Except Fault Ended} {k : State → Except Fault Ended} {f : Fault}
    (h : thenRun r k = .error f) : r = .error f ∨ ∃ s, r = .ok ⟨none, s⟩ ∧ k s = .error f := by
  unfold thenRun at h
  split at h
  · cases h; exact .inl rfl
  · exact .inr ⟨_, rfl, h⟩
  · cases h

theorem outcome_next {r : Except Fault Ended} {t : State} (h : outcome r = .next t) :
    ∃ c, r = .ok ⟨c, t⟩ := by
  unfold outcome at h
  split at h
  · rename_i e; cases h; exact ⟨e.cause, rfl⟩
  · cases h

theorem outcome_fault {r : Except Fault Ended} {f : Fault} (h : outcome r = .fault f) : r = .error f := by
  unfold outcome at h
  split at h
  · cases h
  · cases h; rfl

theorem outcome_not_refused (r : Except Fault Ended) (x : Refusal) : outcome r ≠ .refused x := by
  unfold outcome
  split <;> simp

/-! ## Checksum unit -/

/-- The checksum of written bytes (R101). -/
theorem crcOf_of_reads {carry : Bool} {buf : Buffer} {m : Memory} {n : Nat} (bs : List Byte) (hl : bs.length = n - 2)
    (h : ∀ i < bs.length, m.read i = bs[i]?) : crcOf carry buf m n = .ok (crcBytes carry bs) := by
  have := readBytes_of_reads (buf := buf) bs 0 (by simpa using h)
  rw [hl] at this
  simp [crcOf, this]

/-- The verdict on a captured frame of at least two bytes (R103). -/
theorem frameMatches_of_frame {s : State} (bs : List Byte) (hl : s.rxlen = bs.length) (h2 : 2 ≤ bs.length)
    (h : ∀ i < bs.length, s.rx.read i = bs[i]?) :
    frameMatches s = .ok (decide (some (crcBytes s.cfg.crcCarryIn (bs.take (bs.length - 2))) = bs[bs.length - 2]?)) := by
  have hc : crcOf s.cfg.crcCarryIn .rx s.rx s.rxlen = .ok (crcBytes s.cfg.crcCarryIn (bs.take (bs.length - 2))) := by
    apply crcOf_of_reads
    · simp [hl]
    · intro i hi
      simp at hi
      rw [h i (by omega), List.getElem?_take]
      simp [show i < bs.length - 2 by omega]
  have hb : bs[bs.length - 2]? = some (bs[bs.length - 2]'(by omega)) := by simp
  have hr : readByte .rx s.rx (s.rxlen - 2) = .ok (bs[bs.length - 2]'(by omega)) :=
    readByte_of_read (by rw [hl, h _ (by omega), hb])
  simp only [frameMatches, hc, hr, hb]
  congr 1
  by_cases he : crcBytes s.cfg.crcCarryIn (bs.take (bs.length - 2)) = bs[bs.length - 2]'(by omega) <;> simp [he]

/-- A capture that is written gives a verdict (R103: no UnwrittenRead). -/
theorem frameMatches_ok {s : State} (h2 : 2 ≤ s.rxlen) (h : ∀ i < s.rxlen, (s.rx.read i).isSome = true) :
    ∃ r, frameMatches s = .ok r := by
  obtain ⟨bs, hbs⟩ := readBytes_ok_of_written (buf := .rx) (m := s.rx) (s.rxlen - 2) 0
    fun i hi => by simpa using h i (by omega)
  obtain ⟨b, hb⟩ := Option.isSome_iff_exists.1 (h (s.rxlen - 2) (by omega))
  simp only [frameMatches, crcOf, hbs, readByte_of_read hb]
  exact ⟨_, rfl⟩

theorem markValidated_eq (s : State) :
    markValidated s = { s with bt := if s.bt = .replyCaptured then .validated else s.bt } := by
  unfold markValidated
  split <;> simp_all

/-! ## Encoder -/

/-- What ENCRD and ENCWR leave in TX: seven bytes, and nothing beyond them changed (R120, R121). -/
theorem buildFrame_read (dest type off payload : Byte) (s : State) (i : Nat) :
    (buildFrame dest type off payload s).tx.read i =
      if i < 7 then
        (header s.cfg dest type off payload ++
          [crcBytes s.cfg.crcCarryIn (header s.cfg dest type off payload), 0x00])[i]?
      else s.tx.read i := by
  simp [buildFrame, Memory.read_writeFrom, header]

theorem buildFrame_frame (dest type off payload : Byte) (s : State) :
    buildFrame dest type off payload s =
      { s with tx := (buildFrame dest type off payload s).tx, bt := .idle } := rfl

theorem encrd_legal {dest : Byte} (type len : Byte) (s : State) (h : dest.toNat ≤ 0x7F) :
    encrd dest type len s = succeed (buildFrame (readDest dest) type 0x00 len s) := by
  simp [encrd, addressLegal, h]

theorem encrd_wide {dest : Byte} (type len : Byte) (s : State) (h : 0x7F < dest.toNat) :
    encrd dest type len s = fail .illegalCommand s := by
  have : ¬ dest.toNat ≤ 0x7F := by omega
  simp [encrd, addressLegal, this]

theorem encwr_legal {dest : Byte} (type woff val : Byte) (s : State) (h : dest.toNat ≤ 0x7F) :
    encwr dest type woff val s = succeed (buildFrame dest type woff val s) := by
  simp [encwr, addressLegal, h]

theorem encwr_wide {dest : Byte} (type woff val : Byte) (s : State) (h : 0x7F < dest.toNat) :
    encwr dest type woff val s = fail .illegalCommand s := by
  have : ¬ dest.toNat ≤ 0x7F := by omega
  simp [encwr, addressLegal, this]

/-- PCHK of a class ends with or without the cause, and touches nothing else (R122). -/
theorem pchkClass_cases (k : ParamKind) (v : Byte) (s : State) :
    pchkClass k v s = succeed s ∧ paramLegal k v = true ∨
      pchkClass k v s = fail .parameterOutOfRange s ∧ paramLegal k v = false := by
  unfold pchkClass
  cases paramLegal k v <;> simp

/-! ## Field decoder -/

/-- A field inside the data region whose bytes are written (R141). -/
theorem readField_of_reads {off width : Nat} {s : State} (bs : List Byte) (hw : bs.length = width)
    (hin : off + width + 2 ≤ s.rxlen) (h : ∀ i < bs.length, s.rx.read (off + i) = bs[i]?) :
    readField off width s = .ok bs := by
  subst hw
  simp [readField, inDataRegion, hin, readBytes_of_reads (buf := .rx) bs off h]

/-- A field that reaches beyond the data region (R141). -/
theorem readField_outside {off width : Nat} {s : State} (h : s.rxlen < off + width + 2) :
    readField off width s = .error (.fieldOutsideFrame off width s.rxlen) := by
  have : ¬ off + width + 2 ≤ s.rxlen := by omega
  simp [readField, inDataRegion, this]

/-- When a field reads, it lies in the data region and the buffer holds it. -/
theorem readField_ok {off width : Nat} {s : State} {bs : List Byte} (h : readField off width s = .ok bs) :
    off + width + 2 ≤ s.rxlen ∧ bs.length = width ∧ ∀ i < width, s.rx.read (off + i) = bs[i]? := by
  unfold readField at h
  split at h
  · rename_i hin
    exact ⟨by simpa [inDataRegion] using hin, reads_of_readBytes h⟩
  · cases h

/-- A written field does not fault for want of a value. -/
theorem readField_fault {off width : Nat} {s : State} {f : Fault} (hw : ∀ i < s.rxlen, (s.rx.read i).isSome = true)
    (h : readField off width s = .error f) : f = .fieldOutsideFrame off width s.rxlen := by
  unfold readField at h
  split at h
  · rename_i hin
    simp only [inDataRegion, decide_eq_true_eq] at hin
    obtain ⟨bs, hbs⟩ := readBytes_ok_of_written (buf := .rx) (m := s.rx) width off fun i hi => hw _ (by omega)
    rw [hbs] at h
    cases h
  · cases h; rfl

theorem decodeField_of_reads {off width : Nat} {value : List Byte → Int} {s : State} (bs : List Byte)
    (hw : bs.length = width) (hin : off + width + 2 ≤ s.rxlen) (h : ∀ i < bs.length, s.rx.read (off + i) = bs[i]?) :
    decodeField off width value s = .ok (succeedWith (value bs) s) := by
  simp [decodeField, readField_of_reads bs hw hin h]

theorem decodeField_outside {off width : Nat} {value : List Byte → Int} {s : State} (h : s.rxlen < off + width + 2) :
    decodeField off width value s = .error (.fieldOutsideFrame off width s.rxlen) := by
  simp [decodeField, readField_outside h]

/-- A decode that ends, ends with success and a result, and changes nothing else (R140). -/
theorem decodeField_ok {off width : Nat} {value : List Byte → Int} {s : State} {e : Ended}
    (h : decodeField off width value s = .ok e) : ∃ v, e = succeedWith v s := by
  unfold decodeField at h
  split at h
  · cases h
  · cases h; exact ⟨_, rfl⟩

theorem decodeField_fault {off width : Nat} {value : List Byte → Int} {s : State} {f : Fault}
    (hw : ∀ i < s.rxlen, (s.rx.read i).isSome = true) (h : decodeField off width value s = .error f) :
    f = .fieldOutsideFrame off width s.rxlen := by
  unfold decodeField at h
  split at h
  · rename_i f' hf
    cases h
    exact readField_fault hw hf
  · cases h

/-- DFIELD decodes, or faults outside the frame; it never fails (R89). -/
theorem dfield_ok {fs : FieldSpec} {s : State} {e : Ended} (h : dfield fs s = .ok e) : ∃ v, e = succeedWith v s := by
  have hb := fs.bit.isLt
  have hm : fs.bit.val % 256 ≤ 7 := by omega
  unfold dfield at h
  split at h <;> simp [du8, du16, dhalf, dflag, du24, hm] at h <;> exact decodeField_ok h

theorem dfield_fault {fs : FieldSpec} {s : State} {f : Fault} (hw : ∀ i < s.rxlen, (s.rx.read i).isSome = true)
    (h : dfield fs s = .error f) : ∃ off width, f = .fieldOutsideFrame off width s.rxlen := by
  have hb := fs.bit.isLt
  have hm : fs.bit.val % 256 ≤ 7 := by omega
  unfold dfield at h
  split at h <;> simp [du8, du16, dhalf, dflag, du24, hm] at h <;> exact ⟨_, _, decodeField_fault hw h⟩

end Sys2Proof.Machine
end

