-- ==== Sys2Proof/Laws/Encoding.lean ====
section
/-! SUPPORT. The fields of a command word: each field of a word put together from five bytes is its
byte, and a word is put together from its own fields (R80). -/

namespace Sys2Proof

section

variable (op a b c d : Byte)

/-- A command word as a number. -/
theorem commandWord_toNat : (commandWord op a b c d).toNat =
    (((op.toNat * 256 + a.toNat) * 256 + b.toNat) * 256 + c.toNat) * 256 + d.toNat := by
  have step (x y : Nat) (h : y < 256) : x <<< 8 ||| y = x * 256 + y := by
    rw [← Nat.shiftLeft_add_eq_or_of_lt (i := 8) h, Nat.shiftLeft_eq]
  unfold commandWord
  simp only [BitVec.toNat_append, step _ _ a.isLt, step _ _ b.isLt, step _ _ c.isLt, step _ _ d.isLt]

/-- A field as a number. -/
theorem extract_toNat (w : CommandWord) (k : Nat) : (w.extractLsb' k 8).toNat = w.toNat / 2 ^ k % 256 := by
  simp [BitVec.extractLsb'_toNat, Nat.shiftRight_eq_div_pow]

@[simp] theorem opField_commandWord : opField (commandWord op a b c d) = op := by
  have := op.isLt; have := a.isLt; have := b.isLt; have := c.isLt; have := d.isLt
  apply BitVec.eq_of_toNat_eq
  rw [opField, extract_toNat, commandWord_toNat]
  omega

@[simp] theorem aField_commandWord : aField (commandWord op a b c d) = a := by
  have := op.isLt; have := a.isLt; have := b.isLt; have := c.isLt; have := d.isLt
  apply BitVec.eq_of_toNat_eq
  rw [aField, extract_toNat, commandWord_toNat]
  omega

@[simp] theorem bField_commandWord : bField (commandWord op a b c d) = b := by
  have := op.isLt; have := a.isLt; have := b.isLt; have := c.isLt; have := d.isLt
  apply BitVec.eq_of_toNat_eq
  rw [bField, extract_toNat, commandWord_toNat]
  omega

@[simp] theorem cField_commandWord : cField (commandWord op a b c d) = c := by
  have := op.isLt; have := a.isLt; have := b.isLt; have := c.isLt; have := d.isLt
  apply BitVec.eq_of_toNat_eq
  rw [cField, extract_toNat, commandWord_toNat]
  omega

@[simp] theorem dField_commandWord : dField (commandWord op a b c d) = d := by
  have := op.isLt; have := a.isLt; have := b.isLt; have := c.isLt; have := d.isLt
  apply BitVec.eq_of_toNat_eq
  rw [dField, extract_toNat, commandWord_toNat]
  omega

end

/-- A word is put together from its own fields. -/
theorem commandWord_fields (w : CommandWord) :
    commandWord (opField w) (aField w) (bField w) (cField w) (dField w) = w := by
  have h := w.isLt
  apply BitVec.eq_of_toNat_eq
  simp only [commandWord_toNat, opField, aField, bField, cField, dField, extract_toNat]
  omega

/-- Decoding a word put together from five bytes reads those bytes. -/
theorem decodeCommand_commandWord (op a b c d : Byte) :
    decodeCommand (commandWord op a b c d) = decodeFields op a b c d := by
  simp only [decodeCommand, opField_commandWord, aField_commandWord, bField_commandWord, cField_commandWord,
    dField_commandWord]

/-- When `accept` answers an instruction, it is the one it was given, its reserved operands are zero
and it is well formed. -/
theorem accept_ok {mnemonic : String} {reserved : List Byte} {i j : Instr} (h : accept mnemonic reserved i = .ok j) :
    j = i ∧ i.wellFormed = true ∧ ∀ r ∈ reserved, r = 0 := by
  unfold accept at h
  split at h
  · rename_i hr
    split at h
    · rename_i hw
      cases h
      exact ⟨rfl, hw, by simpa using hr⟩
    · cases h
  · cases h

/-- What `accept` admits. -/
theorem accept_of {mnemonic : String} {reserved : List Byte} {i : Instr} (hr : ∀ r ∈ reserved, r = 0)
    (hw : i.wellFormed = true) : accept mnemonic reserved i = .ok i := by
  have : reserved.all (· == 0) = true := by simpa using hr
  unfold accept
  rw [if_pos this, if_pos hw]

end Sys2Proof
end

