-- ==== Sys2Proof/Laws/Env.lean ====
section
/-! SUPPORT. The laws of the clock and the link: what each primitive leaves alone, and what it does
with a script. -/

namespace Sys2Proof.Machine

namespace EnvLaws

variable (e : Env)

@[simp] theorem now_arrivals : e.now.arrivals = e.arrivals := by
  unfold Env.now Env.nextTime; split <;> rfl
@[simp] theorem now_linkDraws : e.now.linkDraws = e.linkDraws := by
  unfold Env.now Env.nextTime; split <;> rfl
@[simp] theorem now_sent : e.now.sent = e.sent := by
  unfold Env.now Env.nextTime; split <;> rfl
@[simp] theorem now_clock : e.now.clock = e.clock + BitVec.ofNat 32 e.readAdvance := rfl
theorem now_times : e.now.times = e.times.tail := by
  unfold Env.now Env.nextTime; split <;> simp_all

@[simp] theorem wait_arrivals (t : Nat) : (e.wait t).arrivals = e.arrivals := by
  unfold Env.wait Env.nextTime; split <;> rfl
@[simp] theorem wait_linkDraws (t : Nat) : (e.wait t).linkDraws = e.linkDraws := by
  unfold Env.wait Env.nextTime; split <;> rfl
@[simp] theorem wait_sent (t : Nat) : (e.wait t).sent = e.sent := by
  unfold Env.wait Env.nextTime; split <;> rfl

theorem waitMs_of_lt {t : Nat} (h : t < 2 ^ 32) : e.waitMs t = .ok (e.wait t) := if_pos h
theorem waitMs_of_ge {t : Nat} (h : 2 ^ 32 ≤ t) : e.waitMs t = .error (.stuckInWait t) := if_neg (by omega)

@[simp] theorem send_arrivals (i : SentItem) : (e.send i).arrivals = e.arrivals := rfl
@[simp] theorem send_linkDraws (i : SentItem) : (e.send i).linkDraws = e.linkDraws := rfl
@[simp] theorem send_times (i : SentItem) : (e.send i).times = e.times := rfl
@[simp] theorem send_clock (i : SentItem) : (e.send i).clock = e.clock := rfl
@[simp] theorem send_sent (i : SentItem) : (e.send i).sent = e.sent ++ [⟨i, e.clock⟩] := rfl

@[simp] theorem flush_arrivals : e.flush.arrivals = e.arrivals := wait_arrivals e 0
@[simp] theorem flush_linkDraws : e.flush.linkDraws = e.linkDraws := wait_linkDraws e 0
@[simp] theorem flush_sent : e.flush.sent = e.sent := wait_sent e 0

@[simp] theorem idle_sent (t : Nat) : (e.idle t).sent = e.sent := rfl

@[simp] theorem poll_sent : e.poll.2.sent = e.sent := by unfold Env.poll; split <;> rfl
@[simp] theorem poll_clock : e.poll.2.clock = e.clock := by unfold Env.poll; split <;> rfl
@[simp] theorem poll_times : e.poll.2.times = e.times := by unfold Env.poll; split <;> rfl
@[simp] theorem poll_timeDraws : e.poll.2.timeDraws = e.timeDraws := by unfold Env.poll; split <;> rfl

theorem avail_cases : e.avail = (true, e) ∨ e.avail = (false, e.poll.2) := by
  unfold Env.avail
  split
  · rename_i e' h; exact .inr (by simp [h])
  · exact .inl rfl

@[simp] theorem avail_sent : e.avail.2.sent = e.sent := by
  obtain h | h := avail_cases e <;> simp [h]
@[simp] theorem avail_clock : e.avail.2.clock = e.clock := by
  obtain h | h := avail_cases e <;> simp [h]
@[simp] theorem avail_times : e.avail.2.times = e.times := by
  obtain h | h := avail_cases e <;> simp [h]

theorem expired_cases {start : ClockWord} {dur : Nat} {e e' : Env} {b : Bool} (h : e.expired start dur = (b, e')) :
    e' = e.now ∧ b = elapsedAtLeast start e.now.clock dur := by
  unfold Env.expired at h
  exact ⟨(congrArg Prod.snd h).symm, (congrArg Prod.fst h).symm⟩

/-! ## With a script -/

theorem now_of_script {t : Nat} {ts : List Nat} (h : e.times = t :: ts) :
    e.now = { e with times := ts, clock := e.clock + BitVec.ofNat 32 (t % 2 ^ 31) } := by
  simp [Env.now, Env.nextTime, Env.readAdvance, h]

theorem poll_of_script {a : LinkEvent} {as : List LinkEvent} (h : e.arrivals = a :: as) :
    e.poll = (a, { e with arrivals := as }) := by
  simp [Env.poll, h]

/-- Every read of the clock moves it by less than `2^31` ms (R64). -/
theorem readAdvance_lt : e.readAdvance < 2 ^ 31 := by
  unfold Env.readAdvance
  split
  · exact Nat.mod_lt _ (by decide)
  · have := Nat.mod_lt (Config.freeTime e.timeDraws) (show 0 < 2 ^ 30 by decide)
    omega

end EnvLaws

/-! ## Elapsed time (R190) -/

/-- The elapsed time after a further advance, while it stays below `2^32`. -/
theorem elapsed_add (start clock : ClockWord) (d : Nat) (h : (clock - start).toNat + d < 2 ^ 32) :
    (clock + BitVec.ofNat 32 d - start).toNat = (clock - start).toNat + d := by
  have h1 : clock + BitVec.ofNat 32 d - start = (clock - start) + BitVec.ofNat 32 d := by
    simp only [BitVec.sub_eq_add_neg]
    ac_rfl
  rw [h1, BitVec.toNat_add, BitVec.toNat_ofNat, Nat.mod_eq_of_lt (show d < 2 ^ 32 by omega),
    Nat.mod_eq_of_lt h]

@[simp] theorem elapsed_self (c : ClockWord) : (c - c).toNat = 0 := by simp

end Sys2Proof.Machine
end

