-- ==== Sys2Proof/Laws/Transport.lean ====
section
/-! SUPPORT. What a capture, AWAIT, XMIT and RECV can do: one lemma for each, which says everything
the later proofs need. -/

namespace Sys2Proof.Machine

/-- What a capture does to the state, whatever the link and the clock answer (R170). -/
structure Captured (s t : State) : Prop where
  frame : t = { s with rx := t.rx, rxlen := t.rxlen, env := t.env }
  sent : t.env.sent = s.env.sent
  bound : t.rxlen ≤ s.cfg.rxMax
  written : ∀ i < t.rxlen, (t.rx.read i).isSome = true
  kept : ∀ i, t.rxlen ≤ i → t.rx.read i = s.rx.read i
  form : s.rx.wf = true → t.rx.wf = true
  within : s.rx.within s.cfg.rxMax = true → t.rx.within s.cfg.rxMax = true

theorem Captured.trans {s t r : State} (h1 : Captured s t) (h2 : Captured t r) (hle : t.rxlen ≤ r.rxlen) :
    Captured s r where
  frame := by
    have e1 := h1.frame
    have e2 := h2.frame
    rw [e1] at e2
    exact e2
  sent := h2.sent.trans h1.sent
  bound := by
    have e1 := h1.frame
    have := h2.bound
    rw [e1] at this
    exact this
  written := h2.written
  kept := fun i hi => (h2.kept i hi).trans (h1.kept i (by omega))
  form := fun h => h2.form (h1.form h)
  within := fun h => by
    have e1 := h1.frame
    have := h2.within (by rw [e1]; exact h1.within h)
    rw [e1] at this
    exact this

/-- Storing one unit after `n` written ones. -/
theorem captured_store (n : Nat) (b : Byte) (e : Env) (s : State) (hn : n + 1 ≤ s.cfg.rxMax)
    (hw : ∀ i < n, (s.rx.read i).isSome = true) (he : e.sent = s.env.sent) :
    Captured s { s with rx := s.rx.write n b, rxlen := n + 1, env := e } where
  frame := rfl
  sent := he
  bound := hn
  written := by
    intro i hi
    simp only [] at hi ⊢
    by_cases h : i = n
    · simp [h]
    · rw [Memory.read_write_other _ _ h]
      exact hw i (by omega)
  kept := by
    intro i hi
    simp only [] at hi ⊢
    exact Memory.read_write_other _ b (by omega)
  form := s.rx.write_wf n b
  within := fun h => s.rx.write_within _ n b h (by omega)

/-- What the drain of a capture does: it stores at least the unit it is given, and in POLL mode two
units at most (R170). -/
theorem captureDrain_captured (mode : CaptureMode) (room n : Nat) (u : LinkUnit) (s : State)
    (hr : n + 1 + room ≤ s.cfg.rxMax) (hw : ∀ i < n, (s.rx.read i).isSome = true) :
    Captured s (captureDrain mode room n u s) ∧ n + 1 ≤ (captureDrain mode room n u s).rxlen ∧
      (mode = .poll → n ≤ 1 → (captureDrain mode room n u s).rxlen ≤ 2) := by
  induction room generalizing n u s with
  | zero =>
    have base := captured_store n u.byte s.env s (by omega) hw rfl
    unfold captureDrain
    split
    · exact ⟨base, by simp, fun _ _ => by simp; omega⟩
    · split
      · exact ⟨base, by simp, fun _ _ => by simp; omega⟩
      · exact ⟨base, by simp, fun _ _ => by simp; omega⟩
  | succ room ih =>
    have base := captured_store n u.byte s.env s (by omega) hw rfl
    unfold captureDrain
    split
    · exact ⟨base, by simp, fun _ _ => by simp; omega⟩
    · split
      · exact ⟨base, by simp, fun _ _ => by simp; omega⟩
      · rename_i hp
        have hs := EnvLaws.poll_sent s.env
        simp only
        split
        · rename_i e he
          rw [he] at hs
          exact ⟨captured_store n u.byte e s (by omega) hw hs, by simp, fun _ _ => by simp; omega⟩
        · rename_i v e he
          rw [he] at hs
          have b' := captured_store n u.byte e s (by omega) hw hs
          obtain ⟨c, h1, h2⟩ := ih (n + 1) v _ (show n + 1 + 1 + room ≤ _ by simp; omega) b'.written
          refine ⟨b'.trans c (by simp only []; omega), by omega, fun hm hn => ?_⟩
          have : ¬ n + 1 = 2 := fun h => hp ⟨hm, h⟩
          exact h2 hm (by omega)

/-- What a capture does while it waits and after (R170): in POLL mode two units at most. -/
theorem captureIdle_captured (mode : CaptureMode) (start : ClockWord) (dur fuel : Nat) (s : State) :
    Captured s (captureIdle mode start dur fuel s) ∧
      (mode = .poll → (captureIdle mode start dur fuel s).rxlen ≤ 2) := by
  induction fuel generalizing s with
  | zero =>
    exact ⟨⟨rfl, rfl, Nat.zero_le _, fun i hi => absurd hi (Nat.not_lt_zero i), fun _ _ => rfl, id, id⟩,
      fun _ => Nat.zero_le _⟩
  | succ fuel ih =>
    simp only [captureIdle]
    have empty : ∀ e : Env, e.sent = s.env.sent → Captured s { s with env := e, rxlen := 0 } := fun e he =>
      ⟨rfl, he, Nat.zero_le _, fun i hi => absurd hi (Nat.not_lt_zero i), fun _ _ => rfl, id, id⟩
    have onward : ∀ e : Env, e.sent = s.env.sent →
        Captured s (captureIdle mode start dur fuel { s with env := e }) := fun e he => by
      have c := (ih { s with env := e }).1
      exact ⟨c.frame, c.sent.trans he, c.bound, c.written, c.kept, c.form, c.within⟩
    have hs : s.env.now.poll.2.sent = s.env.sent := by simp
    split
    · rename_i e he
      obtain ⟨rfl, -⟩ := EnvLaws.expired_cases he
      exact ⟨empty _ (by simp), fun _ => Nat.zero_le _⟩
    · rename_i e he
      obtain ⟨rfl, -⟩ := EnvLaws.expired_cases he
      split
      · rename_i e he
        rw [he] at hs
        exact ⟨onward e hs, fun hm => (ih _).2 hm⟩
      · rename_i u e he
        rw [he] at hs
        split
        · exact ⟨onward e hs, fun hm => (ih _).2 hm⟩
        · obtain ⟨c, -, h2⟩ := captureDrain_captured mode (s.cfg.rxMax - 1) 0 u { s with env := e }
            (by have := s.cfg.rxMax_ge; simp only []; omega) (fun i hi => absurd hi (Nat.not_lt_zero i))
          exact ⟨⟨c.frame, c.sent.trans hs, c.bound, c.written, c.kept, c.form, c.within⟩,
            fun hm => h2 hm (Nat.zero_le _)⟩

theorem capture_captured (mode : CaptureMode) (start : ClockWord) (dur : Nat) (s : State) :
    Captured s (capture mode start dur s) ∧ (mode = .poll → (capture mode start dur s).rxlen ≤ 2) :=
  captureIdle_captured mode start dur _ s

/-! ## AWAIT -/

/-- How AWAIT ends (R172): with this controller's poll captured, or with PollTimeout; and what it
leaves alone. -/
structure Awaited (s : State) (r : Ended) : Prop where
  frame : r.state = { s with
    rx := r.state.rx, rxlen := r.state.rxlen, env := r.state.env, bt := r.state.bt,
    status := r.state.status, resv := r.state.resv }
  sent : r.state.env.sent = s.env.sent
  short : r.state.rxlen ≤ 2
  written : ∀ i < r.state.rxlen, (r.state.rx.read i).isSome = true
  kept : ∀ i, 2 ≤ i → r.state.rx.read i = s.rx.read i
  form : s.rx.wf = true → r.state.rx.wf = true
  within : s.rx.within s.cfg.rxMax = true → r.state.rx.within s.cfg.rxMax = true
  ends : (r.cause = none ∧ r.state.bt = .transmitting ∧ pollMatches r.state = true ∧ r.state.status = statusOk ∧
      r.state.resv = s.resv) ∨
    (r.cause = some .pollTimeout ∧ r.state.bt = .idle ∧ r.state.status = statusFail .pollTimeout ∧
      r.state.resv = false)

theorem pollMatches_congr {s t : State} (h1 : t.rxlen = s.rxlen) (h2 : t.rx = s.rx) (h3 : t.cfg = s.cfg) :
    pollMatches t = pollMatches s := by
  simp [pollMatches, h1, h2, h3]

theorem awaitLoop_awaited (start : ClockWord) (dur fuel : Nat) (s : State)
    (h0 : fuel = 0 → s.rxlen ≤ 2 ∧ ∀ i < s.rxlen, (s.rx.read i).isSome = true) : Awaited s (awaitLoop start dur fuel s) := by
  induction fuel generalizing s with
  | zero => exact ⟨rfl, rfl, (h0 rfl).1, (h0 rfl).2, fun _ _ => rfl, id, id, .inr ⟨rfl, rfl, rfl, rfl⟩⟩
  | succ fuel ih =>
    obtain ⟨c, h2⟩ := capture_captured .poll start dur s
    have h2 := h2 rfl
    have fr := c.frame
    have kept : ∀ i, 2 ≤ i → (capture .poll start dur s).rx.read i = s.rx.read i :=
      fun i hi => c.kept i (by omega)
    simp only [awaitLoop]
    split
    · rename_i hm
      refine ⟨?_, c.sent, h2, c.written, kept, c.form, c.within, .inl ⟨rfl, rfl, hm, rfl, ?_⟩⟩
      · rw [fr]; rfl
      · rw [fr]; rfl
    · split
      · rename_i e he
        obtain ⟨rfl, -⟩ := EnvLaws.expired_cases he
        refine ⟨?_, by simp [fail, c.sent], h2, c.written, kept, c.form, c.within, .inr ⟨rfl, rfl, rfl, rfl⟩⟩
        rw [fr]; rfl
      · rename_i e he
        obtain ⟨rfl, -⟩ := EnvLaws.expired_cases he
        have a := ih { capture .poll start dur s with env := (capture .poll start dur s).env.now }
          fun _ => ⟨h2, c.written⟩
        refine ⟨?_, ?_, a.short, a.written, ?_, ?_, ?_, ?_⟩
        · have := a.frame
          rw [this, fr]
        · have := a.sent
          simp only [EnvLaws.now_sent] at this
          exact this.trans c.sent
        · exact fun i hi => (a.kept i hi).trans (kept i hi)
        · exact fun h => a.form (c.form h)
        · intro h
          have hc : (capture .poll start dur s).cfg = s.cfg := by rw [fr]
          have h1 := a.within ((congrArg (fun p : Params => Memory.within p.rxMax _) hc).trans (c.within h))
          exact (congrArg (fun p : Params => Memory.within p.rxMax _) hc).symm.trans h1
        · have hr : (capture .poll start dur s).resv = s.resv := by rw [fr]
          obtain ⟨h1, h2, h3, h4, h5⟩ | h := a.ends
          · exact .inl ⟨h1, h2, h3, h4, h5.trans hr⟩
          · exact .inr h

theorem awaitTurn_awaited (s : State) : Awaited s (awaitTurn s) := by
  have a := awaitLoop_awaited s.env.now.clock s.cfg.pollTo (waitFuel s.cfg.pollTo s.env.now)
    { s with env := s.env.now, bt := .waitingForPoll } (fun h => by simp [waitFuel] at h)
  exact ⟨a.frame, a.sent.trans (by simp), a.short, a.written, a.kept, a.form, a.within, a.ends⟩

/-! ## RECV -/

/-- How RECV ends in AWAITING_REPLY (R195): with at least one captured unit, or with ReplyTimeout;
and what it leaves alone. -/
structure Received (s : State) (r : Ended) : Prop where
  frame : r.state = { s with
    rx := r.state.rx, rxlen := r.state.rxlen, env := r.state.env, bt := r.state.bt,
    status := r.state.status, res := r.state.res, resv := r.state.resv }
  sent : r.state.env.sent = s.env.sent
  bound : r.state.rxlen ≤ s.cfg.rxMax
  written : ∀ i < r.state.rxlen, (r.state.rx.read i).isSome = true
  kept : ∀ i, r.state.rxlen ≤ i → r.state.rx.read i = s.rx.read i
  form : s.rx.wf = true → r.state.rx.wf = true
  within : s.rx.within s.cfg.rxMax = true → r.state.rx.within s.cfg.rxMax = true
  ends : (r.cause = none ∧ r.state.bt = .replyCaptured ∧ 1 ≤ r.state.rxlen ∧ r.state.res = r.state.rxlen ∧
      r.state.status = statusOk ∧ r.state.resv = true) ∨
    (r.cause = some .replyTimeout ∧ r.state.bt = .timedOut ∧ r.state.rxlen = 0 ∧
      r.state.status = statusFail .replyTimeout ∧ r.state.resv = false ∧ r.state.res = s.res)

theorem recvTimeout_received (s : State) (e : Env) (he : e.sent = s.env.sent) :
    Received s (recvTimeout { s with env := e }) :=
  ⟨rfl, he, Nat.zero_le _, fun i hi => absurd hi (Nat.not_lt_zero i), fun _ _ => rfl, id, id,
    .inr ⟨rfl, rfl, rfl, rfl, rfl, rfl⟩⟩

theorem recvCapture_received (start : ClockWord) (dur : Nat) (s : State) (e : Env) (he : e.sent = s.env.sent) :
    Received s (recvCapture start dur { s with env := e }) := by
  have c := (capture_captured .frame start dur { s with env := e }).1
  have fr := c.frame
  unfold recvCapture
  simp only
  split
  · rename_i h0
    have kept := c.kept
    rw [h0] at kept
    refine ⟨?_, c.sent.trans he, Nat.zero_le _, fun i hi => absurd hi (Nat.not_lt_zero i), kept, c.form, c.within,
      .inr ⟨rfl, rfl, rfl, rfl, rfl, ?_⟩⟩
    · rw [fr]; rfl
    · rw [fr]; rfl
  · rename_i h0
    refine ⟨?_, c.sent.trans he, c.bound, c.written, c.kept, c.form, c.within,
      .inl ⟨rfl, rfl, Nat.pos_of_ne_zero h0, rfl, rfl, rfl⟩⟩
    rw [fr]; rfl

theorem recvLoop_received (start : ClockWord) (dur fuel : Nat) (s : State) (e : Env) (he : e.sent = s.env.sent) :
    Received s (recvLoop start dur fuel { s with env := e }) := by
  induction fuel generalizing e with
  | zero => exact recvTimeout_received s e he
  | succ fuel ih =>
    simp only [recvLoop]
    split
    · rename_i e' h
      obtain ⟨rfl, -⟩ := EnvLaws.expired_cases h
      exact recvTimeout_received s _ (by simp [he])
    · rename_i e' h
      obtain ⟨rfl, -⟩ := EnvLaws.expired_cases h
      have hs : e.now.avail.2.sent = s.env.sent := by simp [he]
      split
      · rename_i e2 h2
        rw [h2] at hs
        exact recvCapture_received start dur s e2 hs
      · rename_i e2 h2
        rw [h2] at hs
        exact ih e2 hs

theorem recv_received (s : State) (h : s.bt = .awaitingReply) : Received s (recv s) := by
  simp only [recv, h, ↓reduceIte]
  exact recvLoop_received _ _ _ s s.env rfl

theorem recv_interlock (s : State) (h : s.bt ≠ .awaitingReply) : recv s = fail .illegalCommand s := by
  simp [recv, h]

/-! ## XMIT -/

/-- The items a send of these bytes appends to the log, one stamp each, and the pacing between them. -/
structure SentPaced (gap : Nat) (bs : List Byte) (e e' : Env) (stamps : List ClockWord) : Prop where
  length : stamps.length = bs.length
  sent : e'.sent = e.sent ++ List.zipWith (fun b c => ⟨.data b, c⟩) bs stamps
  arrivals : e'.arrivals = e.arrivals
  linkDraws : e'.linkDraws = e.linkDraws
  first : (stamps ++ [e'.clock])[0]? = some e.clock
  paced : ∀ i < bs.length, ∀ a b, (stamps ++ [e'.clock])[i]? = some a → (stamps ++ [e'.clock])[i + 1]? = some b →
    gap ≤ (b - a).toNat

theorem wait_gap (t : Nat) (e : Env) (ht : t < 2 ^ 32) : t ≤ ((e.wait t).clock - e.clock).toNat := by
  have h : ∀ d : Nat, d < 2 ^ 32 → (e.clock + BitVec.ofNat 32 d - e.clock).toNat = d := by
    intro d hd
    have := elapsed_add e.clock e.clock d (by simpa using hd)
    simpa using this
  have hm : max t (e.nextTime.1 % 2 ^ 32) < 2 ^ 32 := by
    have := Nat.mod_lt e.nextTime.1 (show 0 < 2 ^ 32 by decide)
    omega
  show t ≤ (e.clock + BitVec.ofNat 32 (max t (e.nextTime.1 % 2 ^ 32)) - e.clock).toNat
  rw [h _ hm]
  exact Nat.le_max_left _ _

theorem sendBytes_paced (gap : Nat) (hg : gap < 2 ^ 32) (tx : Memory) (bs : List Byte) (a : Nat) (e : Env)
    (h : ∀ i < bs.length, tx.read (a + i) = bs[i]?) :
    ∃ e' stamps, sendBytes gap tx (List.range' a bs.length) e = .ok e' ∧ SentPaced gap bs e e' stamps := by
  induction bs generalizing a e with
  | nil => exact ⟨e, [], rfl, ⟨rfl, by simp, rfl, rfl, by simp, fun i hi => absurd hi (Nat.not_lt_zero i)⟩⟩
  | cons b bs ih =>
    have h0 : tx.read a = some b := by simpa using h 0 (by simp)
    obtain ⟨e', stamps, h1, p⟩ := ih (a + 1) ((e.send (.data b)).wait gap) fun i hi => by
      have := h (i + 1) (by simpa using hi)
      simpa [Nat.add_assoc, Nat.add_comm 1] using this
    refine ⟨e', e.clock :: stamps, ?_, ⟨by simp [p.length], ?_, ?_, ?_, by simp, ?_⟩⟩
    · simp only [List.length_cons, List.range'_succ, sendBytes, readByte_of_read h0, EnvLaws.waitMs_of_lt _ hg]
      exact h1
    · rw [p.sent]; simp
    · rw [p.arrivals]; simp
    · rw [p.linkDraws]; simp
    · intro i hi x y hx hy
      cases i with
      | zero =>
        have hf := p.first
        simp only [List.cons_append, List.getElem?_cons_zero, Option.some.injEq, Nat.zero_add,
          List.getElem?_cons_succ] at hx hy
        rw [hf] at hy
        cases hy
        subst hx
        exact wait_gap gap (e.send (.data b)) hg
      | succ i =>
        simp only [List.cons_append, List.getElem?_cons_succ] at hx hy
        exact p.paced i (by simpa using hi) x y hx hy

end Sys2Proof.Machine
end

