-- ==== Sys2Proof/Laws/Ends.lean ====
section
/-! SUPPORT. How every block command ends (R24, R262): its cause and STATUS agree, and a failure clears
RESV. One lemma per command, and one for the sequences. -/

namespace Sys2Proof.Machine

/-- The cause and the registers of an end agree. -/
def Ended.Sound (e : Ended) : Prop :=
  match e.cause with
  | none => e.state.status = statusOk
  | some c => e.state.status = statusFail c ∧ e.state.resv = false

/-- Whatever `r` ends in is sound. -/
def EndsSound (r : Except Fault Ended) : Prop := ∀ e, r = .ok e → e.Sound

@[simp] theorem succeed_sound (s : State) : (succeed s).Sound := rfl
@[simp] theorem succeedWith_sound (v : Int) (s : State) : (succeedWith v s).Sound := rfl
@[simp] theorem fail_sound (c : Cause) (s : State) : (fail c s).Sound := ⟨rfl, rfl⟩

theorem EndsSound.ok {e : Ended} (h : e.Sound) : EndsSound (.ok e) := fun _ he => by cases he; exact h

theorem EndsSound.error (f : Fault) : EndsSound (.error f) := fun _ he => by cases he

/-- STATUS tells success from failure. -/
theorem Ended.Sound.okBit {e : Ended} (h : e.Sound) : statusOkBit e.state.status = e.cause.isNone := by
  unfold Ended.Sound at h
  split at h <;> rename_i hc
  · rw [h, hc]; rfl
  · rw [h.1, hc]
    rename_i c
    cases c <;> rfl

theorem Ended.Sound.causeCode {e : Ended} (h : e.Sound) :
    statusCause e.state.status = (e.cause.map Cause.code).getD 0 := by
  unfold Ended.Sound at h
  split at h <;> rename_i hc
  · rw [h, hc]; rfl
  · rw [h.1, hc]
    rename_i c
    cases c <;> rfl

theorem EndsSound.thenRun {r : Except Fault Ended} {k : State → Except Fault Ended} (hr : EndsSound r)
    (hk : ∀ s, r = .ok ⟨none, s⟩ → EndsSound (k s)) : EndsSound (thenRun r k) := by
  intro e he
  obtain ⟨s, hs, hks⟩ | ⟨c, -, hc⟩ := thenRun_cases he
  · exact hk s hs e hks
  · exact hr e hc

/-! ## The commands -/

theorem crcgen_sound (s : State) : EndsSound (crcgen s) := by
  unfold crcgen
  split
  · exact .error _
  · exact .ok (succeedWith_sound _ _)

theorem crcchk_sound (s : State) : EndsSound (crcchk s) := by
  unfold crcchk
  split
  · exact .ok (succeedWith_sound _ _)
  · split
    · exact .error _
    · exact .ok (succeedWith_sound _ _)

theorem fvalid_sound (s : State) : EndsSound (fvalid s) := by
  unfold fvalid
  split
  · exact .ok (fail_sound _ _)
  · split
    · exact .error _
    · exact .ok (fail_sound _ _)
    · exact .ok (succeedWith_sound _ _)

theorem encrd_sound (dest type len : Byte) (s : State) : (encrd dest type len s).Sound := by
  unfold encrd
  split
  · exact succeed_sound _
  · exact fail_sound _ _

theorem encwr_sound (dest type woff val : Byte) (s : State) : (encwr dest type woff val s).Sound := by
  unfold encwr
  split
  · exact succeed_sound _
  · exact fail_sound _ _

theorem pchk_sound (kind value : Byte) (s : State) : (pchk kind value s).Sound := by
  unfold pchk
  split
  · rename_i k _
    obtain ⟨h, -⟩ | ⟨h, -⟩ := pchkClass_cases k value s
    · rw [h]; exact succeed_sound _
    · rw [h]; exact fail_sound _ _
  · exact fail_sound _ _

theorem decodeField_sound (off width : Nat) (value : List Byte → Int) (s : State) :
    EndsSound (decodeField off width value s) := fun e he => by
  obtain ⟨v, rfl⟩ := decodeField_ok he
  exact succeedWith_sound _ _

theorem du16_sound (off sgn : Byte) (s : State) : EndsSound (du16 off sgn s) := by
  unfold du16
  split
  · exact decodeField_sound _ _ _ s
  · exact .ok (fail_sound _ _)

theorem dflag_sound (off bit : Byte) (s : State) : EndsSound (dflag off bit s) := by
  unfold dflag
  split
  · exact decodeField_sound _ _ _ s
  · exact .ok (fail_sound _ _)

theorem tchk_sound (type : Byte) (s : State) : EndsSound (tchk type s) := by
  unfold tchk
  split
  · exact .error _
  · split
    · exact .ok (succeed_sound _)
    · exact .ok (fail_sound _ _)

theorem dack_sound (s : State) : EndsSound (dack s) := by
  unfold dack
  split
  · exact .ok (fail_sound _ _)
  · split
    · exact .error _
    · split
      · exact .ok (succeed_sound _)
      · exact .ok (fail_sound _ _)

theorem dfield_sound (fs : FieldSpec) (s : State) : EndsSound (dfield fs s) := fun e he => by
  obtain ⟨v, rfl⟩ := dfield_ok he
  exact succeedWith_sound _ _

theorem awaitTurn_sound (s : State) : (awaitTurn s).Sound := by
  obtain ⟨hc, -, -, hs, -⟩ | ⟨hc, -, hs, hr⟩ := (awaitTurn_awaited s).ends <;> simp [Ended.Sound, *]

theorem xmit_sound (s : State) : EndsSound (xmit s) := by
  unfold xmit
  split
  · split
    · exact .error _
    · exact .ok (succeed_sound _)
  · exact .ok (fail_sound _ _)

theorem recv_sound (s : State) : (recv s).Sound := by
  by_cases h : s.bt = .awaitingReply
  · obtain ⟨hc, -, -, -, hs, -⟩ | ⟨hc, -, -, hs, hr, -⟩ := (recv_received s h).ends <;>
      simp [Ended.Sound, *]
  · rw [recv_interlock s h]
    exact fail_sound _ _

theorem setto_sound (value : Byte) (s : State) : (setto value s).Sound := by
  unfold setto
  split
  · exact succeedWith_sound _ _
  · exact fail_sound _ _

theorem readExchange_sound (r : ReadDesc) (s : State) : EndsSound (readExchange r s) :=
  .thenRun (.ok (encrd_sound _ _ _ _)) fun _ _ =>
  .thenRun (.ok (awaitTurn_sound _)) fun _ _ =>
  .thenRun (xmit_sound _) fun _ _ =>
  .thenRun (.ok (recv_sound _)) fun _ _ =>
  .thenRun (fvalid_sound _) fun _ _ =>
  .thenRun (tchk_sound _ _) fun _ _ => .ok (succeedWith_sound _ _)

theorem writeExchange_sound (w : WriteDesc) (val : Byte) (s : State) : EndsSound (writeExchange w val s) :=
  .thenRun (.ok (encwr_sound _ _ _ _ _)) fun _ _ =>
  .thenRun (.ok (awaitTurn_sound _)) fun _ _ =>
  .thenRun (xmit_sound _) fun _ _ =>
  .thenRun (.ok (recv_sound _)) fun _ _ =>
  .thenRun (dack_sound _) fun _ _ => .ok (succeedWith_sound _ _)

theorem xread_sound (rd : Byte) (s : State) : EndsSound (xread rd s) := by
  unfold xread
  split
  · exact .error _
  · exact readExchange_sound _ _

theorem xwrite_sound (wd val : Byte) (s : State) : EndsSound (xwrite wd val s) := by
  unfold xwrite
  split
  · exact .error _
  · exact writeExchange_sound _ _ _

theorem confirm_sound (v : VerifyDesc) (s : State) : EndsSound (confirm v s) :=
  .thenRun (xread_sound _ _) fun _ _ => dfield_sound _ _

theorem verifyLoop_sound (wd val : Byte) (v : VerifyDesc) (budget : Nat) (s : State) :
    EndsSound (verifyLoop wd val v budget s) := by
  induction budget generalizing s with
  | zero => exact .ok (fail_sound _ _)
  | succ budget ih =>
    have hw := xwrite_sound wd val { s with rc := budget }
    unfold verifyLoop
    split
    · exact .error _
    · rename_i c t h
      split
      · exact ih t
      · exact .ok (hw _ h)
    · rename_i t h
      have hv := confirm_sound v t
      split
      · exact .error _
      · rename_i c u h'
        exact .ok (hv _ h')
      · split
        · exact .ok rfl
        · split
          · exact .ok (fail_sound _ _)
          · exact ih _

theorem wverify_sound (wd val vd : Byte) (s : State) : EndsSound (wverify wd val vd s) := by
  unfold wverify
  split
  · exact .error _
  · split
    · exact .error _
    · split
      · exact .error _
      · exact verifyLoop_sound _ _ _ _ _

end Sys2Proof.Machine
end

