-- ==== Sys2Proof/Laws/Script.lean ====
section
/-! SUPPORT. What captures, AWAIT, XMIT and RECV do while the clock's draws and the link's answers are
scripted: the forms the statements' premises have. -/

namespace Sys2Proof.Machine

open Sys2Proof.Spec

@[simp] theorem spent_nil : spent [] = 0 := rfl

@[simp] theorem spent_cons (t : Nat) (ts : List Nat) : spent (t :: ts) = t % 2 ^ 31 + spent ts := by simp [spent]

@[simp] theorem spent_append (ts ts' : List Nat) : spent (ts ++ ts') = spent ts + spent ts' := by
  simp [spent]

/-- The environment after `d` milliseconds, with these scripts left. -/
def Env.after (d : Nat) (ts : List Nat) (as : List LinkEvent) (e : Env) : Env :=
  { e with times := ts, arrivals := as, clock := e.clock + BitVec.ofNat 32 d }

@[simp] theorem Env.after_times (d : Nat) (ts : List Nat) (as : List LinkEvent) (e : Env) :
    (e.after d ts as).times = ts := rfl
@[simp] theorem Env.after_arrivals (d : Nat) (ts : List Nat) (as : List LinkEvent) (e : Env) :
    (e.after d ts as).arrivals = as := rfl
@[simp] theorem Env.after_sent (d : Nat) (ts : List Nat) (as : List LinkEvent) (e : Env) :
    (e.after d ts as).sent = e.sent := rfl
@[simp] theorem Env.after_clock (d : Nat) (ts : List Nat) (as : List LinkEvent) (e : Env) :
    (e.after d ts as).clock = e.clock + BitVec.ofNat 32 d := rfl
@[simp] theorem Env.after_linkDraws (d : Nat) (ts : List Nat) (as : List LinkEvent) (e : Env) :
    (e.after d ts as).linkDraws = e.linkDraws := rfl

theorem Env.after_after (d d' : Nat) (ts ts' : List Nat) (as as' : List LinkEvent) (e : Env) :
    (e.after d ts as).after d' ts' as' = e.after (d + d') ts' as' := by
  simp [Env.after, BitVec.ofNat_add, BitVec.add_assoc]

theorem Env.after_self (e : Env) {ts : List Nat} {as : List LinkEvent} (ht : e.times = ts) (ha : e.arrivals = as) :
    e.after 0 ts as = e := by
  subst ht ha
  simp [Env.after]

/-- One scripted clock read. -/
theorem now_after {e : Env} {t : Nat} {ts : List Nat} (h : e.times = t :: ts) :
    e.now = e.after (t % 2 ^ 31) ts e.arrivals := by
  rw [EnvLaws.now_of_script e h]; rfl

/-- One scripted deadline test (R190). -/
theorem expired_after {e : Env} {t : Nat} {ts : List Nat} (start : ClockWord) (dur : Nat) (h : e.times = t :: ts)
    (hw : (e.clock - start).toNat + t % 2 ^ 31 < 2 ^ 32) :
    e.expired start dur =
      (decide (dur ≤ (e.clock - start).toNat + t % 2 ^ 31), e.after (t % 2 ^ 31) ts e.arrivals) := by
  simp only [Env.expired, now_after h, elapsedAtLeast, Env.after_clock, elapsed_add _ _ _ hw]

/-- A capture passes over gaps and idle fillers before its deadline (R170, R171). -/
theorem captureIdle_quiet (mode : CaptureMode) (start : ClockWord) (dur : Nat) (hd : dur ≤ 2 ^ 32)
    (quiet as : List LinkEvent) (ts ts' : List Nat) (fuel : Nat) (s : State)
    (hq : Quiet s.cfg.idleFiller quiet) (ha : s.env.arrivals = quiet ++ as) (ht : s.env.times = ts ++ ts')
    (hl : ts.length = quiet.length) (he : ts = [] ∨ (s.env.clock - start).toNat + spent ts < dur) :
    captureIdle mode start dur (quiet.length + fuel) s =
      captureIdle mode start dur fuel { s with env := s.env.after (spent ts) ts' as } := by
  induction quiet generalizing ts s with
  | nil =>
    simp at hl
    subst hl
    simp only [List.nil_append] at ha ht
    simp [Env.after_self _ ht ha]
  | cons q quiet ih =>
    cases ts with
    | nil => simp at hl
    | cons t ts =>
      simp only [List.length_cons, Nat.add_right_cancel_iff] at hl
      simp only [List.cons_append] at ha ht
      have he : (s.env.clock - start).toNat + (t % 2 ^ 31 + spent ts) < dur := by simpa using he
      have hx := expired_after start dur ht (by omega)
      rw [show decide (dur ≤ (s.env.clock - start).toNat + t % 2 ^ 31) = false from decide_eq_false (by omega)] at hx
      have go := ih ts { s with env := s.env.after (t % 2 ^ 31) (ts ++ ts') (quiet ++ as) }
        (fun e h => hq e (List.mem_cons_of_mem _ h)) rfl rfl hl
        (.inr (by simp only [Env.after_clock]; rw [elapsed_add _ _ _ (by omega)]; omega))
      simp only [Env.after_after] at go
      rw [show (q :: quiet).length + fuel = (quiet.length + fuel) + 1 by simp; omega]
      have hp : (s.env.after (t % 2 ^ 31) (ts ++ ts') s.env.arrivals).poll =
          (q, s.env.after (t % 2 ^ 31) (ts ++ ts') (quiet ++ as)) := EnvLaws.poll_of_script _ ha
      simp only [captureIdle, hx, hp, spent_cons]
      obtain rfl | ⟨fe, rfl⟩ := hq q (List.mem_cons_self ..)
      · exact go
      · simpa using go

/-- A capture that reaches its deadline with nothing stored (R170). -/
theorem captureIdle_expired (mode : CaptureMode) (start : ClockWord) (dur : Nat) (d : Nat) (ts : List Nat) (fuel : Nat)
    (s : State) (ht : s.env.times = d :: ts) (hw : (s.env.clock - start).toNat + d % 2 ^ 31 < 2 ^ 32)
    (he : dur ≤ (s.env.clock - start).toNat + d % 2 ^ 31) :
    captureIdle mode start dur (fuel + 1) s =
      { s with env := s.env.after (d % 2 ^ 31) ts s.env.arrivals, rxlen := 0 } := by
  simp only [captureIdle, expired_after start dur ht hw, he, decide_true]

/-- A capture that finds a unit which is no filler (R170). -/
theorem captureIdle_unit (mode : CaptureMode) (start : ClockWord) (dur : Nat) (u : LinkUnit) (as : List LinkEvent) (t : Nat)
    (ts : List Nat) (fuel : Nat) (s : State) (hu : u.byte ≠ s.cfg.idleFiller)
    (ha : s.env.arrivals = .arrived u :: as) (ht : s.env.times = t :: ts) (hd : dur ≤ 2 ^ 32)
    (he : (s.env.clock - start).toNat + t % 2 ^ 31 < dur) :
    captureIdle mode start dur (fuel + 1) s =
      captureDrain mode (s.cfg.rxMax - 1) 0 u { s with env := s.env.after (t % 2 ^ 31) ts as } := by
  have hx := expired_after start dur ht (by omega)
  rw [show decide (dur ≤ (s.env.clock - start).toNat + t % 2 ^ 31) = false from decide_eq_false (by omega)] at hx
  have hp : (s.env.after (t % 2 ^ 31) ts s.env.arrivals).poll = (.arrived u, s.env.after (t % 2 ^ 31) ts as) :=
    EnvLaws.poll_of_script _ ha
  simp only [captureIdle, hx, hp, hu, ↓reduceIte]

/-- The drain of a POLL capture over two units, the first of them no boundary unit (R170, R74). -/
theorem captureDrain_poll (room n : Nat) (u v : LinkUnit) (as : List LinkEvent) (s : State) (hn : n = 0)
    (hu : u.fe = false) (ha : s.env.arrivals = .arrived v :: as) :
    captureDrain .poll (room + 1) n u s =
      { s with
        rx := (s.rx.write 0 u.byte).write 1 v.byte, rxlen := 2, env := { s.env with arrivals := as } } := by
  subst hn
  have hp := EnvLaws.poll_of_script s.env ha
  unfold captureDrain
  simp only [hu, hp]
  unfold captureDrain
  simp

/-- The drain of a FRAME capture over a group of units, up to where the capture ends (R170, R76). -/
theorem captureDrain_frame (us : List LinkUnit) (room n : Nat) (u : LinkUnit) (tail rest : List LinkEvent) (s : State)
    (ha : s.env.arrivals = us.map .arrived ++ tail) (hr : us.length ≤ room)
    (hfe : ∀ v ∈ (u :: us).dropLast, v.fe = false)
    (hend : ((∃ v ∈ (u :: us).getLast?, v.fe = true) ∨ us.length = room) ∧ rest = tail ∨
      us.length < room ∧ (∃ v ∈ (u :: us).getLast?, v.fe = false) ∧ tail = .gap :: rest) :
    captureDrain .frame room n u s =
      { s with
        rx := s.rx.writeFrom n ((u :: us).map (·.byte)), rxlen := n + (us.length + 1),
        env := { s.env with arrivals := rest } } := by
  induction us generalizing room n u s with
  | nil =>
    simp only [List.map_nil, List.nil_append] at ha
    unfold captureDrain
    obtain ⟨hl, rfl⟩ | ⟨hl, ⟨v, hv, hf⟩, rfl⟩ := hend
    · by_cases hf : u.fe = true
      · simp [hf, ← ha, Memory.writeFrom]
      · obtain ⟨v, hv, hf'⟩ | hl := hl
        · simp at hv; subst hv; exact absurd hf' hf
        · simp at hl
          subst hl
          simp [hf, ← ha, Memory.writeFrom]
    · simp at hv
      subst hv
      obtain ⟨room, rfl⟩ : ∃ r, room = r + 1 := ⟨room - 1, by simp at hl; omega⟩
      simp [hf, EnvLaws.poll_of_script _ ha, Memory.writeFrom]
  | cons v us ih =>
    have hu : u.fe = false := hfe u (by simp)
    simp only [List.map_cons, List.cons_append] at ha
    obtain ⟨room, rfl⟩ : ∃ r, room = r + 1 := ⟨room - 1, by simp at hr; omega⟩
    unfold captureDrain
    have hp := EnvLaws.poll_of_script s.env ha
    simp only [hu, hp]
    have go := ih room (n + 1) v
      { s with rx := s.rx.write n u.byte, rxlen := n + 1, env := { s.env with arrivals := us.map .arrived ++ tail } }
      rfl (by simpa using hr) (fun w hw => hfe w (by simp [List.dropLast, hw])) (by simpa using hend)
    simp only [reduceCtorEq, false_and, ↓reduceIte, Bool.false_eq_true]
    rw [go]
    simp [Memory.writeFrom]
    omega

/-! ## AWAIT -/

/-- The polled address, as the number R172 compares. -/
theorem polledAddress_eq (b : Byte) (a : BitVec 7) : polledAddress b = a ↔ (b &&& 0x7F).toNat = a.toNat := by
  have h : (b &&& 0x7F).toNat = b.toNat % 2 ^ 7 := by
    rw [BitVec.toNat_and]
    exact Nat.and_two_pow_sub_one_eq_mod b.toNat 7
  rw [← BitVec.toNat_inj, h, polledAddress, BitVec.toNat_setWidth]

/-- A POLL capture of a group that comes before the deadline (R170). -/
theorem capture_group (quiet as : List LinkEvent) (g : PollGroup) (ts ts' : List Nat) (start : ClockWord) (dur : Nat)
    (hd : dur ≤ 2 ^ 32) (s : State) (hq : Quiet s.cfg.idleFiller quiet)
    (hb : ∀ b ∈ g.bytes.head?, b ≠ s.cfg.idleFiller) (ha : s.env.arrivals = quiet ++ g.events ++ as)
    (ht : s.env.times = ts ++ ts') (hl : ts.length = quiet.length + 1)
    (he : (s.env.clock - start).toNat + spent ts < dur) :
    capture .poll start dur s = { s with
      rx := s.rx.writeFrom 0 g.bytes, rxlen := g.bytes.length, env := s.env.after (spent ts) ts' as } := by
  have hrx := s.cfg.rxMax_ge
  obtain ⟨ts, t, rfl⟩ : ∃ us u, ts = us ++ [u] :=
    ⟨ts.dropLast, ts.getLast (by rintro rfl; simp at hl), (List.dropLast_append_getLast _).symm⟩
  simp only [List.length_append, List.length_cons, List.length_nil, Nat.zero_add, Nat.add_right_cancel_iff] at hl
  simp only [spent_append, spent_cons, spent_nil, Nat.add_zero] at he
  simp only [List.append_assoc, List.cons_append, List.nil_append] at ht ha
  obtain ⟨m, hm⟩ : ∃ m, s.cfg.rxMax - 1 = m + 1 := ⟨s.cfg.rxMax - 2, by omega⟩
  rw [capture, show waitFuel dur s.env = quiet.length + (ts'.length + dur + 1 + 1) by simp [waitFuel, ht]; omega,
    captureIdle_quiet .poll start dur hd quiet (g.events ++ as) ts (t :: ts') _ s hq ha ht hl (.inr (by omega))]
  have unit : ∀ u bs, g.events ++ as = .arrived u :: bs → u.byte ≠ s.cfg.idleFiller → ∀ fuel,
      captureIdle .poll start dur (fuel + 1) { s with env := s.env.after (spent ts) (t :: ts') (g.events ++ as) } =
        captureDrain .poll (m + 1) 0 u { s with env := s.env.after (spent ts + t % 2 ^ 31) ts' bs } := by
    intro u bs hg hu fuel
    refine (captureIdle_unit .poll start dur u bs t ts' fuel _ (by exact hu) hg rfl hd
      (by simp only [Env.after_clock]; rw [elapsed_add _ _ _ (by omega)]; omega)).trans ?_
    simp only [hm, Env.after_after]
  simp only [spent_append, spent_cons, spent_nil, Nat.add_zero]
  cases g with
  | pair b second =>
    rw [unit ⟨b, false⟩ (.arrived second :: as) rfl (hb b rfl), captureDrain_poll m 0 ⟨b, false⟩ second as _ rfl rfl rfl]
    rfl
  | boundary b =>
    rw [unit ⟨b, true⟩ as rfl (hb b rfl)]
    simp [captureDrain, PollGroup.bytes, Memory.writeFrom]
  | lone b =>
    rw [unit ⟨b, false⟩ (.gap :: as) rfl (hb b rfl)]
    simp only [captureDrain]
    rw [EnvLaws.poll_of_script (a := .gap) (as := as) _ rfl]
    simp [PollGroup.bytes, Memory.writeFrom, Env.after]

/-- AWAIT's loop takes the turn when a poll of this controller comes before the deadline (R172). -/
theorem awaitLoop_turn (quiet rest : List LinkEvent) (b : Byte) (second : LinkUnit) (ts ts' : List Nat)
    (start : ClockWord) (dur fuel : Nat) (hd : dur ≤ 2 ^ 32) (s : State) (hq : Quiet s.cfg.idleFiller quiet)
    (hb : b ≠ s.cfg.idleFiller) (hp : polledAddress b = s.cfg.ctrlAddr)
    (ha : s.env.arrivals = quiet ++ .arrived ⟨b, false⟩ :: .arrived second :: rest)
    (ht : s.env.times = ts ++ ts') (hl : ts.length = quiet.length + 1)
    (he : (s.env.clock - start).toNat + spent ts < dur) :
    awaitLoop start dur (fuel + 1) s = succeed { s with
      rx := (s.rx.write 0 b).write 1 second.byte, rxlen := 2, bt := .transmitting,
      env := s.env.after (spent ts) ts' rest } := by
  have c := capture_group quiet rest (.pair b second) ts ts' start dur hd s hq (by simpa [PollGroup.bytes] using hb)
    (by simpa [PollGroup.events] using ha) ht hl he
  have hm : pollMatches (capture .poll start dur s) = true := by
    rw [c]; simp [pollMatches, PollGroup.bytes, Memory.read_writeFrom, hp]
  simp only [awaitLoop, hm, ↓reduceIte]
  rw [c]
  rfl

/-- AWAIT's loop after a capture that is no poll of this controller: the deadline test, and then
PollTimeout or the next capture (R172). -/
theorem awaitLoop_foreign (q : Traffic) (as : List LinkEvent) (ts : List Nat) (d : Nat) (ts' : List Nat)
    (start : ClockWord) (dur fuel : Nat) (hd : dur < 2 ^ 31) (s : State) (hq : q.Foreign s.cfg)
    (ha : s.env.arrivals = q.events ++ as) (ht : s.env.times = ts ++ d :: ts') (hl : ts.length = q.quiet.length + 1)
    (he : (s.env.clock - start).toNat + spent ts < dur) :
    awaitLoop start dur (fuel + 1) s =
      if dur ≤ (s.env.clock - start).toNat + (spent ts + d % 2 ^ 31) then
        fail .pollTimeout { s with
          rx := s.rx.writeFrom 0 q.group.bytes, rxlen := q.group.bytes.length, bt := .idle,
          env := s.env.after (spent ts + d % 2 ^ 31) ts' as }
      else awaitLoop start dur fuel { s with
        rx := s.rx.writeFrom 0 q.group.bytes, rxlen := q.group.bytes.length,
        env := s.env.after (spent ts + d % 2 ^ 31) ts' as } := by
  obtain ⟨quiet, g⟩ := q
  obtain ⟨hq, hg⟩ := hq
  simp only [Traffic.events] at *
  have c := capture_group quiet as g ts (d :: ts') start dur (by omega) s hq
    (by cases g <;> simpa [PollGroup.bytes, PollGroup.Foreign] using (by first | exact hg.1 | exact hg)) ha ht hl he
  have hm : pollMatches (capture .poll start dur s) = false := by
    rw [c]
    cases g with
    | pair b second =>
      have : ¬ polledAddress b = s.cfg.ctrlAddr := fun h => hg.2 ((polledAddress_eq _ _).1 h)
      simp [pollMatches, PollGroup.bytes, Memory.read_writeFrom, this]
    | boundary b => simp [pollMatches, PollGroup.bytes]
    | lone b => simp [pollMatches, PollGroup.bytes]
  have hx : (capture .poll start dur s).env.expired start dur =
      (decide (dur ≤ (s.env.clock - start).toNat + (spent ts + d % 2 ^ 31)), s.env.after (spent ts + d % 2 ^ 31) ts' as) := by
    have he' := elapsed_add start s.env.clock (spent ts) (by omega)
    rw [c]
    refine (expired_after start dur rfl (by simp only [Env.after_clock, he']; omega)).trans ?_
    simp only [Env.after_clock, he', Env.after_after, Env.after_arrivals, Nat.add_assoc]
  simp only [awaitLoop, hm, hx, Bool.false_eq_true, ↓reduceIte]
  by_cases h : dur ≤ (s.env.clock - start).toNat + (spent ts + d % 2 ^ 31)
  · simp only [h, decide_true, ↓reduceIte, c]
  · simp only [h, decide_false, ↓reduceIte, c]

/-- AWAIT's loop passes over traffic that is not meant for this controller (R172). -/
theorem awaitLoop_traffic (traffic : List Traffic) (as : List LinkEvent) (ts ts' : List Nat) (start : ClockWord)
    (dur fuel : Nat) (hd : dur < 2 ^ 31) (s : State) (hq : ∀ q ∈ traffic, q.Foreign s.cfg)
    (ha : s.env.arrivals = traffic.flatMap Traffic.events ++ as) (ht : s.env.times = ts ++ ts')
    (hl : ts.length = (traffic.map Traffic.reads).sum)
    (he : traffic = [] ∨ (s.env.clock - start).toNat + spent ts < dur) :
    ∃ n, awaitLoop start dur (traffic.length + fuel) s = awaitLoop start dur fuel { s with
      rx := storedBy traffic s.rx, rxlen := n, env := s.env.after (spent ts) ts' as } := by
  induction traffic generalizing ts s with
  | nil =>
    obtain rfl : ts = [] := by simpa using hl
    refine ⟨s.rxlen, ?_⟩
    simp only [List.flatMap_nil, List.nil_append] at ha ht
    simp [storedBy, Env.after_self _ ht ha]
  | cons q traffic ih =>
    have he : (s.env.clock - start).toNat + spent ts < dur := by simpa using he
    obtain ⟨us, d, vs, rfl, hu, hv⟩ : ∃ us d vs, ts = us ++ d :: vs ∧ us.length = q.quiet.length + 1 ∧
        vs.length = (traffic.map Traffic.reads).sum := by
      have hr : q.quiet.length + 1 < ts.length := by simp [hl, Traffic.reads]; omega
      refine ⟨ts.take (q.quiet.length + 1), ts[q.quiet.length + 1], ts.drop (q.quiet.length + 2), ?_, ?_, ?_⟩
      · rw [List.getElem_cons_drop, List.take_append_drop]
      · simp; omega
      · simp only [List.length_drop, hl, List.map_cons, List.sum_cons, Traffic.reads]; omega
    simp only [spent_append, spent_cons] at he
    simp only [List.flatMap_cons, List.append_assoc, List.cons_append] at ha ht
    have step := awaitLoop_foreign q (traffic.flatMap Traffic.events ++ as) us d (vs ++ ts') start dur
      (traffic.length + fuel) hd s (hq q (List.mem_cons_self ..)) ha ht hu (by omega)
    rw [if_neg (by omega)] at step
    obtain ⟨n, h⟩ := ih vs { s with
        rx := s.rx.writeFrom 0 q.group.bytes, rxlen := q.group.bytes.length,
        env := s.env.after (spent us + d % 2 ^ 31) (vs ++ ts') (traffic.flatMap Traffic.events ++ as) }
      (fun r hr => hq r (List.mem_cons_of_mem _ hr)) rfl rfl hv
      (.inr (by simp only [Env.after_clock]; rw [elapsed_add _ _ _ (by omega)]; omega))
    refine ⟨n, ?_⟩
    rw [show (q :: traffic).length + fuel = traffic.length + fuel + 1 by simp; omega, step, h]
    simp only [Env.after_after, spent_append, spent_cons, storedBy, List.foldl_cons, Nat.add_assoc]

/-- AWAIT's loop fails when nothing but gaps and fillers comes before the deadline (R172). -/
theorem awaitLoop_timeout (quiet rest : List LinkEvent) (d d' : Nat) (ts ts' : List Nat) (start : ClockWord)
    (dur fuel : Nat) (hdur : dur < 2 ^ 31) (s : State) (hq : Quiet s.cfg.idleFiller quiet)
    (ha : s.env.arrivals = quiet ++ rest) (ht : s.env.times = ts ++ d :: d' :: ts') (hl : ts.length = quiet.length)
    (he : ts = [] ∨ (s.env.clock - start).toNat + spent ts < dur)
    (hd : dur ≤ (s.env.clock - start).toNat + (spent ts + d % 2 ^ 31))
    (hw : (s.env.clock - start).toNat + (spent ts + d % 2 ^ 31 + d' % 2 ^ 31) < 2 ^ 32) :
    awaitLoop start dur (fuel + 1) s = fail .pollTimeout { s with
      rxlen := 0, bt := .idle, env := s.env.after (spent ts + d % 2 ^ 31 + d' % 2 ^ 31) ts' rest } := by
  have c : capture .poll start dur s =
      { s with rxlen := 0, env := s.env.after (spent ts + d % 2 ^ 31) (d' :: ts') rest } := by
    rw [capture, show waitFuel dur s.env = quiet.length + (ts'.length + 2 + dur + 1) by simp [waitFuel, ht]; omega,
      captureIdle_quiet .poll start dur (by omega) quiet rest ts (d :: d' :: ts') _ s hq ha ht hl he]
    have hc := elapsed_add start s.env.clock (spent ts) (by omega)
    refine (captureIdle_expired .poll start dur d (d' :: ts') _ _ rfl (by simp only [Env.after_clock, hc]; omega)
      (by simp only [Env.after_clock, hc]; omega)).trans ?_
    simp only [Env.after_after, Env.after_arrivals]
  have hc := elapsed_add start s.env.clock (spent ts + d % 2 ^ 31) (by omega)
  have hx := expired_after (e := s.env.after (spent ts + d % 2 ^ 31) (d' :: ts') rest) start dur rfl
    (by simp only [Env.after_clock, hc]; omega)
  rw [show decide (dur ≤ ((s.env.after (spent ts + d % 2 ^ 31) (d' :: ts') rest).clock - start).toNat + d' % 2 ^ 31) = true
    from decide_eq_true (by simp only [Env.after_clock, hc]; omega)] at hx
  simp only [awaitLoop, c, pollMatches, hx, Env.after_after, Env.after_arrivals]
  rfl

/-- AWAIT takes the turn when a poll of this controller comes before the deadline (R172). -/
theorem awaitTurn_turn (quiet rest : List LinkEvent) (b : Byte) (second : LinkUnit) (t0 : Nat) (ts ts' : List Nat)
    (s : State) (hq : Quiet s.cfg.idleFiller quiet) (hb : b ≠ s.cfg.idleFiller) (hp : polledAddress b = s.cfg.ctrlAddr)
    (ha : s.env.arrivals = quiet ++ .arrived ⟨b, false⟩ :: .arrived second :: rest)
    (ht : s.env.times = t0 :: (ts ++ ts')) (hl : ts.length = quiet.length + 1) (he : spent ts < s.cfg.pollTo) :
    awaitTurn s = succeed { s with
      rx := (s.rx.write 0 b).write 1 second.byte, rxlen := 2, bt := .transmitting,
      env := s.env.after (t0 % 2 ^ 31 + spent ts) ts' rest } := by
  have hpoll := s.cfg.pollTo_lt
  have hn := now_after ht
  simp only [awaitTurn, waitFuel]
  refine (awaitLoop_turn quiet rest b second ts ts' s.env.now.clock s.cfg.pollTo _ (by omega) _ (by exact hq) (by exact hb)
    (by exact hp) (by simpa [hn] using ha) (by simp [hn]) hl (by simpa using he)).trans ?_
  simp only [hn, Env.after_after]

/-! ## XMIT -/

theorem wait_times (t : Nat) (e : Env) : (e.wait t).times = e.times.tail := by
  unfold Env.wait Env.nextTime
  split <;> simp_all

theorem waitMs_times {t : Nat} {e e' : Env} (h : e.waitMs t = .ok e') : e'.times = e.times.tail := by
  unfold Env.waitMs at h
  split at h <;> cases h
  exact wait_times _ _

theorem sendBytes_times (gap : Nat) (tx : Memory) (is : List Nat) (e e' : Env) (h : sendBytes gap tx is e = .ok e') :
    e'.times = e.times.drop is.length := by
  induction is generalizing e with
  | nil => cases h; simp
  | cons i is ih =>
    simp only [sendBytes] at h
    split at h
    · cases h
    · split at h
      · cases h
      · rename_i e2 hw
        rw [ih _ h, waitMs_times hw]
        simp

/-- The environment XMIT leaves: nine time draws, the link's receive side untouched, the six bytes and
the signal in the send log (R192). -/
structure Transmitted (bs : List Byte) (e e' : Env) : Prop where
  times : e'.times = e.times.drop 9
  arrivals : e'.arrivals = e.arrivals
  linkDraws : e'.linkDraws = e.linkDraws
  items : e'.sent.map (·.item) = e.sent.map (·.item) ++ bs.map .data ++ [.endOfFrame]

theorem items_zipWith (bs : List Byte) (stamps : List ClockWord) (h : stamps.length = bs.length) :
    (List.zipWith (fun b c => Sent.mk (.data b) c) bs stamps).map (·.item) = bs.map .data := by
  induction bs generalizing stamps with
  | nil => simp
  | cons b bs ih =>
    cases stamps with
    | nil => simp at h
    | cons c cs => simp [ih cs (by simpa using h)]

/-- XMIT of a written frame in TRANSMITTING (R192). -/
theorem xmit_transmits (s : State) (bs : List Byte) (ht : s.bt = .transmitting) (hg : s.cfg.txGap < 2 ^ 32) (hl : bs.length = 6)
    (h : ∀ i < bs.length, s.tx.read i = bs[i]?) :
    ∃ e, Transmitted bs s.env e ∧
      xmit s = .ok (succeed { s with env := e, tTx := e.clock, xcnt := s.xcnt + 1, bt := .awaitingReply }) := by
  obtain ⟨e, stamps, hs, p⟩ := sendBytes_paced s.cfg.txGap hg s.tx bs 0 s.env.now (by simpa using h)
  rw [hl, ← List.range_eq_range'] at hs
  refine ⟨(e.send .endOfFrame).flush.now, ⟨?_, ?_, ?_, ?_⟩, ?_⟩
  · have := sendBytes_times _ _ _ _ _ hs
    simp only [EnvLaws.now_times, Env.flush, wait_times, EnvLaws.send_times, this]
    simp
  · simp [p.arrivals]
  · simp [p.linkDraws]
  · simp [p.sent, items_zipWith bs stamps p.length]
  · simp only [xmit, ht, ↓reduceIte, Config.txWire, hs]

/-! ## RECV -/

/-- A look at a link on which a unit is waiting (R63). -/
theorem avail_unit {e : Env} {u : LinkUnit} {as : List LinkEvent} (h : e.arrivals = .arrived u :: as) :
    e.avail = (true, e) := by
  simp [Env.avail, EnvLaws.poll_of_script e h]

/-- A look at a link on which nothing is waiting. -/
theorem avail_gap {e : Env} {as : List LinkEvent} (h : e.arrivals = .gap :: as) :
    e.avail = (false, { e with arrivals := as }) := by
  simp [Env.avail, EnvLaws.poll_of_script e h]

/-- RECV's busy wait passes over gaps before its deadline (R195). -/
theorem recvLoop_gaps (k : Nat) (as : List LinkEvent) (ts ts' : List Nat) (start : ClockWord) (dur fuel : Nat)
    (hd : dur ≤ 2 ^ 32) (s : State) (ha : s.env.arrivals = List.replicate k .gap ++ as) (ht : s.env.times = ts ++ ts')
    (hl : ts.length = k) (he : ts = [] ∨ (s.env.clock - start).toNat + spent ts < dur) :
    recvLoop start dur (k + fuel) s = recvLoop start dur fuel { s with env := s.env.after (spent ts) ts' as } := by
  induction ts generalizing k s with
  | nil =>
    obtain rfl : k = 0 := by simpa using hl.symm
    simp only [List.replicate_zero, List.nil_append] at ha ht
    simp [Env.after_self _ ht ha]
  | cons t ts ih =>
    subst hl
    have he : (s.env.clock - start).toNat + (t % 2 ^ 31 + spent ts) < dur := by simpa using he
    simp only [List.length_cons, List.replicate_succ, List.cons_append] at ha ht
    have hx := expired_after start dur ht (by omega)
    rw [show decide (dur ≤ (s.env.clock - start).toNat + t % 2 ^ 31) = false from decide_eq_false (by omega)] at hx
    have hav := avail_gap (e := s.env.after (t % 2 ^ 31) (ts ++ ts') s.env.arrivals) ha
    have go := ih ts.length { s with env := s.env.after (t % 2 ^ 31) (ts ++ ts') (List.replicate ts.length .gap ++ as) }
      rfl rfl rfl (.inr (by simp only [Env.after_clock]; rw [elapsed_add _ _ _ (by omega)]; omega))
    simp only [Env.after_after] at go
    rw [show (t :: ts).length + fuel = ts.length + fuel + 1 by simp; omega]
    simp only [recvLoop, hx, hav, spent_cons]
    exact go

/-- RECV's capture fails when nothing but gaps and fillers comes before the deadline (R170, R195). -/
theorem recvCapture_timeout (quiet rest : List LinkEvent) (ts : List Nat) (d : Nat) (ts' : List Nat) (start : ClockWord)
    (dur : Nat) (hdur : dur ≤ 2 ^ 32) (s : State) (hq : Quiet s.cfg.idleFiller quiet)
    (ha : s.env.arrivals = quiet ++ rest) (ht : s.env.times = ts ++ d :: ts') (hl : ts.length = quiet.length)
    (he : ts = [] ∨ (s.env.clock - start).toNat + spent ts < dur)
    (hd : dur ≤ (s.env.clock - start).toNat + (spent ts + d % 2 ^ 31))
    (hw : (s.env.clock - start).toNat + (spent ts + d % 2 ^ 31) < 2 ^ 32) :
    recvCapture start dur s = recvTimeout { s with env := s.env.after (spent ts + d % 2 ^ 31) ts' rest } := by
  have c : capture .frame start dur s =
      { s with rxlen := 0, env := s.env.after (spent ts + d % 2 ^ 31) ts' rest } := by
    rw [capture, show waitFuel dur s.env = quiet.length + (ts'.length + 1 + dur + 1) by simp [waitFuel, ht]; omega,
      captureIdle_quiet .frame start dur hdur quiet rest ts (d :: ts') _ s hq ha ht hl he]
    have hc := elapsed_add start s.env.clock (spent ts) (by omega)
    refine (captureIdle_expired .frame start dur d ts' _ _ rfl (by simp only [Env.after_clock, hc]; omega)
      (by simp only [Env.after_clock, hc]; omega)).trans ?_
    simp only [Env.after_after, Env.after_arrivals]
  simp only [recvCapture, c, ↓reduceIte]
  rfl

/-- The capture of a reply, once RECV has seen that bytes are available (R170, R195). -/
theorem recvCapture_reply (quiet : List LinkEvent) (us : List LinkUnit) (tail rest : List LinkEvent) (t : Nat)
    (ts ts' : List Nat) (start : ClockWord) (dur : Nat) (hd : dur ≤ 2 ^ 32) (s : State)
    (ha : s.env.arrivals = quiet ++ us.map .arrived ++ tail) (hq : Quiet s.cfg.idleFiller quiet)
    (hus : CaptureEnds s.cfg.rxMax us tail rest) (hh : ∀ u ∈ us.head?, u.byte ≠ s.cfg.idleFiller)
    (ht : s.env.times = ts ++ t :: ts') (hl : ts.length = quiet.length)
    (he : (s.env.clock - start).toNat + spent ts + t % 2 ^ 31 < dur) :
    recvCapture start dur s = succeedWith us.length { s with
      rx := s.rx.writeFrom 0 (us.map (·.byte)), rxlen := us.length, bt := .replyCaptured,
      env := s.env.after (spent ts + t % 2 ^ 31) ts' rest } := by
  obtain ⟨hne, hlen, hfe, hend⟩ := hus
  cases us with
  | nil => exact absurd rfl hne
  | cons u us =>
    have hu : u.byte ≠ s.cfg.idleFiller := hh u (by simp)
    have c1 : capture .frame start dur s = { s with
        rx := s.rx.writeFrom 0 ((u :: us).map (·.byte)), rxlen := us.length + 1,
        env := s.env.after (spent ts + t % 2 ^ 31) ts' rest } := by
      simp only [capture]
      rw [show waitFuel dur s.env = quiet.length + (ts'.length + dur + 1 + 1) by simp [waitFuel, ht]; omega]
      refine (captureIdle_quiet .frame start dur hd quiet ((u :: us).map .arrived ++ tail) ts (t :: ts') _ _ hq
        (by simpa using ha) ht hl (.inr (by omega))).trans ?_
      refine (captureIdle_unit .frame start dur u (us.map .arrived ++ tail) t ts' _ _ (by exact hu) (by simp) rfl hd
        (by simp only [Env.after_clock]; rw [elapsed_add _ _ _ (by omega)]; omega)).trans ?_
      simp only [Env.after_after]
      simp only [List.length_cons] at hlen hend
      refine (captureDrain_frame us (s.cfg.rxMax - 1) 0 u tail rest _ rfl (by omega) hfe ?_).trans ?_
      · obtain ⟨h1 | h1, h2⟩ | ⟨h1, h2, h3⟩ := hend
        · exact .inl ⟨.inl h1, h2⟩
        · exact .inl ⟨.inr (by omega), h2⟩
        · exact .inr ⟨by omega, h2, h3⟩
      · simp only [Nat.zero_add]; rfl
    simp only [recvCapture, c1, Nat.add_eq_zero_iff, Nat.one_ne_zero, and_false, ↓reduceIte, List.length_cons]

/-- RECV captures the reply when it comes before the deadline (R195). -/
theorem recvLoop_reply (quiet : List LinkEvent) (us : List LinkUnit) (tail rest : List LinkEvent) (ts ts' : List Nat)
    (start : ClockWord) (dur fuel : Nat) (hd : dur ≤ 2 ^ 32) (s : State)
    (ha : s.env.arrivals = quiet ++ us.map .arrived ++ tail) (hq : Quiet s.cfg.idleFiller quiet)
    (hus : CaptureEnds s.cfg.rxMax us tail rest) (hh : ∀ u ∈ us.head?, u.byte ≠ s.cfg.idleFiller)
    (ht : s.env.times = ts ++ ts') (hl : ts.length = quiet.length + 2)
    (he : (s.env.clock - start).toNat + spent ts < dur) (hf : quiet.length + 1 ≤ fuel) :
    recvLoop start dur fuel s = succeedWith us.length { s with
      rx := s.rx.writeFrom 0 (us.map (·.byte)), rxlen := us.length, bt := .replyCaptured,
      env := s.env.after (spent ts) ts' rest } := by
  -- once a unit is waiting, the rest is one capture
  have ready : ∀ (quiet : List LinkEvent) (ts : List Nat) (s : State) (v : LinkUnit) (as : List LinkEvent),
      s.env.arrivals = quiet ++ us.map .arrived ++ tail → Quiet s.cfg.idleFiller quiet →
      CaptureEnds s.cfg.rxMax us tail rest → (∀ u ∈ us.head?, u.byte ≠ s.cfg.idleFiller) →
      s.env.times = ts ++ ts' → ts.length = quiet.length + 2 → (s.env.clock - start).toNat + spent ts < dur →
      s.env.arrivals = .arrived v :: as → ∀ f, recvLoop start dur (f + 1) s = succeedWith us.length { s with
        rx := s.rx.writeFrom 0 (us.map (·.byte)), rxlen := us.length, bt := .replyCaptured,
        env := s.env.after (spent ts) ts' rest } := by
    intro quiet ts s v as ha hq hus hh ht hl he hv f
    cases ts with
    | nil => simp at hl
    | cons t ts =>
      obtain ⟨ts, t', rfl⟩ : ∃ us u, ts = us ++ [u] :=
        ⟨ts.dropLast, ts.getLast (by rintro rfl; simp at hl), (List.dropLast_append_getLast _).symm⟩
      simp only [List.length_append, List.length_cons, List.length_nil, Nat.zero_add, Nat.add_right_cancel_iff] at hl
      simp only [spent_append, spent_cons, spent_nil, Nat.add_zero] at he
      simp only [List.append_assoc, List.cons_append, List.nil_append] at ht
      have hx := expired_after start dur ht (by omega)
      rw [show decide (dur ≤ (s.env.clock - start).toNat + t % 2 ^ 31) = false from decide_eq_false (by omega)] at hx
      have hav := avail_unit (e := s.env.after (t % 2 ^ 31) (ts ++ t' :: ts') s.env.arrivals) hv
      simp only [recvLoop, hx, hav]
      refine (recvCapture_reply quiet us tail rest t' ts ts' start dur hd _ (by exact ha) (by exact hq) (by exact hus) (by exact hh)
        rfl hl (by simp only [Env.after_clock]; rw [elapsed_add _ _ _ (by omega)]; omega)).trans ?_
      simp only [Env.after_after, spent_append, spent_cons, spent_nil, Nat.add_zero]
  induction quiet generalizing ts fuel s with
  | nil =>
    obtain ⟨f, rfl⟩ : ∃ f, fuel = f + 1 := ⟨fuel - 1, by omega⟩
    cases us with
    | nil => exact absurd rfl hus.1
    | cons u us => exact ready [] ts s u (us.map .arrived ++ tail) ha hq hus hh ht hl he (by simpa using ha) f
  | cons q quiet ih =>
    obtain ⟨f, rfl⟩ : ∃ f, fuel = f + 1 := ⟨fuel - 1, by omega⟩
    obtain hgap | ⟨fe, hfill⟩ := hq q (List.mem_cons_self ..)
    · subst hgap
      cases ts with
      | nil => simp at hl
      | cons t ts =>
        simp only [List.length_cons, Nat.add_right_cancel_iff] at hl hf
        simp only [spent_cons] at he
        simp only [List.cons_append] at ha ht
        have hx := expired_after start dur ht (by omega)
        rw [show decide (dur ≤ (s.env.clock - start).toNat + t % 2 ^ 31) = false from decide_eq_false (by omega)] at hx
        have hav := avail_gap (e := s.env.after (t % 2 ^ 31) (ts ++ ts') s.env.arrivals) ha
        simp only [recvLoop, hx, hav]
        refine (ih ts f { s with env := s.env.after (t % 2 ^ 31) (ts ++ ts') (quiet ++ us.map .arrived ++ tail) } rfl
          (fun e h => hq e (List.mem_cons_of_mem _ h)) hus hh rfl hl
          (by simp only [Env.after_clock]; rw [elapsed_add _ _ _ (by omega)]; omega) (by omega)).trans ?_
        simp only [Env.after_after, spent_cons]
    · subst hfill
      exact ready _ ts s _ _ ha hq hus hh ht hl he ha f

end Sys2Proof.Machine
end

