-- ==== Sys2Proof/Laws/Exchange.lean ====
section
/-! SUPPORT. One whole exchange of frames while the environment is scripted: poll, transmission, reply
(R220). -/

namespace Sys2Proof.Machine

open Sys2Proof.Spec

/-! ## The units of a frame (R73) -/

@[simp] theorem frameUnits_bytes (bs : List Byte) : (frameUnits bs).map (·.byte) = bs := by
  induction bs with
  | nil => rfl
  | cons b bs ih =>
    cases bs with
    | nil => rfl
    | cons c cs => simpa [frameUnits] using ih

@[simp] theorem frameUnits_length (bs : List Byte) : (frameUnits bs).length = bs.length := by
  rw [← List.length_map (f := (·.byte)), frameUnits_bytes]

theorem frameUnits_boundary (bs : List Byte) (h : bs ≠ []) :
    (∀ u ∈ (frameUnits bs).dropLast, u.fe = false) ∧ ∃ u ∈ (frameUnits bs).getLast?, u.fe = true := by
  induction bs with
  | nil => exact absurd rfl h
  | cons b bs ih =>
    cases bs with
    | nil => exact ⟨by simp [frameUnits], ⟨b, true⟩, by simp [frameUnits], rfl⟩
    | cons c cs =>
      obtain ⟨h1, u, h2, h3⟩ := ih (by simp)
      have hne : frameUnits (c :: cs) ≠ [] := fun h => by
        have := congrArg List.length h
        simp at this
      obtain ⟨v, vs, hv⟩ := List.exists_cons_of_ne_nil hne
      refine ⟨?_, u, ?_, h3⟩
      · intro w hw
        simp only [frameUnits, hv, List.dropLast_cons_cons, List.mem_cons] at hw
        obtain rfl | hw := hw
        · rfl
        · exact h1 w (by rw [hv]; exact hw)
      · simp only [frameUnits]
        rw [hv] at h2 ⊢
        simpa using h2

theorem frameUnits_head (bs : List Byte) : (frameUnits bs).head?.map (·.byte) = bs.head? := by
  cases bs with
  | nil => rfl
  | cons b bs => cases bs <;> rfl

/-- A frame that fits is captured whole, and the capture ends at its boundary unit (R170). -/
theorem captureEnds_frame (rxMax : Nat) (bs : List Byte) (tail : List LinkEvent) (h : bs ≠ []) (hl : bs.length ≤ rxMax) :
    CaptureEnds rxMax (frameUnits bs) tail tail := by
  obtain ⟨h1, h2⟩ := frameUnits_boundary bs h
  refine ⟨fun hn => h ?_, by simpa using hl, h1, .inl ⟨.inl h2, rfl⟩⟩
  have := congrArg List.length hn
  simpa using this

/-! ## The exchange -/

/-- What AWAIT, XMIT and RECV leave when the bus polls and replies in time. -/
def exchanged (x : Exchange) (e : Env) (tTx : ClockWord) (s : State) : State :=
  { s with
    rx := ((s.rx.write 0 x.poll).write 1 x.second.byte).writeFrom 0 x.reply, rxlen := x.reply.length,
    status := statusOk, bt := .replyCaptured, res := x.reply.length, resv := true, tTx := tTx,
    xcnt := s.xcnt + 1, env := e }

theorem spent_take_add_drop (ts : List Nat) (k : Nat) : spent (ts.take k) + spent (ts.drop k) = spent ts := by
  rw [← spent_append, List.take_append_drop]

/-- AWAIT, XMIT and RECV, one after the other, when the bus polls and replies in time (R220). -/
theorem exchange_heard (x : Exchange) (rest : List LinkEvent) (ts ts' : List Nat) (bs : List Byte) (s : State)
    (hx : x.Heard s.cfg) (ha : s.env.arrivals = x.events ++ rest) (ht : s.env.times = ts ++ ts') (hp : Prompt s 1 ts)
    (hl : bs.length = 6) (htx : ∀ i < bs.length, s.tx.read i = bs[i]?) :
    ∃ e tTx, e.arrivals = rest ∧ e.times = ts' ∧
      e.sent.map (·.item) = s.env.sent.map (·.item) ++ bs.map .data ++ [.endOfFrame] ∧
      ∀ k : State → Except Fault Ended,
        (thenRun (.ok (awaitTurn s)) fun s => thenRun (xmit s) fun s => thenRun (.ok (recv s)) k) =
          k (exchanged x e tTx s) := by
  obtain ⟨hfill, haddr, hne, hmax, hhead⟩ := hx
  obtain ⟨hlen, hpt, hat, hgap⟩ := hp
  -- the thirteen draws
  obtain ⟨t0, ts, rfl⟩ : ∃ t us, ts = t :: us := by
    cases ts with
    | nil => simp at hlen
    | cons t us => exact ⟨t, us, rfl⟩
  simp only [List.length_cons] at hlen
  simp only [spent_cons] at hpt hat
  have hsum1 := spent_take_add_drop ts 1
  have hsum2 := spent_take_add_drop (ts.drop 1) 9
  -- AWAIT
  have w := awaitTurn_turn [] ((frameUnits x.reply).map .arrived ++ rest) x.poll x.second t0 (ts.take 1)
    (ts.drop 1 ++ ts') s (by simp [Quiet]) hfill ((polledAddress_eq _ _).2 haddr) (by simpa [Exchange.events] using ha)
    (by rw [← List.append_assoc, List.take_append_drop]; simpa using ht) (by simp; omega) (by omega)
  -- XMIT
  obtain ⟨e1, tr, hxm⟩ := xmit_transmits
    { s with
      rx := (s.rx.write 0 x.poll).write 1 x.second.byte, rxlen := 2, bt := .transmitting, status := statusOk,
      env := s.env.after (t0 % 2 ^ 31 + spent (ts.take 1)) (ts.drop 1 ++ ts')
        ((frameUnits x.reply).map .arrived ++ rest) } bs rfl hgap hl htx
  have htimes : e1.times = (ts.drop 1).drop 9 ++ ts' := by
    rw [tr.times]
    show (ts.drop 1 ++ ts').drop 9 = _
    rw [List.drop_append_of_le_length (by simp; omega)]
  -- RECV
  have r := recvLoop_reply [] (frameUnits x.reply) rest rest ((ts.drop 1).drop 9) ts' e1.clock (s.ansTo.toNat * 100)
    (waitFuel (s.ansTo.toNat * 100) e1) (by have := s.ansTo.isLt; omega)
    { s with
      rx := (s.rx.write 0 x.poll).write 1 x.second.byte, rxlen := 2, bt := .awaitingReply, status := statusOk,
      env := e1, tTx := e1.clock, xcnt := s.xcnt + 1 }
    (by rw [tr.arrivals]; rfl) (by simp [Quiet]) (captureEnds_frame _ _ _ hne hmax)
    (by
      intro u hu he
      have := frameUnits_head x.reply
      rw [hu] at this
      apply hhead
      rw [← List.head?_eq_getElem?, ← this, ← he]
      rfl)
    htimes (by simp; omega) (by rw [elapsed_self]; omega) (by simp [waitFuel])
  refine ⟨e1.after (spent ((ts.drop 1).drop 9)) ts' rest, e1.clock, rfl, rfl, tr.items, fun k => ?_⟩
  rw [w]
  simp only [succeed, thenRun_done]
  rw [hxm]
  simp only [succeed, thenRun_done, recv, ↓reduceIte, answerWindow, Config.ansToUnit]
  rw [r]
  simp only [succeedWith, thenRun_done, frameUnits_bytes, frameUnits_length]
  rfl

@[simp] theorem exchanged_rxlen (x : Exchange) (e : Env) (tTx : ClockWord) (s : State) :
    (exchanged x e tTx s).rxlen = x.reply.length := rfl

/-- The reply stands in RX. -/
theorem exchanged_frame (x : Exchange) (e : Env) (tTx : ClockWord) (s : State) (i : Nat) (hi : i < x.reply.length) :
    (exchanged x e tTx s).rx.read i = x.reply[i]? := by
  simp [exchanged, Memory.read_writeFrom, hi]

/-- The six bytes of a request that go on the wire. -/
def wireBytes (p : Params) (dest type off payload : Byte) : List Byte :=
  header p dest type off payload ++ [crcBytes p.crcCarryIn (header p dest type off payload)]

theorem buildFrame_wire (dest type off payload : Byte) (s : State) (i : Nat)
    (hi : i < (wireBytes s.cfg dest type off payload).length) :
    (buildFrame dest type off payload s).tx.read i = (wireBytes s.cfg dest type off payload)[i]? := by
  have h6 : i < 6 := by simpa [wireBytes, header] using hi
  rw [buildFrame_read, if_pos (by omega)]
  simp only [wireBytes]
  rw [show ∀ h : List Byte, ∀ a b : Byte, h ++ [a, b] = (h ++ [a]) ++ [b] by simp,
    List.getElem?_append_left (by simp [header]; omega)]

/-- TX holds the read request that ENCRD builds (R71). -/
theorem buildFrame_readRequest (r : ReadDesc) (s : State) :
    Holds (buildFrame (readDest r.dest) r.type 0x00 r.len s).tx (readRequest s.cfg r) := by
  intro i hi
  have h7 : i < 7 := by simpa [readRequest] using hi
  rw [buildFrame_read, if_pos h7]
  simp [readRequest, header, readDest, Config.readFlag, sourceByte]

/-- TX holds the write request that ENCWR builds (R72). -/
theorem buildFrame_writeRequest (w : WriteDesc) (val : Byte) (s : State) :
    Holds (buildFrame w.dest w.type w.woff val s).tx (writeRequest s.cfg w val) := by
  intro i hi
  have h7 : i < 7 := by simpa [writeRequest] using hi
  rw [buildFrame_read, if_pos h7]
  simp [writeRequest, header, sourceByte]

theorem transmitted_readRequest (p : Params) (r : ReadDesc) :
    transmitted (readRequest p r) = (wireBytes p (readDest r.dest) r.type 0x00 r.len).map .data ++ [.endOfFrame] := by
  simp [transmitted, readRequest, wireBytes, header, readDest, Config.readFlag, sourceByte]

theorem transmitted_writeRequest (p : Params) (w : WriteDesc) (val : Byte) :
    transmitted (writeRequest p w val) = (wireBytes p w.dest w.type w.woff val).map .data ++ [.endOfFrame] := by
  simp [transmitted, writeRequest, wireBytes, header, sourceByte]

/-- What a request and its exchange leave, once the reply is validated. -/
def answered (x : Exchange) (dest type off payload : Byte) (e : Env) (tTx : ClockWord) (s : State) : State :=
  { exchanged x e tTx (buildFrame dest type off payload s) with bt := .validated }

/-- The read exchange of an existing descriptor, answered in time (R222). -/
theorem xread_answered (rd : Byte) (r : ReadDesc) (x : Exchange) (rest : List LinkEvent) (ts ts' : List Nat) (s : State)
    (hr : s.cfg.cat.read.lookup rd = some r) (hd : r.dest.toNat ≤ 0x7F) (hx : x.Answers s.cfg r)
    (ha : s.env.arrivals = x.events ++ rest) (ht : s.env.times = ts ++ ts') (hp : Prompt s 1 ts) :
    ∃ e tTx, e.arrivals = rest ∧ e.times = ts' ∧
      e.sent.map (·.item) = s.env.sent.map (·.item) ++ transmitted (readRequest s.cfg r) ∧
      xread rd s = .ok ⟨none, answered x (readDest r.dest) r.type 0x00 r.len e tTx s⟩ := by
  obtain ⟨hheard, h5, hcrc, htype⟩ := hx
  obtain ⟨e, tTx, h1, h2, h3, hk⟩ := exchange_heard x rest ts ts' (wireBytes s.cfg (readDest r.dest) r.type 0x00 r.len)
    { buildFrame (readDest r.dest) r.type 0x00 r.len s with status := statusOk } hheard ha ht hp
    (by simp [wireBytes, header]) (fun i hi => buildFrame_wire _ _ _ _ s i hi)
  refine ⟨e, tTx, h1, h2, by rw [transmitted_readRequest, ← List.append_assoc]; exact h3, ?_⟩
  simp only [xread, descriptor, hr, readExchange, encrd_legal _ _ _ hd, succeed, thenRun_done]
  rw [hk]
  have hf := exchanged_frame x e tTx { buildFrame (readDest r.dest) r.type 0x00 r.len s with status := statusOk }
  have hm := frameMatches_of_frame x.reply (exchanged_rxlen x e tTx _) (by omega) hf
  rw [ChecksumMatches] at hcrc
  have hc : ∀ t : State, (exchanged x e tTx t).cfg = t.cfg := fun _ => rfl
  rw [hc, show ∀ t : State, ({ t with status := statusOk } : State).cfg = t.cfg from fun _ => rfl, buildFrame_frame,
    hcrc, decide_eq_true rfl, ← buildFrame_frame] at hm
  have h5' : ¬ x.reply.length < Config.minFrame := by simp [Config.minFrame]; omega
  simp only [fvalid, exchanged_rxlen, h5', ↓reduceIte, hm, succeedWith, thenRun_done]
  have ht2 : readField 2 1 { markValidated (exchanged x e tTx
      { buildFrame (readDest r.dest) r.type 0x00 r.len s with status := statusOk }) with
      status := statusOk, res := 1, resv := true } = .ok [r.type] := by
    apply readField_of_reads [r.type] rfl
    · simp [markValidated_eq]; omega
    · intro i hi
      obtain rfl : i = 0 := by simpa using hi
      simp only [markValidated_eq, Nat.add_zero]
      rw [hf 2 (by omega), htype]
      rfl
  simp only [tchk, ht2, ↓reduceIte, succeed, thenRun_done]
  rw [markValidated_eq]
  rfl

/-- The write exchange of an existing descriptor, acknowledged in time (R224). -/
theorem xwrite_acknowledged (wd val : Byte) (w : WriteDesc) (x : Exchange) (rest : List LinkEvent) (ts ts' : List Nat)
    (s : State) (hw : s.cfg.cat.write.lookup wd = some w) (hd : w.dest.toNat ≤ 0x7F) (hx : x.Acknowledges s.cfg)
    (ha : s.env.arrivals = x.events ++ rest) (ht : s.env.times = ts ++ ts') (hp : Prompt s 1 ts) :
    ∃ e tTx, e.arrivals = rest ∧ e.times = ts' ∧
      e.sent.map (·.item) = s.env.sent.map (·.item) ++ transmitted (writeRequest s.cfg w val) ∧
      xwrite wd val s = .ok ⟨none, answered x w.dest w.type w.woff val e tTx s⟩ := by
  obtain ⟨hheard, hack⟩ := hx
  obtain ⟨e, tTx, h1, h2, h3, hk⟩ := exchange_heard x rest ts ts' (wireBytes s.cfg w.dest w.type w.woff val)
    { buildFrame w.dest w.type w.woff val s with status := statusOk } hheard ha ht hp
    (by simp [wireBytes, header]) (fun i hi => buildFrame_wire _ _ _ _ s i hi)
  refine ⟨e, tTx, h1, h2, by rw [transmitted_writeRequest, ← List.append_assoc]; exact h3, ?_⟩
  have hne : 0 < x.reply.length := List.length_pos_of_ne_nil hheard.2.2.1
  simp only [xwrite, descriptor, hw, writeExchange, encwr_legal _ _ _ _ hd, succeed, thenRun_done]
  rw [hk]
  have hb : readByte .rx (exchanged x e tTx { buildFrame w.dest w.type w.woff val s with status := statusOk }).rx 0 =
      .ok s.cfg.ackByte :=
    readByte_of_read ((exchanged_frame x e tTx _ 0 hne).trans hack)
  have h0 : ¬ x.reply.length = 0 := by omega
  have hc : (exchanged x e tTx { buildFrame w.dest w.type w.woff val s with status := statusOk }).cfg.ackByte =
      s.cfg.ackByte := rfl
  simp only [dack, exchanged_rxlen, h0, ↓reduceIte, hb, hc, succeed, succeedWith, thenRun_done]
  rw [markValidated_eq]
  rfl

/-- The write exchange of an existing descriptor, answered in time by something else (R224, R226). -/
theorem xwrite_unacknowledged (wd val : Byte) (w : WriteDesc) (x : Exchange) (rest : List LinkEvent) (ts ts' : List Nat)
    (s : State) (hw : s.cfg.cat.write.lookup wd = some w) (hd : w.dest.toNat ≤ 0x7F) (hx : x.Heard s.cfg)
    (hn : x.reply[0]? ≠ some s.cfg.ackByte) (ha : s.env.arrivals = x.events ++ rest) (ht : s.env.times = ts ++ ts')
    (hp : Prompt s 1 ts) :
    ∃ e tTx, e.arrivals = rest ∧ e.times = ts' ∧
      e.sent.map (·.item) = s.env.sent.map (·.item) ++ transmitted (writeRequest s.cfg w val) ∧
      xwrite wd val s = .ok (fail .writeNotAcknowledged
        (exchanged x e tTx (buildFrame w.dest w.type w.woff val s))) := by
  obtain ⟨e, tTx, h1, h2, h3, hk⟩ := exchange_heard x rest ts ts' (wireBytes s.cfg w.dest w.type w.woff val)
    { buildFrame w.dest w.type w.woff val s with status := statusOk } hx ha ht hp
    (by simp [wireBytes, header]) (fun i hi => buildFrame_wire _ _ _ _ s i hi)
  refine ⟨e, tTx, h1, h2, by rw [transmitted_writeRequest, ← List.append_assoc]; exact h3, ?_⟩
  have hne : 0 < x.reply.length := List.length_pos_of_ne_nil hx.2.2.1
  simp only [xwrite, descriptor, hw, writeExchange, encwr_legal _ _ _ _ hd, succeed, thenRun_done]
  rw [hk]
  have hb : readByte .rx (exchanged x e tTx { buildFrame w.dest w.type w.woff val s with status := statusOk }).rx 0 =
      .ok (x.reply[0]'hne) :=
    readByte_of_read ((exchanged_frame x e tTx _ 0 hne).trans (by simp))
  have h0 : ¬ x.reply.length = 0 := by omega
  have hb' : ¬ x.reply[0]'hne = s.cfg.ackByte := fun h => hn (by rw [List.getElem?_eq_getElem hne, h])
  have hc : (exchanged x e tTx { buildFrame w.dest w.type w.woff val s with status := statusOk }).cfg.ackByte =
      s.cfg.ackByte := rfl
  simp only [dack, exchanged_rxlen, h0, ↓reduceIte, hb, hc, hb', fail, thenRun_failed]
  rfl

/-! ## DFIELD (R89, R77) -/

theorem sext16_be16 (b0 b1 : Byte) :
    sext16 (be16 b0 b1) = if b0.toNat * 256 + b1.toNat < 32768 then (b0.toNat * 256 + b1.toNat : Int)
      else (b0.toNat * 256 + b1.toNat : Int) - 65536 := by
  simp [sext16, be16]

theorem flagOf_eq (b : Byte) (i : Fin 8) : flagOf b i.val = ((b.toNat / 2 ^ i.val % 2 : Nat) : Int) := by
  have h : b.getLsbD i.val = decide (b.toNat / 2 ^ i.val % 2 = 1) := by
    rw [BitVec.getLsbD, Nat.testBit_eq_decide_div_mod_eq]
  unfold flagOf
  rw [h]
  have := Nat.mod_two_eq_zero_or_one (b.toNat / 2 ^ i.val)
  by_cases h1 : b.toNat / 2 ^ i.val % 2 = 1
  · simp [h1]
  · simp [show b.toNat / 2 ^ i.val % 2 = 0 by omega]

/-- DFIELD of a field inside a captured frame gives its raw value. -/
theorem dfield_value (fs : FieldSpec) (bs : List Byte) (s : State) (hl : s.rxlen = bs.length)
    (hb : ∀ i < bs.length, s.rx.read i = bs[i]?) (hin : FieldInside fs bs) :
    dfield fs s = .ok (succeedWith (fieldValue fs bs) s) := by
  obtain ⟨kind, off, bit⟩ := fs
  have rd : ∀ k, off.toNat + k < bs.length → s.rx.read (off.toNat + k) = some (bs.getD (off.toNat + k) 0) := by
    intro k hk
    rw [hb _ hk]
    simp [hk]
  have dec : ∀ width (vs : List Byte) (value : List Byte → Int), vs.length = width →
      off.toNat + width + 2 ≤ bs.length → (∀ k < width, vs[k]? = some (bs.getD (off.toNat + k) 0)) →
      decodeField off.toNat width value s = .ok (succeedWith (value vs) s) := by
    intro width vs value hvl hw hv
    refine decodeField_of_reads vs hvl (by omega) fun k hk => ?_
    rw [hv k (by omega), rd k (by omega)]
  have hbit := bit.isLt
  cases kind <;> simp only [FieldInside, fieldWidth] at hin
  · exact dec 1 [bs.getD (off.toNat + 0) 0] byteValue rfl hin (by
      intro k hk; obtain rfl : k = 0 := by omega
      rfl)
  · exact dec 2 [bs.getD (off.toNat + 0) 0, bs.getD (off.toNat + 1) 0] (wordValue false) rfl hin (by
      intro k hk; obtain rfl | rfl : k = 0 ∨ k = 1 := by omega
      all_goals rfl)
  · refine (dec 2 [bs.getD (off.toNat + 0) 0, bs.getD (off.toNat + 1) 0] (wordValue true) rfl hin (by
      intro k hk; obtain rfl | rfl : k = 0 ∨ k = 1 := by omega
      all_goals rfl)).trans ?_
    simp only [wordValue, ↓reduceIte, sext16_be16]
    rfl
  · exact dec 1 [bs.getD (off.toNat + 0) 0] byteValue rfl hin (by
      intro k hk; obtain rfl : k = 0 := by omega
      rfl)
  · have hm : (BitVec.ofNat 8 bit.val).toNat = bit.val := by simp; omega
    simp only [dfield, dflag, hm]
    rw [if_pos (by omega)]
    refine (dec 1 [bs.getD (off.toNat + 0) 0] (bitValue bit.val) rfl hin (by
      intro k hk; obtain rfl : k = 0 := by omega
      rfl)).trans ?_
    simp only [bitValue, flagOf_eq]
    rfl
  · exact dec 3 [bs.getD (off.toNat + 0) 0, bs.getD (off.toNat + 1) 0, bs.getD (off.toNat + 2) 0] counterValue rfl hin (by
      intro k hk; obtain rfl | rfl | rfl : k = 0 ∨ k = 1 ∨ k = 2 := by omega
      all_goals rfl)

/-! ## The attempts of WVERIFY (R226, R228) -/

/-- What every attempt of WVERIFY, and every step of a host read operation, leaves alone or counts. -/
structure Continues (s t : State) (frames longest : Nat) (sent : List SentItem) (rest : List LinkEvent) (ts : List Nat) :
    Prop where
  frame : t = { s with
    tx := t.tx, rx := t.rx, rxlen := t.rxlen, status := t.status, bt := t.bt, res := t.res, resv := t.resv,
    rc := t.rc, tTx := t.tTx, xcnt := t.xcnt, env := t.env }
  count : t.xcnt = s.xcnt + BitVec.ofNat 32 frames
  arrivals : t.env.arrivals = rest
  times : t.env.times = ts
  sends : Sends sent s t
  kept : KeptFrom 7 (max 2 longest) s t

theorem Continues.trans {s t u : State} {m n l l' : Nat} {is is' : List SentItem} {as as' : List LinkEvent}
    {ts ts' : List Nat} (h1 : Continues s t m l is as ts) (h2 : Continues t u n l' is' as' ts') :
    Continues s u (m + n) (max l l') (is ++ is') as' ts' where
  frame := by
    have e1 := h1.frame
    have e2 := h2.frame
    rw [e1] at e2
    exact e2
  count := by rw [h2.count, h1.count, BitVec.ofNat_add, BitVec.add_assoc]
  arrivals := h2.arrivals
  times := h2.times
  sends := by rw [Sends, h2.sends, h1.sends, List.append_assoc]
  kept := ⟨fun i hi => (h2.kept.1 i hi).trans (h1.kept.1 i hi),
    fun i hi => (h2.kept.2 i (by omega)).trans (h1.kept.2 i (by omega))⟩

theorem Continues.cfg {s t : State} {n l : Nat} {is : List SentItem} {as : List LinkEvent} {ts : List Nat}
    (h : Continues s t n l is as ts) : t.cfg = s.cfg := by rw [h.frame]

theorem Continues.ansTo {s t : State} {n l : Nat} {is : List SentItem} {as : List LinkEvent} {ts : List Nat}
    (h : Continues s t n l is as ts) : t.ansTo = s.ansTo := by rw [h.frame]

/-- An exchange writes TX[0..6], RX[0..1] and the reply. -/
theorem exchanged_kept (x : Exchange) (dest type off payload : Byte) (e : Env) (tTx : ClockWord) (s : State) :
    KeptFrom 7 (max 2 x.reply.length) s (exchanged x e tTx (buildFrame dest type off payload s)) := by
  refine ⟨fun i hi => ?_, fun i hi => ?_⟩
  · show (buildFrame dest type off payload s).tx.read i = s.tx.read i
    rw [buildFrame_read, if_neg (by omega)]
  · have h1 : ¬ i < x.reply.length := by omega
    simp only [exchanged, Memory.read_writeFrom, Nat.zero_add, Nat.zero_le, true_and, h1, ↓reduceIte]
    rw [Memory.read_write_other _ _ (by omega), Memory.read_write_other _ _ (by omega)]
    rfl

theorem continues_answered (x : Exchange) (dest type off payload : Byte) (e : Env) (tTx : ClockWord) (s : State)
    (sent : List SentItem) (h : e.sent.map (·.item) = s.env.sent.map (·.item) ++ sent) :
    Continues s (answered x dest type off payload e tTx s) 1 x.reply.length sent e.arrivals e.times :=
  ⟨rfl, rfl, rfl, rfl, h, exchanged_kept x dest type off payload e tTx s⟩

/-- A prompt script stays prompt in its parts. -/
theorem prompt_split {s : State} {m n : Nat} {ts : List Nat} (h : Prompt s (m + n) ts) :
    Prompt s m (ts.take (13 * m)) ∧ Prompt s n (ts.drop (13 * m)) := by
  obtain ⟨hl, h1, h2, h3⟩ := h
  have hs := spent_take_add_drop ts (13 * m)
  exact ⟨⟨by simp; omega, by omega, by omega, h3⟩, ⟨by simp; omega, by omega, by omega, h3⟩⟩

theorem prompt_congr {s t : State} {n : Nat} {ts : List Nat} (h : Prompt s n ts) (hc : t.cfg = s.cfg)
    (ha : t.ansTo = s.ansTo) : Prompt t n ts := by
  simpa only [Prompt, hc, ha] using h

/-- The confirming read, answered in time by a frame that holds the field (R228). -/
theorem confirm_answered (v : VerifyDesc) (r : ReadDesc) (x : Exchange) (rest : List LinkEvent) (ts ts' : List Nat)
    (s : State) (hr : s.cfg.cat.read.lookup v.rd = some r) (hd : r.dest.toNat ≤ 0x7F) (hx : x.Answers s.cfg r)
    (hin : FieldInside v.fs x.reply) (ha : s.env.arrivals = x.events ++ rest) (ht : s.env.times = ts ++ ts')
    (hp : Prompt s 1 ts) :
    ∃ t, Continues s t 1 x.reply.length (transmitted (readRequest s.cfg r)) rest ts' ∧
      Holds t.tx (readRequest s.cfg r) ∧ t.rxlen = x.reply.length ∧ (∀ i < x.reply.length, t.rx.read i = x.reply[i]?) ∧
      t.bt = .validated ∧ t.rc = s.rc ∧ confirm v s = .ok (succeedWith (fieldValue v.fs x.reply) t) := by
  obtain ⟨e, tTx, h1, h2, h3, hk⟩ := xread_answered v.rd r x rest ts ts' s hr hd hx ha ht hp
  refine ⟨answered x (readDest r.dest) r.type 0x00 r.len e tTx s, ?_, buildFrame_readRequest r s, rfl, ?_, rfl, rfl, ?_⟩
  · subst h1 h2
    exact continues_answered _ _ _ _ _ _ _ _ _ h3
  · exact fun i hi => exchanged_frame x e tTx _ i hi
  · simp only [confirm, hk, thenRun_done]
    exact dfield_value _ _ _ rfl (fun i hi => exchanged_frame x e tTx _ i hi) hin

/-- A failed attempt uses one up and, while the budget lasts, the next one starts (R226, R228). -/
theorem verifyLoop_failedAttempt (wd val : Byte) (v : VerifyDesc) (w : WriteDesc) (r : ReadDesc) (a : FailedAttempt)
    (budget : Nat) (rest : List LinkEvent) (ts ts' : List Nat) (s : State)
    (hw : s.cfg.cat.write.lookup wd = some w) (hwd : w.dest.toNat ≤ 0x7F)
    (hr : s.cfg.cat.read.lookup v.rd = some r) (hrd : r.dest.toNat ≤ 0x7F) (hf : a.Fails s.cfg val v r)
    (ha : s.env.arrivals = a.events ++ rest) (ht : s.env.times = ts ++ ts') (hp : Prompt s a.exchanges ts) :
    ∃ t c, Continues s t a.exchanges a.longest (a.sends s.cfg w val r) rest ts' ∧ t.rc = budget ∧
      verifyLoop wd val v (budget + 1) s =
        (if budget = 0 then .ok (fail c t) else verifyLoop wd val v budget t) ∧
      ((∃ x, a = .notAcknowledged x) ∧ c = .writeNotAcknowledged ∨ (∃ x y, a = .mismatched x y) ∧ c = .verifyMismatch) := by
  cases a with
  | notAcknowledged x =>
    obtain ⟨hx, hn⟩ := hf
    obtain ⟨e, tTx, h1, h2, h3, hk⟩ := xwrite_unacknowledged wd val w x rest ts ts' { s with rc := budget } hw hwd hx hn ha ht hp
    refine ⟨(fail .writeNotAcknowledged
        (exchanged x e tTx (buildFrame w.dest w.type w.woff val { s with rc := budget }))).state, .writeNotAcknowledged,
      ⟨rfl, rfl, h1, h2, h3, exchanged_kept x w.dest w.type w.woff val e tTx { s with rc := budget }⟩, rfl,
      ?_, .inl ⟨⟨x, rfl⟩, rfl⟩⟩
    simp only [verifyLoop, hk, fail, true_and]
    by_cases hb : budget = 0
    · simp [hb]
    · simp [hb, Nat.pos_of_ne_zero hb]
  | mismatched x y =>
    obtain ⟨hx, hy, hin, hne⟩ := hf
    obtain ⟨p1, p2⟩ := prompt_split (m := 1) (n := 1) hp
    have ha1 : s.env.arrivals = x.events ++ (y.events ++ rest) := by
      rw [ha]
      simp [FailedAttempt.events]
    have ht1 : s.env.times = ts.take (13 * 1) ++ (ts.drop (13 * 1) ++ ts') := by
      rw [ht, ← List.append_assoc, List.take_append_drop]
    obtain ⟨e, tTx, h1, h2, h3, hk⟩ := xwrite_acknowledged wd val w x (y.events ++ rest) _ _ { s with rc := budget } hw hwd hx
      ha1 ht1 p1
    obtain ⟨t, ct, -, hl, hb, -, hrc, hcf⟩ := confirm_answered v r y rest (ts.drop (13 * 1)) ts'
      (answered x w.dest w.type w.woff val e tTx { s with rc := budget }) hr hrd hy hin h1 h2 p2
    have c2 : Continues s (answered x w.dest w.type w.woff val e tTx { s with rc := budget }) 1 x.reply.length
      (transmitted (writeRequest s.cfg w val)) (y.events ++ rest) (ts.drop (13 * 1) ++ ts') :=
      ⟨rfl, rfl, h1, h2, h3, exchanged_kept x w.dest w.type w.woff val e tTx { s with rc := budget }⟩
    have c3 := c2.trans ct
    refine ⟨(succeedWith (fieldValue v.fs y.reply) t).state, .verifyMismatch,
      ⟨?_, c3.count, c3.arrivals, c3.times, c3.sends, c3.kept⟩, hrc, ?_, .inr ⟨⟨x, y, rfl⟩, rfl⟩⟩
    · have := c3.frame
      simp only [succeedWith]
      rw [this]
    · have hd : ¬ (succeedWith (fieldValue v.fs y.reply) t).state.res = expected v.expect val := hne
      simp only [verifyLoop, hk, hcf]
      simp only [succeedWith] at hd ⊢
      simp only [hd, ↓reduceIte]

end Sys2Proof.Machine
end

