-- ==== Sys2Proof/Laws/Fuel.lean ====
section
/-! SUPPORT. Why no wait is cut short by its fuel (R174, log entries 4 and 9): a measure of the clock reads
that can still find the deadline ahead. It is at most the fuel a wait is given, and every read that
finds the deadline ahead makes it smaller. -/

namespace Sys2Proof.Machine

/-- The elapsed time of a wait. -/
abbrev Env.elapsed (start : ClockWord) (e : Env) : Nat := (e.clock - start).toNat

/-- How many clock reads can still find the deadline ahead. -/
def waitMeasure (start : ClockWord) (dur : Nat) (e : Env) : Nat :=
  if e.times = [] ∧ e.elapsed start < dur then dur - e.elapsed start else e.times.length + dur + 1

theorem waitMeasure_le_fuel (start : ClockWord) (dur : Nat) (e : Env) : waitMeasure start dur e ≤ waitFuel dur e := by
  unfold waitMeasure waitFuel
  split <;> omega

theorem waitMeasure_pos (start : ClockWord) (dur : Nat) (e : Env) : 0 < waitMeasure start dur e := by
  unfold waitMeasure
  split <;> omega

/-- An unscripted read moves the clock by 1 to `2^30` ms. -/
theorem readAdvance_unscripted {e : Env} (h : e.times = []) : 1 ≤ e.readAdvance ∧ e.readAdvance ≤ 2 ^ 30 := by
  have := Nat.mod_lt (Config.freeTime e.timeDraws) (show 0 < 2 ^ 30 by decide)
  simp only [Env.readAdvance, h]
  omega

/-- The elapsed time after a read, modulo `2^32`. -/
theorem elapsed_now (start : ClockWord) (e : Env) :
    e.now.elapsed start = (e.elapsed start + e.readAdvance) % 2 ^ 32 := by
  have h : e.clock + BitVec.ofNat 32 e.readAdvance - start = (e.clock - start) + BitVec.ofNat 32 e.readAdvance := by
    simp only [BitVec.sub_eq_add_neg]
    ac_rfl
  simp only [Env.elapsed, EnvLaws.now_clock, h, BitVec.toNat_add, BitVec.toNat_ofNat, Nat.add_mod_mod]

/-- A read that finds the deadline ahead makes the measure smaller. -/
theorem waitMeasure_read (start : ClockWord) (dur : Nat) (hd : dur < 2 ^ 31) (e : Env) (h : e.now.elapsed start < dur) :
    waitMeasure start dur e.now < waitMeasure start dur e := by
  have ht := EnvLaws.now_times e
  have hx := elapsed_now start e
  have hlt := (e.clock - start).isLt
  by_cases hs : e.times = []
  · obtain ⟨h1, h2⟩ := readAdvance_unscripted hs
    simp only [hs, List.tail_nil] at ht
    simp only [waitMeasure, ht, h, hs, and_self, ↓reduceIte, true_and, List.length_nil]
    split
    · simp only [Env.elapsed] at *
      omega
    · omega
  · have hl : e.now.times.length + 1 = e.times.length := by
      rw [ht]
      cases hc : e.times with
      | nil => exact absurd hc hs
      | cons _ _ => simp
    simp only [waitMeasure, hs, false_and, ↓reduceIte]
    split <;> omega

/-- A read that finds the deadline past, after one that found it ahead or past: the next unscripted
read finds it past too, or the measure was not exceeded. -/
theorem waitMeasure_past (start : ClockWord) (dur : Nat) (hd : dur < 2 ^ 31) (e : Env) (h : dur ≤ e.now.elapsed start) :
    waitMeasure start dur e.now ≤ waitMeasure start dur e ∨ dur ≤ e.now.now.elapsed start := by
  have ht := EnvLaws.now_times e
  have hx := elapsed_now start e
  have hlt := (e.clock - start).isLt
  have hn : ¬ e.now.elapsed start < dur := by omega
  by_cases hs : e.times = []
  · obtain ⟨h1, h2⟩ := readAdvance_unscripted hs
    simp only [hs, List.tail_nil] at ht
    obtain ⟨h3, h4⟩ := readAdvance_unscripted ht
    have hx2 := elapsed_now start e.now
    by_cases hc : e.elapsed start < dur
    · right
      simp only [Env.elapsed] at *
      omega
    · left
      simp only [waitMeasure, ht, hs, hn, hc, and_false, ↓reduceIte, Nat.le_refl]
  · left
    have hl : e.now.times.length + 1 = e.times.length := by
      rw [ht]
      cases hc : e.times with
      | nil => exact absurd hc hs
      | cons _ _ => simp
    simp only [waitMeasure, hs, false_and, ↓reduceIte, hn, and_false]
    omega

/-- Looking at the link does not change the measure. -/
theorem waitMeasure_congr {start : ClockWord} {dur : Nat} {e e' : Env} (ht : e'.times = e.times) (hc : e'.clock = e.clock) :
    waitMeasure start dur e' = waitMeasure start dur e := by
  simp [waitMeasure, ht, hc, Env.elapsed]

/-! ## A wait gives up only when its deadline is over -/

theorem captureDrain_clock (mode : CaptureMode) (room n : Nat) (u : LinkUnit) (s : State) :
    (captureDrain mode room n u s).env.times = s.env.times ∧ (captureDrain mode room n u s).env.clock = s.env.clock := by
  induction room generalizing n u s with
  | zero => unfold captureDrain; dsimp only; split <;> (try split) <;> exact ⟨rfl, rfl⟩
  | succ room ih =>
    have h1 := EnvLaws.poll_times s.env
    have h2 := EnvLaws.poll_clock s.env
    unfold captureDrain
    dsimp only
    split
    · exact ⟨rfl, rfl⟩
    · split
      · exact ⟨rfl, rfl⟩
      · split
        · rename_i e he
          rw [he] at h1 h2
          exact ⟨h1, h2⟩
        · rename_i v e he
          rw [he] at h1 h2
          obtain ⟨h3, h4⟩ := ih (n + 1) v { s with rx := s.rx.write n u.byte, rxlen := n + 1, env := e }
          exact ⟨h3.trans h1, h4.trans h2⟩

/-- A capture that stores nothing ends at a clock read that finds its deadline past; and after a capture
the measure has not grown, or the next clock read finds the deadline past. -/
theorem captureIdle_deadline (mode : CaptureMode) (start : ClockWord) (dur : Nat) (hd : dur < 2 ^ 31) (fuel : Nat)
    (s : State) (hf : waitMeasure start dur s.env ≤ fuel) :
    ((captureIdle mode start dur fuel s).rxlen = 0 → dur ≤ (captureIdle mode start dur fuel s).env.elapsed start) ∧
      (waitMeasure start dur (captureIdle mode start dur fuel s).env ≤ waitMeasure start dur s.env ∨
        dur ≤ (captureIdle mode start dur fuel s).env.now.elapsed start) := by
  induction fuel generalizing s with
  | zero => have := waitMeasure_pos start dur s.env; omega
  | succ fuel ih =>
    have hx : s.env.expired start dur = (decide (dur ≤ s.env.now.elapsed start), s.env.now) := rfl
    rw [captureIdle, hx]
    by_cases hc : dur ≤ s.env.now.elapsed start
    · simp only [hc, decide_true]
      exact ⟨fun _ => trivial, waitMeasure_past start dur hd s.env hc⟩
    · have hm := waitMeasure_read start dur hd s.env (by omega)
      have onward : ∀ e : Env, e.times = s.env.now.times → e.clock = s.env.now.clock →
          waitMeasure start dur e = waitMeasure start dur s.env.now := fun e h1 h2 => waitMeasure_congr h1 h2
      have h1 := EnvLaws.poll_times s.env.now
      have h2 := EnvLaws.poll_clock s.env.now
      have go : ∀ e : Env, e.times = s.env.now.times → e.clock = s.env.now.clock →
          ((captureIdle mode start dur fuel { s with env := e }).rxlen = 0 →
            dur ≤ (captureIdle mode start dur fuel { s with env := e }).env.elapsed start) ∧
          (waitMeasure start dur (captureIdle mode start dur fuel { s with env := e }).env ≤ waitMeasure start dur s.env ∨
            dur ≤ (captureIdle mode start dur fuel { s with env := e }).env.now.elapsed start) := by
        intro e h1 h2
        have he := onward e h1 h2
        obtain ⟨a, b⟩ := ih { s with env := e } (by simp only []; omega)
        exact ⟨a, b.imp (fun b => by simp only [] at b; omega) id⟩
      simp only [hc, decide_false]
      split
      · rename_i e he
        rw [he] at h1 h2
        exact go e h1 h2
      · rename_i u e he
        rw [he] at h1 h2
        split
        · exact go e h1 h2
        · obtain ⟨d1, d2⟩ := captureDrain_clock mode (s.cfg.rxMax - 1) 0 u { s with env := e }
          have stored := (captureDrain_captured mode (s.cfg.rxMax - 1) 0 u { s with env := e }
            (by have := s.cfg.rxMax_ge; simp only []; omega) (fun i hi => absurd hi (Nat.not_lt_zero i))).2.1
          have he := onward e h1 h2
          exact ⟨fun h => by omega, .inl (by rw [waitMeasure_congr d1 d2]; simp only []; omega)⟩

theorem capture_deadline (mode : CaptureMode) (start : ClockWord) (dur : Nat) (hd : dur < 2 ^ 31) (s : State) :
    ((capture mode start dur s).rxlen = 0 → dur ≤ (capture mode start dur s).env.elapsed start) ∧
      (waitMeasure start dur (capture mode start dur s).env ≤ waitMeasure start dur s.env ∨
        dur ≤ (capture mode start dur s).env.now.elapsed start) :=
  captureIdle_deadline mode start dur hd _ s (waitMeasure_le_fuel start dur s.env)

/-- AWAIT's loop gives up only at a clock read that finds the deadline past (R172). -/
theorem awaitLoop_deadline (start : ClockWord) (dur : Nat) (hd : dur < 2 ^ 31) (fuel : Nat) (s : State)
    (hf : waitMeasure start dur s.env ≤ fuel) (hc : (awaitLoop start dur fuel s).cause ≠ none) :
    dur ≤ (awaitLoop start dur fuel s).state.env.elapsed start := by
  induction fuel generalizing s with
  | zero => have := waitMeasure_pos start dur s.env; omega
  | succ fuel ih =>
    have hx : (capture .poll start dur s).env.expired start dur =
      (decide (dur ≤ (capture .poll start dur s).env.now.elapsed start), (capture .poll start dur s).env.now) := rfl
    have hm := (capture_deadline .poll start dur hd s).2
    by_cases h : dur ≤ (capture .poll start dur s).env.now.elapsed start
    · simp only [awaitLoop, hx, h, decide_true] at hc ⊢
      split
      · rename_i hp; simp [hp, succeed] at hc
      · exact h
    · have hr := waitMeasure_read start dur hd _ (show (capture .poll start dur s).env.now.elapsed start < dur by omega)
      simp only [awaitLoop, hx, h, decide_false] at hc ⊢
      split
      · rename_i hp; simp [hp, succeed] at hc
      · rename_i hp
        exact ih _ (by simp only []; omega) (by simpa [hp] using hc)

/-- RECV's loop gives up only when the answer window is over (R195). -/
theorem recvLoop_deadline (start : ClockWord) (dur : Nat) (hd : dur < 2 ^ 31) (fuel : Nat) (s : State)
    (hf : waitMeasure start dur s.env ≤ fuel) (hc : (recvLoop start dur fuel s).cause ≠ none) :
    dur ≤ (recvLoop start dur fuel s).state.env.elapsed start := by
  induction fuel generalizing s with
  | zero => have := waitMeasure_pos start dur s.env; omega
  | succ fuel ih =>
    have hx : s.env.expired start dur = (decide (dur ≤ s.env.now.elapsed start), s.env.now) := rfl
    have h1 := EnvLaws.avail_times s.env.now
    have h2 := EnvLaws.avail_clock s.env.now
    by_cases h : dur ≤ s.env.now.elapsed start
    · simp only [recvLoop, hx, h, decide_true] at hc ⊢
      exact h
    · have hm := waitMeasure_read start dur hd s.env (by omega)
      simp only [recvLoop, hx, h, decide_false] at hc ⊢
      split
      · rename_i e he
        simp only [he, recvCapture] at hc ⊢
        split
        · rename_i h0
          exact (capture_deadline .frame start dur hd { s with env := e }).1 h0
        · rename_i h0
          simp [h0, succeedWith] at hc
      · rename_i e he
        rw [he] at h1 h2
        have hw := waitMeasure_congr (start := start) (dur := dur) (e := s.env.now) (e' := e) h1 h2
        exact ih _ (by simp only []; omega) (by simpa [he] using hc)

end Sys2Proof.Machine
end

