-- ==== Sys2Proof/Laws/Invariant.lean ====
section
/-! SUPPORT. Every block command keeps the invariant: one lemma per command. -/

namespace Sys2Proof.Machine

/-- Whatever `r` ends in meets the invariant. -/
def KeepsInv (r : Except Fault Ended) : Prop := ∀ e, r = .ok e → Inv e.state

theorem KeepsInv.ok {e : Ended} (h : Inv e.state) : KeepsInv (.ok e) := fun _ he => by cases he; exact h

theorem KeepsInv.error (f : Fault) : KeepsInv (.error f) := fun _ he => by cases he

theorem KeepsInv.thenRun {r : Except Fault Ended} {k : State → Except Fault Ended} (hr : KeepsInv r)
    (hk : ∀ s, Inv s → KeepsInv (k s)) : KeepsInv (thenRun r k) := by
  intro e he
  obtain ⟨s, hs, hks⟩ | ⟨c, -, hc⟩ := thenRun_cases he
  · exact hk s (hr _ hs) e hks
  · exact hr e hc

theorem statusFail_legal (c : Cause) : statusLegal (statusFail c) = true := by cases c <;> decide +kernel

theorem statusOk_legal : statusLegal statusOk = true := by decide +kernel

/-- The outcome registers are free of the invariant but for STATUS. -/
theorem Inv.withOutcome {s : State} (h : Inv s) {w : BitVec 8} (hw : statusLegal w = true) (v : Int) (b : Bool) :
    Inv { s with status := w, res := v, resv := b } :=
  ⟨⟨h.1.1, h.1.2, h.1.3, h.1.4, h.1.5, h.1.6, h.1.7⟩, ⟨hw, h.2.2, h.2.3, h.2.4⟩, ⟨h.3.1, h.3.2, h.3.3, h.3.4⟩⟩

theorem Inv.succeed {s : State} (h : Inv s) : Inv (succeed s).state := h.withOutcome statusOk_legal s.res s.resv

theorem Inv.succeedWith {s : State} (h : Inv s) (v : Int) : Inv (succeedWith v s).state :=
  h.withOutcome statusOk_legal v true

theorem Inv.fail {s : State} (h : Inv s) (c : Cause) : Inv (fail c s).state :=
  h.withOutcome (statusFail_legal c) s.res false

theorem Inv.markValidated {s : State} (h : Inv s) : Inv (markValidated s) := by
  unfold Sys2Proof.Machine.markValidated
  split
  · rename_i hb
    exact ⟨⟨h.1.1, h.1.2, h.1.3, h.1.4, h.1.5, h.1.6, h.1.7⟩, ⟨h.2.1, h.2.2, h.2.3, h.2.4⟩,
      ⟨fun hc => absurd hc (by simp), fun _ => h.3.captured (.inl hb), fun hc => absurd hc (by simp), by simp⟩⟩
  · exact h

/-- The host's queue and reports, and the environment, are free of the invariant. -/
theorem Inv.withOutside {s : State} (h : Inv s) (e : Env) (p : HostPort) : Inv { s with env := e, host := p } :=
  ⟨⟨h.1.1, h.1.2, h.1.3, h.1.4, h.1.5, h.1.6, h.1.7⟩, ⟨h.2.1, h.2.2, h.2.3, h.2.4⟩, ⟨h.3.1, h.3.2, h.3.3, h.3.4⟩⟩

/-- Reset's buffers are in canonical form. -/
theorem reset_memory_wf : State.reset.tx.wf = true ∧ State.reset.rx.wf = true := ⟨rfl, rfl⟩

/-! ## The commands -/

theorem crcgen_inv {s : State} (h : Inv s) : KeepsInv (crcgen s) := by
  unfold crcgen
  split
  · exact .error _
  · rename_i v hv
    refine .ok (Inv.succeedWith ?_ _)
    have hw : s.tx ≠ [] := by
      rintro he
      simp [crcOf, he, Config.txFrame, readBytes, readByte] at hv
    refine ⟨⟨s.tx.write_wf 5 v h.1.1, s.tx.write_within _ 5 v h.1.2 (by decide), .inr fun i hi => ?_, h.1.4, h.1.5,
      h.1.6, h.1.7⟩, ⟨h.2.1, h.2.2, h.2.3, h.2.4⟩, ⟨h.3.1, h.3.2, h.3.3, h.3.4⟩⟩
    simp only [Memory.read_write]
    split
    · rfl
    · exact (h.1.3.resolve_left hw) i hi

theorem crcchk_inv {s : State} (h : Inv s) : KeepsInv (crcchk s) := by
  unfold crcchk
  split
  · exact .ok (h.succeedWith _)
  · split
    · exact .error _
    · exact .ok (h.succeedWith _)

theorem fvalid_inv {s : State} (h : Inv s) : KeepsInv (fvalid s) := by
  unfold fvalid
  split
  · exact .ok (h.fail _)
  · split
    · exact .error _
    · exact .ok (h.fail _)
    · exact .ok (h.markValidated.succeedWith _)

theorem buildFrame_inv {s : State} (h : Inv s) (dest type off payload : Byte) :
    Inv (buildFrame dest type off payload s) where
  buffers :=
    ⟨Memory.writeFrom_wf _ _ _ h.1.1, Memory.writeFrom_within _ _ _ _ h.1.2 (by simp [header, Config.txFrame]),
      .inr fun i hi => by
        have hi : i < 7 := hi
        rw [buildFrame_read, if_pos hi]
        simp [header, hi],
      h.1.4, h.1.5, h.1.6, h.1.7⟩
  registers := ⟨h.2.1, h.2.2, h.2.3, h.2.4⟩
  transport := ⟨nofun, nofun, nofun, nofun⟩

theorem encrd_inv {s : State} (h : Inv s) (dest type len : Byte) : Inv (encrd dest type len s).state := by
  unfold encrd
  split
  · exact (buildFrame_inv h _ _ _ _).succeed
  · exact h.fail _

theorem encwr_inv {s : State} (h : Inv s) (dest type woff val : Byte) : Inv (encwr dest type woff val s).state := by
  unfold encwr
  split
  · exact (buildFrame_inv h _ _ _ _).succeed
  · exact h.fail _

theorem pchkClass_inv {s : State} (h : Inv s) (k : ParamKind) (v : Byte) : Inv (pchkClass k v s).state := by
  obtain ⟨e, -⟩ | ⟨e, -⟩ := pchkClass_cases k v s
  · rw [e]; exact h.succeed
  · rw [e]; exact h.fail _

theorem pchk_inv {s : State} (h : Inv s) (kind value : Byte) : Inv (pchk kind value s).state := by
  unfold pchk
  split
  · exact pchkClass_inv h _ _
  · exact h.fail _

theorem decodeField_inv {s : State} (h : Inv s) (off width : Nat) (value : List Byte → Int) :
    KeepsInv (decodeField off width value s) := fun e he => by
  obtain ⟨v, rfl⟩ := decodeField_ok he
  exact h.succeedWith v

theorem du16_inv {s : State} (h : Inv s) (off sgn : Byte) : KeepsInv (du16 off sgn s) := by
  unfold du16
  split
  · exact decodeField_inv h _ _ _
  · exact .ok (h.fail _)

theorem dflag_inv {s : State} (h : Inv s) (off bit : Byte) : KeepsInv (dflag off bit s) := by
  unfold dflag
  split
  · exact decodeField_inv h _ _ _
  · exact .ok (h.fail _)

theorem tchk_inv {s : State} (h : Inv s) (type : Byte) : KeepsInv (tchk type s) := by
  unfold tchk
  split
  · exact .error _
  · split
    · exact .ok h.succeed
    · exact .ok (h.fail _)

theorem dack_inv {s : State} (h : Inv s) : KeepsInv (dack s) := by
  unfold dack
  split
  · exact .ok (h.fail _)
  · split
    · exact .error _
    · split
      · exact .ok h.markValidated.succeed
      · exact .ok (h.fail _)

theorem dfield_inv {s : State} (h : Inv s) (fs : FieldSpec) : KeepsInv (dfield fs s) := fun e he => by
  obtain ⟨v, rfl⟩ := dfield_ok he
  exact h.succeedWith v

theorem awaitTurn_inv {s : State} (h : Inv s) : Inv (awaitTurn s).state := by
  have a := awaitTurn_awaited s
  have hrx := s.cfg.rxMax_ge
  have hlen : (awaitTurn s).state.rxlen ≤ s.cfg.rxMax := a.short.trans (by omega)
  have hw := a.written
  have e := a.frame
  have form := a.form
  have within := a.within
  have ends := a.ends
  clear a
  generalize (awaitTurn s).state = t at *
  have hends : statusLegal t.status = true ∧ (t.bt = .transmitting → pollMatches t = true) ∧
      (t.bt = .transmitting ∨ t.bt = .idle) := by
    obtain ⟨-, h1, h2, h3, -⟩ | ⟨-, h1, h2, -⟩ := ends
    · exact ⟨by rw [h3]; exact statusOk_legal, fun _ => h2, .inl h1⟩
    · exact ⟨by rw [h2]; exact statusFail_legal _, fun hc => absurd (h1.symm.trans hc) (by simp), .inr h1⟩
  obtain ⟨h1, h2, h3⟩ := hends
  rw [e] at h2 hlen ⊢
  refine ⟨⟨h.1.1, h.1.2, h.1.3, form h.1.4, within h.1.5, hlen, hw⟩, ⟨h1, h.2.2, h.2.3, h.2.4⟩,
    ⟨h2, fun hc => ?_, fun hc => ?_, fun hc => ?_⟩⟩
  · obtain h3 | h3 := h3 <;> obtain hc | hc := hc <;> exact absurd (h3.symm.trans hc) (by simp)
  · obtain h3 | h3 := h3 <;> exact absurd (h3.symm.trans hc) (by simp)
  · obtain h3 | h3 := h3 <;> exact absurd (h3.symm.trans hc) (by simp)

theorem xmit_inv {s : State} (h : Inv s) : KeepsInv (xmit s) := by
  unfold xmit
  split
  · split
    · exact .error _
    · refine .ok (Inv.succeed ?_)
      exact ⟨⟨h.1.1, h.1.2, h.1.3, h.1.4, h.1.5, h.1.6, h.1.7⟩, ⟨h.2.1, h.2.2, h.2.3, h.2.4⟩,
        ⟨nofun, nofun, nofun, nofun⟩⟩
  · exact .ok (h.fail _)

theorem recv_inv {s : State} (h : Inv s) : Inv (recv s).state := by
  by_cases hb : s.bt = .awaitingReply
  · have r := recv_received s hb
    have hw := r.written
    have hlen := r.bound
    have e := r.frame
    have form := r.form
    have within := r.within
    have ends := r.ends
    clear r
    generalize (recv s).state = t at *
    have hends : statusLegal t.status = true ∧
        (t.bt = .replyCaptured ∧ 1 ≤ t.rxlen ∨ t.bt = .timedOut ∧ t.rxlen = 0) := by
      obtain ⟨-, h1, h2, -, h3, -⟩ | ⟨-, h1, h2, h3, -⟩ := ends
      · exact ⟨by rw [h3]; exact statusOk_legal, .inl ⟨h1, h2⟩⟩
      · exact ⟨by rw [h3]; exact statusFail_legal _, .inr ⟨h1, h2⟩⟩
    obtain ⟨h1, h2⟩ := hends
    rw [e]
    refine ⟨⟨h.1.1, h.1.2, h.1.3, form h.1.4, within h.1.5, hlen, hw⟩, ⟨h1, h.2.2, h.2.3, h.2.4⟩,
      ⟨fun hc => ?_, fun hc => ?_, fun hc => ?_, fun hc => ?_⟩⟩
    · obtain ⟨h2, -⟩ | ⟨h2, -⟩ := h2 <;> exact absurd (h2.symm.trans hc) (by simp)
    · obtain ⟨-, h2⟩ | ⟨h2, -⟩ := h2
      · exact h2
      · obtain hc | hc := hc <;> exact absurd (h2.symm.trans hc) (by simp)
    · obtain ⟨h2, -⟩ | ⟨-, h2⟩ := h2
      · exact absurd (h2.symm.trans hc) (by simp)
      · exact h2
    · obtain ⟨h2, -⟩ | ⟨h2, -⟩ := h2 <;> exact absurd (h2.symm.trans hc) (by simp)
  · rw [recv_interlock s hb]
    exact h.fail _

theorem setto_inv {s : State} (h : Inv s) (value : Byte) : Inv (setto value s).state := by
  unfold setto
  split
  · rename_i hv
    simp only [paramLegal, Bool.and_eq_true, decide_eq_true_eq] at hv
    refine Inv.succeedWith ?_ _
    exact ⟨⟨h.1.1, h.1.2, h.1.3, h.1.4, h.1.5, h.1.6, h.1.7⟩, ⟨h.2.1, hv.1, h.2.3, h.2.4⟩, ⟨h.3.1, h.3.2, h.3.3, h.3.4⟩⟩
  · exact h.fail _

theorem readExchange_inv {s : State} (h : Inv s) (r : ReadDesc) : KeepsInv (readExchange r s) :=
  .thenRun (.ok (encrd_inv h _ _ _)) fun _ h =>
  .thenRun (.ok (awaitTurn_inv h)) fun _ h =>
  .thenRun (xmit_inv h) fun _ h =>
  .thenRun (.ok (recv_inv h)) fun _ h =>
  .thenRun (fvalid_inv h) fun _ h =>
  .thenRun (tchk_inv h _) fun _ h => .ok (h.succeedWith _)

theorem writeExchange_inv {s : State} (h : Inv s) (w : WriteDesc) (val : Byte) : KeepsInv (writeExchange w val s) :=
  .thenRun (.ok (encwr_inv h _ _ _ _)) fun _ h =>
  .thenRun (.ok (awaitTurn_inv h)) fun _ h =>
  .thenRun (xmit_inv h) fun _ h =>
  .thenRun (.ok (recv_inv h)) fun _ h =>
  .thenRun (dack_inv h) fun _ h => .ok (h.succeedWith _)

theorem xread_inv {s : State} (h : Inv s) (rd : Byte) : KeepsInv (xread rd s) := by
  unfold xread
  split
  · exact .error _
  · exact readExchange_inv h _

theorem xwrite_inv {s : State} (h : Inv s) (wd val : Byte) : KeepsInv (xwrite wd val s) := by
  unfold xwrite
  split
  · exact .error _
  · exact writeExchange_inv h _ _

theorem confirm_inv {s : State} (h : Inv s) (v : VerifyDesc) : KeepsInv (confirm v s) :=
  .thenRun (xread_inv h _) fun _ h => dfield_inv h _

end Sys2Proof.Machine
end

