-- ==== Sys2Proof/Laws/Operations.lean ====
section
/-! SUPPORT. What the commands inside WVERIFY leave of its attempt counter, and that the sequencer's
loop and the host operations keep the invariant. -/

namespace Sys2Proof.Machine

/-- `r` ends with the attempt counter and the parameters `s` had. -/
def KeepsBudget (s : State) (r : Except Fault Ended) : Prop :=
  ∀ e, r = .ok e → e.state.rc = s.rc ∧ e.state.cfg = s.cfg

theorem KeepsBudget.thenRun {s} {r : Except Fault Ended} {k} (h : KeepsBudget s r)
    (hk : ∀ t, r = .ok ⟨none, t⟩ → KeepsBudget t (k t)) : KeepsBudget s (thenRun r k) := by
  intro e he
  obtain ⟨t, ht, hkt⟩ | ⟨c, -, hc⟩ := thenRun_cases he
  · have a := h _ ht; have b := hk t ht _ hkt; exact ⟨b.1.trans a.1, b.2.trans a.2⟩
  · exact h _ hc

theorem awaitTurn_budget (s) : KeepsBudget s (.ok (awaitTurn s)) := fun e he => by
  cases he; rw [(awaitTurn_awaited s).frame]; exact ⟨rfl, rfl⟩

theorem recv_budget (s) : KeepsBudget s (.ok (recv s)) := fun e he => by
  cases he
  by_cases h : s.bt = .awaitingReply
  · rw [(recv_received s h).frame]; exact ⟨rfl, rfl⟩
  · rw [recv_interlock s h]; exact ⟨rfl, rfl⟩

theorem xmit_budget (s) : KeepsBudget s (xmit s) := fun e he => by
  unfold xmit at he
  split at he
  · split at he <;> cases he; exact ⟨rfl, rfl⟩
  · cases he; exact ⟨rfl, rfl⟩

theorem encrd_budget (a b c s) : KeepsBudget s (.ok (encrd a b c s)) := fun e he => by
  cases he; unfold encrd; split <;> exact ⟨rfl, rfl⟩

theorem encwr_budget (a b c d s) : KeepsBudget s (.ok (encwr a b c d s)) := fun e he => by
  cases he; unfold encwr; split <;> exact ⟨rfl, rfl⟩

theorem fvalid_budget (s) : KeepsBudget s (fvalid s) := fun e he => by
  unfold fvalid at he
  split at he
  · cases he; exact ⟨rfl, rfl⟩
  · split at he <;> cases he
    · exact ⟨rfl, rfl⟩
    · rw [markValidated_eq]; exact ⟨rfl, rfl⟩

theorem tchk_budget (t s) : KeepsBudget s (tchk t s) := fun e he => by
  unfold tchk at he
  split at he
  · cases he
  · split at he <;> cases he <;> exact ⟨rfl, rfl⟩

theorem dack_budget (s) : KeepsBudget s (dack s) := fun e he => by
  unfold dack at he
  split at he
  · cases he; exact ⟨rfl, rfl⟩
  · split at he
    · cases he
    · split at he <;> cases he
      · rw [markValidated_eq]; exact ⟨rfl, rfl⟩
      · exact ⟨rfl, rfl⟩

theorem dfield_budget (f s) : KeepsBudget s (dfield f s) := fun e he => by
  obtain ⟨v, rfl⟩ := dfield_ok he; exact ⟨rfl, rfl⟩

theorem xread_budget (rd s) : KeepsBudget s (xread rd s) := by
  unfold xread; split
  · intro e he; cases he
  · exact .thenRun (encrd_budget _ _ _ _) fun _ _ =>
      .thenRun (awaitTurn_budget _) fun _ _ =>
      .thenRun (xmit_budget _) fun _ _ =>
      .thenRun (recv_budget _) fun _ _ =>
      .thenRun (fvalid_budget _) fun _ _ =>
      .thenRun (tchk_budget _ _) fun _ _ =>
      fun e he => by cases he; exact ⟨rfl, rfl⟩

theorem xwrite_budget (wd v s) : KeepsBudget s (xwrite wd v s) := by
  unfold xwrite; split
  · intro e he; cases he
  · exact .thenRun (encwr_budget _ _ _ _ _) fun _ _ =>
      .thenRun (awaitTurn_budget _) fun _ _ =>
      .thenRun (xmit_budget _) fun _ _ =>
      .thenRun (recv_budget _) fun _ _ =>
      .thenRun (dack_budget _) fun _ _ =>
      fun e he => by cases he; exact ⟨rfl, rfl⟩

theorem confirm_budget (v s) : KeepsBudget s (confirm v s) := .thenRun (xread_budget _ _) fun _ _ => dfield_budget _ _

theorem Inv.withRc {s : State} (h : Inv s) (n) (hn : n ≤ s.cfg.retryMax) : Inv { s with rc := n } :=
  ⟨⟨h.1.1, h.1.2, h.1.3, h.1.4, h.1.5, h.1.6, h.1.7⟩, ⟨h.2.1, h.2.2, hn, h.2.4⟩,
    ⟨h.3.1, h.3.2, h.3.3, h.3.4⟩⟩

theorem verifyLoop_inv (wd val v) (b : Nat) :
    ∀ s : State, Inv s → b ≤ s.cfg.retryMax → KeepsInv (verifyLoop wd val v b s) := by
  induction b with
  | zero => intro s h _; exact .ok (h.fail _)
  | succ b ih =>
    intro s h hb
    have h1 := xwrite_inv (Inv.withRc h b (by omega)) wd val
    have r1 := xwrite_budget wd val { s with rc := b }
    unfold verifyLoop
    split
    · exact .error _
    · rename_i c t ht
      split
      · exact ih t (h1 _ ht) (by rw [(r1 _ ht).2]; show b ≤ s.cfg.retryMax; omega)
      · exact .ok (h1 _ ht)
    · rename_i t ht
      have h2 := confirm_inv (h1 _ ht) v
      have r2 := confirm_budget v t
      split
      · exact .error _
      · rename_i c u hu; exact .ok (h2 _ hu)
      · rename_i u hu
        have hu' := h2 _ hu
        split
        · exact .ok (hu'.withOutcome statusOk_legal _ _)
        · split
          · exact .ok (hu'.fail _)
          · exact ih u hu' (by rw [(r2 _ hu).2, (r1 _ ht).2]; show b ≤ s.cfg.retryMax; omega)

theorem wverify_inv (wd val vd) (s : State) (h : Inv s) : KeepsInv (wverify wd val vd s) := by
  unfold wverify
  split
  · exact .error _
  · split
    · exact .error _
    · split
      · exact .error _
      · exact verifyLoop_inv _ _ _ _ s h (Nat.le_refl _)

theorem report_inv {s} (h : Inv s) (r) : Inv (report r s) := h.withOutside s.env _

theorem reportEnd_inv (n e) (h : Inv (e : Ended).state) : Inv (reportEnd n e) := by
  unfold reportEnd; split <;> exact report_inv h _

/-! ## result[name] <- RES (R234) -/

theorem assign_lookup (acc : List (String × Int)) (name n : String) (v : Int) :
    (assign acc name v).lookup n = if n = name then some v else acc.lookup n := by
  induction acc with
  | nil => by_cases hn : n = name <;> simp [assign, List.lookup_cons, hn, beq_false_of_ne]
  | cons p acc ih =>
    obtain ⟨m, w⟩ := p
    simp only [assign]
    split <;> rename_i h
    · subst h
      by_cases hn : n = m <;> simp [List.lookup_cons, hn, beq_false_of_ne]
    · by_cases hn : n = m
      · subst hn; simp [h]
      · simp [List.lookup_cons, hn, beq_false_of_ne, ih]

theorem assign_names (acc : List (String × Int)) (name : String) (v : Int) :
    (assign acc name v).map Prod.fst = if name ∈ acc.map Prod.fst then acc.map Prod.fst
      else acc.map Prod.fst ++ [name] := by
  induction acc with
  | nil => rfl
  | cons p acc ih =>
    obtain ⟨m, w⟩ := p
    simp only [assign]
    split <;> rename_i h
    · simp [h]
    · simp only [List.map_cons, ih, List.mem_cons, Ne.symm h, false_or]
      split <;> simp

/-- No name is reported twice. -/
theorem assign_nodup (acc : List (String × Int)) (name : String) (v : Int) (h : (acc.map Prod.fst).Nodup) :
    ((assign acc name v).map Prod.fst).Nodup := by
  rw [assign_names]
  split
  · exact h
  · rename_i hn
    rw [List.nodup_append]
    refine ⟨h, by simp, fun a ha b hb => ?_⟩
    rw [List.mem_singleton] at hb
    subst hb
    rintro rfl
    exact hn ha

/-- The assignments of these pairs, in order, leave under each name the last value assigned to it. -/
theorem assignAll_lookup (pairs acc : List (String × Int)) (n : String) :
    (pairs.foldl (fun a p => assign a p.1 p.2) acc).lookup n = (pairs.reverse.lookup n).or (acc.lookup n) := by
  induction pairs generalizing acc with
  | nil => rfl
  | cons p pairs ih =>
    obtain ⟨m, w⟩ := p
    rw [List.foldl_cons, ih, List.reverse_cons, List.lookup_append, assign_lookup]
    by_cases hn : n = m <;> cases pairs.reverse.lookup n <;> simp [List.lookup_cons, hn, beq_false_of_ne]

theorem assignAll_nodup (pairs acc : List (String × Int)) (h : (acc.map Prod.fst).Nodup) :
    ((pairs.foldl (fun a p => assign a p.1 p.2) acc).map Prod.fst).Nodup := by
  induction pairs generalizing acc with
  | nil => exact h
  | cons p pairs ih => exact ih _ (assign_nodup acc p.1 p.2 h)

theorem decodeNamed_inv (fs) : ∀ acc s p, Inv s → decodeNamed fs acc s = .ok p → Inv p.2 := by
  induction fs with
  | nil => intro acc s p h hp; cases hp; exact h
  | cons f fs ih =>
    intro acc s p h hp
    obtain ⟨n, f⟩ := f
    simp only [decodeNamed] at hp
    split at hp
    · cases hp
    · rename_i e he; exact ih _ _ _ (dfield_inv h f _ he) hp

theorem runReadSteps_inv (steps) : ∀ acc s t, Inv s → runReadSteps steps acc s = .ok t → Inv t := by
  induction steps with
  | nil => intro acc s t h ht; cases ht; exact report_inv h _
  | cons st steps ih =>
    intro acc s t h ht
    simp only [runReadSteps] at ht
    split at ht
    · cases ht
    · rename_i c u hu; cases ht; exact report_inv (xread_inv h _ _ hu) _
    · rename_i u hu
      split at ht
      · cases ht
      · rename_i a w hw; exact ih _ _ _ (decodeNamed_inv _ _ _ _ (xread_inv h _ _ hu) hw) ht

theorem checkParams_inv (ps) : ∀ acc s, Inv s → Inv (checkParams ps acc s).2 := by
  induction ps with
  | nil => intro acc s h; exact h
  | cons p ps ih =>
    intro acc s h
    obtain ⟨k, p⟩ := p
    simp only [checkParams]
    split
    · exact h
    · rename_i v hv
      have := pchkClass_inv h k v
      split <;> rename_i hh <;> rw [hh] at this
      · exact ih _ _ this
      · exact this

theorem writeOperation_inv (c n ps v r s t) (h : Inv s) (ht : writeOperation c n ps v r s = .ok t) : Inv t := by
  have hv : Inv (validated ps s).2 := by unfold validated; split; exact checkParams_inv _ _ _ h; exact h
  unfold writeOperation at ht
  split at ht <;> rename_i hh <;> rw [hh] at hv
  · cases ht; exact report_inv hv _
  · split at ht
    · cases ht
    · split at ht
      · cases ht
      · rename_i e he; cases ht; exact reportEnd_inv _ _ (wverify_inv _ _ _ _ hv _ he)

theorem timeoutOperation_inv (v s) (h : Inv s) : Inv (timeoutOperation v s) := by
  unfold timeoutOperation; split
  · exact report_inv h _
  · exact reportEnd_inv _ _ (setto_inv h _)

end Sys2Proof.Machine
end

