-- ==== Sys2Proof/Laws/PerInstr.lean ====
section
/-! SUPPORT. Statements about every instruction, one lemma per constructor. The family Encoding: decoding
the encoding of a well-formed instruction gives it back (R80, R81, R82, R85). -/

namespace Sys2Proof.Laws.Encoding

/-- Decoding the encoding of a well-formed instruction gives it back. -/
def Statement (i : Instr) : Prop := i.wellFormed = true → decode (encode i) = .ok i

/-- One command: its row of the opcode map. -/
theorem of_row {i : Instr} {op a b c d : Byte} {mnemonic : String} {reserved : List Byte}
    (he : encode i = .command (commandWord op a b c d)) (hd : decodeFields op a b c d = accept mnemonic reserved i)
    (hr : ∀ r ∈ reserved, r = 0) : Statement i := fun hw => by
  rw [he, decode, decodeCommand_commandWord, hd, accept_of hr hw]

theorem crcgen : Statement .crcgen := of_row rfl rfl (by simp)
theorem crcchk : Statement .crcchk := of_row rfl rfl (by simp)
theorem fvalid : Statement .fvalid := of_row rfl rfl (by simp)
theorem encrd (dest type len : Byte) : Statement (.encrd dest type len) := of_row rfl rfl (by simp)
theorem encwr (dest type woff val : Byte) : Statement (.encwr dest type woff val) := of_row rfl rfl (by simp)
theorem pchk (kind value : Byte) : Statement (.pchk kind value) := of_row rfl rfl (by simp)
theorem dtype : Statement .dtype := of_row rfl rfl (by simp)
theorem tchk (type : Byte) : Statement (.tchk type) := of_row rfl rfl (by simp)
theorem du8 (off : Byte) : Statement (.du8 off) := of_row rfl rfl (by simp)
theorem du16 (off sgn : Byte) : Statement (.du16 off sgn) := of_row rfl rfl (by simp)
theorem dhalf (off : Byte) : Statement (.dhalf off) := of_row rfl rfl (by simp)
theorem dflag (off bit : Byte) : Statement (.dflag off bit) := of_row rfl rfl (by simp)
theorem du24 (off : Byte) : Statement (.du24 off) := of_row rfl rfl (by simp)
theorem dack : Statement .dack := of_row rfl rfl (by simp)
theorem await : Statement .await := of_row rfl rfl (by simp)
theorem xmit : Statement .xmit := of_row rfl rfl (by simp)
theorem recv : Statement .recv := of_row rfl rfl (by simp)
theorem setto (value : Byte) : Statement (.setto value) := of_row rfl rfl (by simp)
theorem xread (rd : Byte) : Statement (.xread rd) := of_row rfl rfl (by simp)
theorem xwrite (wd val : Byte) : Statement (.xwrite wd val) := of_row rfl rfl (by simp)
theorem wverify (wd val vd : Byte) : Statement (.wverify wd val vd) := of_row rfl rfl (by simp)
theorem op1 : Statement .op1 := fun _ => rfl
theorem op2 : Statement .op2 := fun _ => rfl
theorem op3 : Statement .op3 := fun _ => rfl
theorem op4 : Statement .op4 := fun _ => rfl
theorem op9 : Statement .op9 := fun _ => rfl
theorem op10 (circuit mode : HostParam) : Statement (.op10 circuit mode) := fun _ => rfl
theorem op11 (circuit mode temp : HostParam) : Statement (.op11 circuit mode temp) := fun _ => rfl
theorem op12 (temp : HostParam) : Statement (.op12 temp) := fun _ => rfl
theorem op13 (mode : HostParam) : Statement (.op13 mode) := fun _ => rfl
theorem op14 (mode : HostParam) : Statement (.op14 mode) := fun _ => rfl
theorem op20 : Statement .op20 := fun _ => rfl
theorem op21 (timezone : HostParam) : Statement (.op21 timezone) := fun _ => rfl
theorem op22 : Statement .op22 := fun _ => rfl
theorem op23 : Statement .op23 := fun _ => rfl
theorem op24 : Statement .op24 := fun _ => rfl
theorem op25 (value : HostParam) : Statement (.op25 value) := fun _ => rfl

end Sys2Proof.Laws.Encoding
end

