-- ==== Sys2Proof/Machine/Assembler.lean ====
section
/-! DEFINITION. The assembler syntax of R88: a block command is its mnemonic and its non-reserved
operands, separated by commas; a host operation is `OP<code>(<param>, ...)`; numbers are decimal or
`0x` hexadecimal. Text is a list of characters. -/

namespace Sys2Proof.Machine

/-! ## Writing -/

/-- How an instruction is written: its mnemonic, and its operands. -/
structure Line where
  mnemonic : List Char
  params : List HostParam
deriving DecidableEq, Repr

/-- The non-reserved operands of a block command, as written. -/
def byteOperands (bs : List Byte) : List HostParam := bs.map fun b => .num b.toNat

/-- The line that stands for an instruction. -/
def lineOf : Instr → Line
  | .crcgen => ⟨"CRCGEN".toList, []⟩
  | .crcchk => ⟨"CRCCHK".toList, []⟩
  | .fvalid => ⟨"FVALID".toList, []⟩
  | .encrd dest type len => ⟨"ENCRD".toList, byteOperands [dest, type, len]⟩
  | .encwr dest type woff val => ⟨"ENCWR".toList, byteOperands [dest, type, woff, val]⟩
  | .pchk kind value => ⟨"PCHK".toList, byteOperands [kind, value]⟩
  | .dtype => ⟨"DTYPE".toList, []⟩
  | .tchk type => ⟨"TCHK".toList, byteOperands [type]⟩
  | .du8 off => ⟨"DU8".toList, byteOperands [off]⟩
  | .du16 off sgn => ⟨"DU16".toList, byteOperands [off, sgn]⟩
  | .dhalf off => ⟨"DHALF".toList, byteOperands [off]⟩
  | .dflag off bit => ⟨"DFLAG".toList, byteOperands [off, bit]⟩
  | .du24 off => ⟨"DU24".toList, byteOperands [off]⟩
  | .dack => ⟨"DACK".toList, []⟩
  | .await => ⟨"AWAIT".toList, []⟩
  | .xmit => ⟨"XMIT".toList, []⟩
  | .recv => ⟨"RECV".toList, []⟩
  | .setto value => ⟨"SETTO".toList, byteOperands [value]⟩
  | .xread rd => ⟨"XREAD".toList, byteOperands [rd]⟩
  | .xwrite wd val => ⟨"XWRITE".toList, byteOperands [wd, val]⟩
  | .wverify wd val vd => ⟨"WVERIFY".toList, byteOperands [wd, val, vd]⟩
  | .op1 => ⟨"OP1".toList, []⟩
  | .op2 => ⟨"OP2".toList, []⟩
  | .op3 => ⟨"OP3".toList, []⟩
  | .op4 => ⟨"OP4".toList, []⟩
  | .op9 => ⟨"OP9".toList, []⟩
  | .op10 circuit mode => ⟨"OP10".toList, [circuit, mode]⟩
  | .op11 circuit mode temp => ⟨"OP11".toList, [circuit, mode, temp]⟩
  | .op12 temp => ⟨"OP12".toList, [temp]⟩
  | .op13 mode => ⟨"OP13".toList, [mode]⟩
  | .op14 mode => ⟨"OP14".toList, [mode]⟩
  | .op20 => ⟨"OP20".toList, []⟩
  | .op21 timezone => ⟨"OP21".toList, [timezone]⟩
  | .op22 => ⟨"OP22".toList, []⟩
  | .op23 => ⟨"OP23".toList, []⟩
  | .op24 => ⟨"OP24".toList, []⟩
  | .op25 value => ⟨"OP25".toList, [value]⟩

/-! ## Reading -/

/-- The instruction a line stands for; none when it names nothing or has the wrong operands. A
block operand is a number below 256; a host parameter may be anything (R235). -/
def instrOf (l : Line) : Option Instr :=
  let byte (n : Nat) (k : Byte → Instr) : Option Instr := if n < 256 then some (k (BitVec.ofNat 8 n)) else none
  let bytes2 (n m : Nat) (k : Byte → Byte → Instr) : Option Instr :=
    if n < 256 then byte m (k (BitVec.ofNat 8 n)) else none
  let bytes3 (n m o : Nat) (k : Byte → Byte → Byte → Instr) : Option Instr :=
    if n < 256 then bytes2 m o (k (BitVec.ofNat 8 n)) else none
  let is (name : String) : Bool := l.mnemonic == name.toList
  match l.params with
  | [] =>
    [Instr.crcgen, .crcchk, .fvalid, .dtype, .dack, .await, .xmit, .recv, .op1, .op2, .op3, .op4, .op9, .op20, .op22,
      .op23, .op24].find? fun i => lineOf i == l
  | [.num n] =>
    if is "TCHK" then byte n .tchk else if is "DU8" then byte n .du8 else if is "DHALF" then byte n .dhalf
    else if is "DU24" then byte n .du24 else if is "SETTO" then byte n .setto else if is "XREAD" then byte n .xread
    else hostOf1 (.num n)
  | [.malformed] => hostOf1 .malformed
  | [.num n, .num m] =>
    if is "PCHK" then bytes2 n m .pchk else if is "DU16" then bytes2 n m .du16
    else if is "DFLAG" then bytes2 n m .dflag else if is "XWRITE" then bytes2 n m .xwrite
    else hostOf2 (.num n) (.num m)
  | [p, q] => hostOf2 p q
  | [.num n, .num m, .num o] =>
    if is "ENCRD" then bytes3 n m o .encrd else if is "WVERIFY" then bytes3 n m o .wverify
    else hostOf3 (.num n) (.num m) (.num o)
  | [p, q, r] => hostOf3 p q r
  | [.num n, .num m, .num o, .num v] =>
    if is "ENCWR" then if n < 256 then bytes3 m o v (.encwr (BitVec.ofNat 8 n)) else none else none
  | _ => none
where
  /-- The host operations of one parameter. -/
  hostOf1 (p : HostParam) : Option Instr :=
    [Instr.op12 p, .op13 p, .op14 p, .op21 p, .op25 p].find? fun i => (lineOf i).mnemonic == l.mnemonic
  /-- The host operation of two parameters. -/
  hostOf2 (p q : HostParam) : Option Instr :=
    [Instr.op10 p q].find? fun i => (lineOf i).mnemonic == l.mnemonic
  /-- The host operation of three parameters. -/
  hostOf3 (p q r : HostParam) : Option Instr :=
    [Instr.op11 p q r].find? fun i => (lineOf i).mnemonic == l.mnemonic

/-- The value of a digit in base 16. -/
def digitValue (c : Char) : Option Nat :=
  if '0' ≤ c ∧ c ≤ '9' then some (c.toNat - '0'.toNat)
  else if 'a' ≤ c ∧ c ≤ 'f' then some (c.toNat - 'a'.toNat + 10)
  else if 'A' ≤ c ∧ c ≤ 'F' then some (c.toNat - 'A'.toNat + 10)
  else none

/-- Digits in a base, after those read so far. -/
def readDigits (base : Nat) : Nat → List Char → Option Nat
  | n, [] => some n
  | n, c :: cs =>
    match digitValue c with
    | some d => if d < base then readDigits base (n * base + d) cs else none
    | none => none

/-- A number, decimal or `0x` hexadecimal; text that is neither is malformed. -/
def readNumber (cs : List Char) : HostParam :=
  let value : Option Nat :=
    match cs with
    | '0' :: 'x' :: d :: ds => readDigits 16 0 (d :: ds)
    | d :: ds => readDigits 10 0 (d :: ds)
    | [] => none
  match value with
  | some n => .num n
  | none => .malformed

/-- Split at commas. -/
def splitCommas : List Char → List (List Char)
  | [] => [[]]
  | ',' :: cs => [] :: splitCommas cs
  | c :: cs =>
    match splitCommas cs with
    | [] => [[c]]
    | w :: ws => (c :: w) :: ws

/-- Read a line of text: spaces do not count, the mnemonic ends at the first space or bracket. -/
def readLine (text : List Char) : Line :=
  let name := text.takeWhile fun c => c != ' ' && c != '('
  let rest := (text.drop name.length).filter fun c => c != ' ' && c != '(' && c != ')'
  ⟨name, if rest = [] then [] else (splitCommas rest).map readNumber⟩

/-- Assemble one line of text to the request it stands for (R88). -/
def assemble (text : List Char) : Option Request := (instrOf (readLine text)).map encode

end Sys2Proof.Machine
end

