-- ==== Sys2Proof/Tests/Slice0.lean ====
section
/-! SUPPORT. The model's own tests. Expected results come from spec/95_test_vectors.md, from the
encodings of spec/30_encoding.md written out by hand, and from the worked examples of the rules. -/

namespace Sys2Proof.Tests

open Sys2Proof.Machine Sys2Proof.Spec

-- one test after the other: a thread of its own for each of them would need too much memory
set_option Elab.async false

/-! ## A small block: the example parameters of 00_scope.md R11 and 95_test_vectors.md L2.9, L3 -/

/-- An illustrative catalog (95_test_vectors.md L2.9, with maps for the host operations). -/
def exCat : Catalog where
  read := [(1, ⟨0x08, 0x18, 0x20⟩), (2, ⟨0x10, 0x3D, 0x0A⟩), (7, ⟨0x88, 0x18, 0x20⟩)]
  write := [(1, ⟨0x10, 0x3D, 0x07⟩)]
  verify := [(1, ⟨2, ⟨.u8, 11, 0⟩, ⟨[]⟩⟩)]
  readOp := [(1, ⟨⟨1, [("flame", ⟨.u16, 5, 0⟩), ("starts", ⟨.u24, 12, 0⟩)]⟩, []⟩),
    (2, ⟨⟨1, [("mode", ⟨.u8, 4, 0⟩)]⟩, []⟩), (3, ⟨⟨1, [("set point", ⟨.half, 15, 0⟩)]⟩, []⟩),
    (4, ⟨⟨1, [("outside", ⟨.s16, 9, 0⟩)]⟩, []⟩),
    (9, ⟨⟨1, [("hour", ⟨.u8, 13, 0⟩)]⟩, [⟨2, [("minute", ⟨.u8, 11, 0⟩)]⟩]⟩)]
  writeOp := [((10, [1, 2]), ⟨1, 1⟩), ((11, [2, 0]), ⟨1, 1⟩), ((12, []), ⟨1, 1⟩),
    ((13, []), ⟨1, 1⟩), ((14, []), ⟨1, 1⟩)]
  charge := [(1, 2)]

/-- Example parameters. -/
def exParams : Params where
  ctrlAddr := 0x0B
  idleFiller := 0x00
  ackByte := 0x01
  rxMax := 32
  txGap := 2
  pollTo := 1000
  ansToReset := 10
  retryMax := 3
  crcCarryIn := false
  rebootResets := false
  cat := exCat
  rxMax_ge := by decide +kernel
  retryMax_pos := by decide +kernel
  pollTo_lt := by decide +kernel
  ansToReset_legal := by decide +kernel

/-- A data unit. -/
def u (b : Byte) : LinkEvent := .arrived ⟨b, false⟩

/-- A boundary unit (`b!`). -/
def ub (b : Byte) : LinkEvent := .arrived ⟨b, true⟩

/-- The block right after reset, with the clock at 1000, this link and these time draws. -/
def ex (link : List LinkEvent) (times : List Nat) : State :=
  State.resetWith exParams ⟨1000, times, 0, link, 0, []⟩ []

/-- A buffer holding these bytes from index 0 on. -/
def buf (bs : List Byte) : Memory := Memory.writeFrom [] 0 bs

/-- A block whose last capture is these bytes. -/
def captured (bs : List Byte) : State := { ex [] [] with rx := buf bs, rxlen := bs.length, bt := .replyCaptured }

/-- The reply of program P1. -/
def p1Reply : List Byte :=
  [0x08, 0x0B, 0x18, 0x00, 0x2D, 0x01, 0xC2, 0x00, 0x00, 0xFF, 0x38, 0xA5, 0x01, 0x02, 0x03, 0x46, 0x98, 0x00]

/-- Some fields of a next state; none when the machine stops. -/
def look {α : Type} (o : Host.Outcome State Fault Refusal) (f : State → α) : Option α :=
  match o with
  | .next s => some (f s)
  | .fault _ => none
  | .refused _ => none

/-- The fault of an outcome. -/
def faultOf (o : Host.Outcome State Fault Refusal) : Option Fault :=
  match o with
  | .fault f => some f
  | .next _ => none
  | .refused _ => none

/-- The refusal of an outcome. -/
def refusalOf (o : Host.Outcome State Fault Refusal) : Option Refusal :=
  match o with
  | .refused r => some r
  | .next _ => none
  | .fault _ => none

/-- The bytes of a buffer in index order. -/
def bytesOf (m : Memory) : List Byte := m.map (·.2)

/-! ## Well-formedness refuses each ill-formed operand (R82) -/

theorem test_wf_encrd_dest : Instr.wellFormed (.encrd 0x80 0x18 0x20) = false := by decide +kernel
theorem test_wf_encwr_dest : Instr.wellFormed (.encwr 0xFF 0 0 0) = false := by decide +kernel
theorem test_wf_pchk_kind : Instr.wellFormed (.pchk 6 0) = false := by decide +kernel
theorem test_wf_du16_sgn : Instr.wellFormed (.du16 9 2) = false := by decide +kernel
theorem test_wf_dflag_bit : Instr.wellFormed (.dflag 11 8) = false := by decide +kernel
theorem test_wf_boundaries :
    [Instr.encrd 0x7F 0 0, .encwr 0x7F 0 0 0, .pchk 5 0, .du16 0 1, .dflag 0 7].all Instr.wellFormed = true := by
  decide +kernel

/-! ## Decoding: a word of every command, written out from R81 -/

theorem test_decode_checksum_words :
    [decodeTableWord 40 0x0100000000, decodeTableWord 40 0x0200000000, decodeTableWord 40 0x0300000000]
      = [some .crcgen, some .crcchk, some .fvalid] := by decide +kernel
theorem test_decode_encoder_words :
    [decodeTableWord 40 0x1008182000, decodeTableWord 40 0x11103D0746, decodeTableWord 40 0x1803510000]
      = [some (.encrd 0x08 0x18 0x20), some (.encwr 0x10 0x3D 0x07 0x46), some (.pchk 3 81)] := by decide +kernel
theorem test_decode_field_words :
    [decodeTableWord 40 0x2000000000, decodeTableWord 40 0x2118000000, decodeTableWord 40 0x2204000000,
      decodeTableWord 40 0x2309010000, decodeTableWord 40 0x240F000000, decodeTableWord 40 0x250B050000,
      decodeTableWord 40 0x260C000000, decodeTableWord 40 0x2700000000]
      = [some .dtype, some (.tchk 0x18), some (.du8 4), some (.du16 9 1), some (.dhalf 15), some (.dflag 11 5),
        some (.du24 12), some .dack] := by decide +kernel
theorem test_decode_transport_words :
    [decodeTableWord 40 0x3000000000, decodeTableWord 40 0x3100000000, decodeTableWord 40 0x3200000000]
      = [some .await, some .xmit, some .recv] := by decide +kernel
theorem test_decode_sequencer_words :
    [decodeTableWord 40 0x38FF000000, decodeTableWord 40 0x4001000000, decodeTableWord 40 0x4101020000,
      decodeTableWord 40 0x4201020300]
      = [some (.setto 255), some (.xread 1), some (.xwrite 1 2), some (.wverify 1 2 3)] := by decide +kernel
theorem test_decode_host_codes :
    [1, 2, 3, 4, 9, 12, 20, 22, 23, 24, 25].map (decodeTableWord 8)
      = [some .op1, some .op2, some .op3, some .op4, some .op9, some (.op12 (.num 0)), some .op20, some .op22,
        some .op23, some .op24, some (.op25 (.num 0))] := by decide +kernel
theorem test_decode_host_codes_with_parameters :
    [10, 11, 13, 14, 21].map (decodeTableWord 8)
      = [some (.op10 (.num 0) (.num 0)), some (.op11 (.num 0) (.num 0) (.num 0)), some (.op13 (.num 0)),
        some (.op14 (.num 0)), some (.op21 (.num 0))] := by decide +kernel
/-- 95_test_vectors.md L2.8 and L2.4, L2.5. -/
theorem test_decode_rejects :
    [0x0000000000, 0xFF00000000, 0x0100000001, 0x3001000000, 0x4101020001, 0x1080182000, 0x1806000000,
      0x2309020000, 0x250B080000].map (decodeTableWord 40) = List.replicate 9 none := by decide +kernel
/-- R86: codes 0, 5 to 8, 15 to 19 and 26 and above name nothing. -/
theorem test_decode_rejects_host_codes :
    [0, 5, 8, 15, 19, 26, 255].map (decodeTableWord 8) = List.replicate 7 none := by decide +kernel

/-! ## Checksum unit (95_test_vectors.md L2.1 to L2.3) -/

theorem test_crc_step_false :
    [crcStep false 0x80 0x00, crcStep false 0xFF 0x00, crcStep false 0x7F 0x00, crcStep false 0x8C 0x00,
      crcStep false 0xFF 0xFF] = [0x18, 0xE6, 0xFE, 0x00, 0x19] := by decide +kernel
theorem test_crc_step_true :
    [crcStep true 0x80 0x00, crcStep true 0xFF 0x00, crcStep true 0x7F 0x00, crcStep true 0x8C 0x00,
      crcStep true 0xFF 0xFF] = [0x19, 0xE7, 0xFE, 0x01, 0x18] := by decide +kernel
theorem test_crc_buffers :
    [crcBytes false [0x0B, 0x88, 0x18, 0x00, 0x20], crcBytes true [0x0B, 0x88, 0x18, 0x00, 0x20],
      crcBytes false [0xFF, 0xFF, 0xFF, 0xFF, 0xFF], crcBytes true [0xFF, 0xFF, 0xFF, 0xFF, 0xFF],
      crcBytes false [0x80, 0x80, 0x80], crcBytes true [0x80, 0x80, 0x80]]
      = [0xD0, 0xD4, 0x05, 0x0F, 0xA8, 0xAB] := by decide +kernel
theorem test_crcgen :
    look (exec .crcgen { ex [] [] with tx := buf [0x0B, 0x88, 0x18, 0x00, 0x20, 0x00, 0x00] })
      (fun s => (bytesOf s.tx, s.res, s.status)) = some ([0x0B, 0x88, 0x18, 0x00, 0x20, 0xD0, 0x00], 0xD0, 1) := by
  decide +kernel
theorem test_crcgen_after_reset : faultOf (exec .crcgen (ex [] [])) = some (.unwrittenRead .tx 0) := by decide +kernel
theorem test_crcchk_short :
    (look (exec .crcchk (captured [0x00, 0x00])) (·.res), look (exec .crcchk (captured [0x08, 0x0B, 0x1B, 0x00])) (·.res),
      look (exec .crcchk (ex [] [])) (fun s => (s.res, s.resv))) = (some 1, some 1, some (0, true)) := by decide +kernel
theorem test_fvalid :
    look (exec .fvalid (captured [0x08, 0x0B, 0x18, 0x2E, 0x55])) (fun s => (s.res, s.status, s.bt))
      = some (1, 1, .validated) := by decide +kernel
theorem test_fvalid_mismatch_and_short :
    (look (exec .fvalid (captured [0x08, 0x0B, 0x18, 0x2F, 0x00])) (fun s => (s.status, s.bt)),
      look (exec .fvalid (captured [0x08, 0x0B, 0x1B, 0x00])) (fun s => (s.status, s.bt)))
      = (some (0x08, .replyCaptured), some (0x08, .replyCaptured)) := by decide +kernel

/-! ## Encoder (95_test_vectors.md L2.4) -/

theorem test_encrd :
    look (exec (.encrd 0x7F 0xFF 0xFF) (ex [] [])) (fun s => (bytesOf s.tx, s.bt, s.status))
      = some ([0x0B, 0xFF, 0xFF, 0x00, 0xFF, 0x2B, 0x00], .idle, 1) := by decide +kernel
theorem test_encrd_wide_address :
    look (exec (.encrd 0x80 0x18 0x20) (ex [] [])) (fun s => (s.tx, s.status)) = some ([], 0x10) := by decide +kernel
theorem test_encwr :
    look (exec (.encwr 0x08 0x33 0x02 0x3C) (ex [] [])) (fun s => bytesOf s.tx)
      = some [0x0B, 0x08, 0x33, 0x02, 0x3C, 0x04, 0x00] := by decide +kernel
theorem test_pchk_legal :
    [(0, 2), (1, 2), (2, 1), (3, 80), (4, 80), (5, 255)].map
      (fun kv => look (exec (.pchk kv.1 kv.2) (ex [] [])) (·.status)) = List.replicate 6 (some 0x01) := by decide +kernel
theorem test_pchk_rejected :
    [(0, 3), (1, 3), (2, 2), (3, 81), (4, 81), (5, 0)].map
      (fun kv => look (exec (.pchk kv.1 kv.2) (ex [] [])) (·.status)) = List.replicate 6 (some 0x02) := by decide +kernel

/-! ## Field decoder (95_test_vectors.md L2.5) -/

theorem test_dtype : look (exec .dtype (captured p1Reply)) (·.res) = some 0x18 := by decide +kernel
theorem test_tchk :
    (look (exec (.tchk 0x18) (captured p1Reply)) (·.status), look (exec (.tchk 0x19) (captured p1Reply)) (·.status))
      = (some 0x01, some 0x0A) := by decide +kernel
theorem test_du8 :
    (look (exec (.du8 15) (captured p1Reply)) (·.res), faultOf (exec (.du8 16) (captured p1Reply)))
      = (some 70, some (.fieldOutsideFrame 16 1 18)) := by decide +kernel
theorem test_du16 :
    (look (exec (.du16 9 1) (captured p1Reply)) (·.res), look (exec (.du16 9 0) (captured p1Reply)) (·.res),
      faultOf (exec (.du16 15 0) (captured p1Reply))) = (some (-200), some 65336, some (.fieldOutsideFrame 15 2 18)) := by
  decide +kernel
theorem test_dhalf : look (exec (.dhalf 15) (captured p1Reply)) (·.res) = some 70 := by decide +kernel
/-- 95_test_vectors.md L1.3, with the correction of 90_conflicts.md C2. -/
theorem test_dflag :
    [0, 1, 2, 3, 4, 5, 6, 7].map (fun i => look (exec (.dflag 11 i) (captured p1Reply)) (·.res))
      = [some 1, some 0, some 1, some 0, some 0, some 1, some 0, some 1] := by decide +kernel
theorem test_du24 :
    (look (exec (.du24 12) (captured p1Reply)) (·.res), faultOf (exec (.du24 14) (captured p1Reply)))
      = (some 66051, some (.fieldOutsideFrame 14 3 18)) := by decide +kernel
theorem test_dack :
    (look (exec .dack (captured [0x01, 0x00])) (fun s => (s.status, s.bt)), look (exec .dack (captured [0x04, 0x00])) (·.status),
      look (exec .dack (ex [] [])) (·.status)) = (some (1, .validated), some 0x0C, some 0x06) := by decide +kernel

/-! ## Poll monitor and frame I/O (95_test_vectors.md L2.6, L2.7, P1) -/

theorem test_await_skips_fillers :
    look (exec .await (ex [u 0x00, ub 0x00, u 0x8B, ub 0x00] [0, 0, 0, 0])) (fun s => (bytesOf s.rx, s.rxlen, s.bt, s.status))
      = some ([0x8B, 0x00], 2, .transmitting, 1) := by decide +kernel
/-- A poll of another unit, then silence past the deadline (program P4). -/
theorem test_await_times_out :
    look (exec .await (ex [u 0x88, ub 0x00, u 0x00, .gap] [0, 0, 10, 900, 5, 100, 0]))
      (fun s => (bytesOf s.rx, s.rxlen, s.bt, s.status)) = some ([0x88, 0x00], 0, .idle, 0x04) := by decide +kernel
/-- `TX_GAP = 2` and the first write at 1010: the break is stamped 1022 and `T_TX` is 1023. -/
theorem test_xmit :
    look (exec .xmit { ex [] [10, 0, 1, 2, 0, 0, 0, 0, 1] with
        tx := buf [0x0B, 0x88, 0x18, 0x00, 0x20, 0xD0, 0x00], bt := .transmitting })
      (fun s => (s.env.sent.map (·.item), s.env.sent.map (·.stamp), s.tTx, s.xcnt, s.bt))
      = some ([.data 0x0B, .data 0x88, .data 0x18, .data 0x00, .data 0x20, .data 0xD0, .endOfFrame],
        [1010, 1012, 1014, 1016, 1018, 1020, 1022], 1023, 1, .awaitingReply) := by decide +kernel
theorem test_xmit_interlock : look (exec .xmit (ex [] [])) (fun s => (s.status, s.env.sent)) = some (0x10, []) := by
  decide +kernel
/-- A wait for 2^32 ms never returns (R64). -/
theorem test_xmit_stuck :
    faultOf (exec .xmit { ex [] [] with
      cfg := { exParams with txGap := 2 ^ 32 }, tx := buf [1, 2, 3, 4, 5, 6, 0], bt := .transmitting })
      = some (.stuckInWait 4294967296) := by decide +kernel
/-- Leading fillers are dropped, an inner one is stored. -/
theorem test_recv :
    look (exec .recv { ex [u 0x00, u 0x08, u 0x0B, u 0x00, u 0x2E, ub 0x00] [40, 0, 0] with bt := .awaitingReply, tTx := 1000 })
      (fun s => (bytesOf s.rx, s.rxlen, s.res, s.bt)) = some ([0x08, 0x0B, 0x00, 0x2E, 0x00], 5, 5, .replyCaptured) := by
  decide +kernel
theorem test_recv_times_out :
    look (exec .recv { ex [.gap, u 0x00] [0, 400, 100, 500] with bt := .awaitingReply, tTx := 1000 })
      (fun s => (s.rxlen, s.status, s.bt)) = some (0, 0x06, .timedOut) := by decide +kernel
/-- 44_frame_io.md R198. -/
theorem test_deadline_wraps :
    (elapsedAtLeast 0xFFFFFF00 0x00000050 512, elapsedAtLeast 0xFFFFFF00 0x00000100 512,
      elapsedAtLeast 0xFFFFFF00 0xFFFFFF10 512, elapsedAtLeast 5 5 0) = (false, true, false, true) := by decide +kernel

/-! ## Sequencer (95_test_vectors.md L2.9, P2, P5) -/

/-- The time draws of one exchange in which the clock stands still but for the pacing. -/
def draws (n : Nat) : List Nat := List.replicate (13 * n) 0

/-- A poll of this controller. -/
def poll : List LinkEvent := [u 0x8B, ub 0x00]

/-- A reply of this controller's partner. -/
def replyOf : List Byte → List LinkEvent
  | [] => []
  | [b] => [ub b]
  | b :: bs => u b :: replyOf bs

theorem test_setto :
    (look (exec (.setto 20) (ex [] [])) (fun s => (s.ansTo, s.res)), look (exec (.setto 0) (ex [] [])) (fun s => (s.ansTo, s.status)))
      = (some (20, 20), some (10, 0x02)) := by decide +kernel
theorem test_xread :
    look (exec (.xread 1) (ex (poll ++ replyOf p1Reply) (draws 1))) (fun s => (s.status, s.res, s.bt, s.xcnt, bytesOf s.rx))
      = some (1, 18, .validated, 1, p1Reply) := by decide +kernel
/-- Program P5: the reply with `RX[4] = 2C`. -/
theorem test_xread_checksum_invalid :
    look (exec (.xread 1) (ex (poll ++ replyOf (p1Reply.set 4 0x2C)) (draws 1))) (fun s => (s.status, s.resv, s.bt, s.xcnt))
      = some (0x08, false, .replyCaptured, 1) := by decide +kernel
theorem test_xread_undefined : faultOf (exec (.xread 9) (ex [] [])) = some (.catalogUndefined .read 9) := by decide +kernel
theorem test_xwrite :
    look (exec (.xwrite 1 2) (ex (poll ++ [u 0x01, ub 0x00]) (draws 1))) (fun s => (s.status, bytesOf s.tx, s.bt))
      = some (1, [0x0B, 0x10, 0x3D, 0x07, 0x02, 0xC8, 0x00], .validated) := by decide +kernel
/-- The requests of program P2, and what goes on the wire. -/
theorem test_requests :
    (readRequest exParams ⟨0x10, 0x3D, 0x0A⟩, writeRequest exParams ⟨0x10, 0x3D, 0x07⟩ 2,
      transmitted (writeRequest exParams ⟨0x10, 0x3D, 0x07⟩ 2))
      = ([0x0B, 0x90, 0x3D, 0x00, 0x0A, 0xAE, 0x00], [0x0B, 0x10, 0x3D, 0x07, 0x02, 0xC8, 0x00],
        [.data 0x0B, .data 0x10, .data 0x3D, .data 0x07, .data 0x02, .data 0xC8, .endOfFrame]) := by decide +kernel
/-- L2.9.5: no poll before the deadline; one attempt used. -/
theorem test_wverify_poll_timeout :
    look (exec (.wverify 1 2 1) (ex [] [0, 1000, 0])) (fun s => (s.status, s.rc, s.xcnt)) = some (0x04, 2, 0) := by decide +kernel

/-- The confirming replies of program P2. -/
def p2Reply (field crc : Byte) : List Byte :=
  [0x10, 0x0B, 0x3D, 0x00, 0x11, 0x22, 0x33, 0x44, 0x55, 0x66, 0x77, field, 0x99, 0xAA, crc, 0x00]

/-- Program P2: one mismatch, then success. -/
theorem test_wverify_retries :
    look (exec (.wverify 1 2 1) (ex (poll ++ [ub 0x01] ++ poll ++ replyOf (p2Reply 1 0xD4)
        ++ poll ++ [ub 0x01] ++ poll ++ replyOf (p2Reply 2 0xD8)) (draws 4)))
      (fun s => (s.status, s.res, s.resv, s.rc, s.xcnt, s.bt)) = some (1, 2, true, 1, 4, .validated) := by decide +kernel

/-! ## Host operations -/

theorem test_op1 :
    look (exec .op1 (ex (poll ++ replyOf p1Reply) (draws 1))) (·.host.reports)
      = some [.success [("flame", 450), ("starts", 66051)]] := by decide +kernel
theorem test_op10 :
    look (exec (.op10 (.num 1) (.num 2)) (ex (poll ++ [ub 0x01] ++ poll ++ replyOf (p2Reply 2 0xD8)) (draws 2)))
      (·.host.reports) = some [.success [("confirmed mode", 2)]] := by decide +kernel
theorem test_op2_op3_op4 :
    [Instr.op2, .op3, .op4].map (fun i => look (exec i (ex (poll ++ replyOf p1Reply) (draws 1))) (·.host.reports))
      = [some [.success [("mode", 45)]], some [.success [("set point", 70)]], some [.success [("outside", -200)]]] := by
  decide +kernel
/-- Two chained exchanges. -/
theorem test_op9 :
    look (exec .op9 (ex (poll ++ replyOf p1Reply ++ poll ++ replyOf (p2Reply 2 0xD8)) (draws 2))) (·.host.reports)
      = some [.success [("hour", 2), ("minute", 2)]] := by decide +kernel
/-- `result[name] <- RES` assigns: a name that recurs, in one step or a later one, keeps its last value (R234). -/
theorem test_recurring_name :
    (match decodeNamed [("mode", ⟨.u8, 4, 0⟩), ("set point", ⟨.half, 15, 0⟩), ("mode", ⟨.u8, 5, 0⟩)] [("hour", 3), ("set point", 9)]
        (captured p1Reply) with
      | .ok p => some p.1
      | .error _ => none) = some [("hour", 3), ("set point", 70), ("mode", 1)] := by decide +kernel
/-- The second exchange is not answered: no fields are reported. -/
theorem test_op9_fails :
    look (exec .op9 (ex (poll ++ replyOf p1Reply) (draws 1 ++ [0, 1000, 0]))) (fun s => (s.host.reports, s.status))
      = some ([.failure .pollTimeout], 0x04) := by decide +kernel
/-- The temperature is what is written, circuit and mode select the record. -/
theorem test_op11 :
    look (exec (.op11 (.num 2) (.num 0) (.num 2)) (ex (poll ++ [ub 0x01] ++ poll ++ replyOf (p2Reply 2 0xD8)) (draws 2)))
      (·.host.reports) = some [.success [("confirmed temperature", 2)]] := by decide +kernel
theorem test_op12 :
    look (exec (.op12 (.num 2)) (ex (poll ++ [ub 0x01] ++ poll ++ replyOf (p2Reply 2 0xD8)) (draws 2)))
      (·.host.reports) = some [.success [("confirmed temperature", 2)]] := by decide +kernel
/-- The catalog maps charge mode 1 to the byte 2. -/
theorem test_op14 :
    look (exec (.op14 (.num 1)) (ex (poll ++ [ub 0x01] ++ poll ++ replyOf (p2Reply 2 0xD8)) (draws 2)))
      (·.host.reports) = some [.success [("confirmed flag", 2)]] := by decide +kernel
/-- Program P3: 81 half-degree units are turned away before any bus activity. -/
theorem test_op11_rejected :
    look (exec (.op11 (.num 1) (.num 2) (.num 81)) (ex [] []))
      (fun s => (s.host.reports, s.status, bytesOf s.tx, s.env.sent))
      = some ([.failure .parameterOutOfRange], 0x02, [], []) := by decide +kernel
theorem test_op12_too_wide :
    look (exec (.op12 (.num 300)) (ex [] [])) (fun s => (s.host.reports, s.status)) = some ([.failure .parameterOutOfRange], 0) := by
  decide +kernel
theorem test_op13 :
    look (exec (.op13 (.num 2)) (ex (poll ++ [ub 0x01] ++ poll ++ replyOf (p2Reply 2 0xD8)) (draws 2)))
      (·.host.reports) = some [.success [("confirmed mode", 2)]] := by decide +kernel
theorem test_op10_undefined :
    faultOf (exec (.op10 (.num 1) (.num 1)) (ex [] [])) = some (.catalogUndefined .hostOp 10) := by decide +kernel
theorem test_op20_outside : refusalOf (exec .op20 (ex [] [])) = some (.outsideBlock .rebootGateway) := by decide +kernel
theorem test_op21_outside : refusalOf (exec (.op21 (.num 1)) (ex [] [])) = some (.outsideBlock .reconfigureNetwork) := by
  decide +kernel
theorem test_op25 :
    look (exec (.op25 (.num 20)) (ex [] [])) (fun s => (s.ansTo, s.host.reports)) = some (20, [.success [("applied timeout", 20)]]) := by
  decide +kernel

/-! ## Stepping -/

theorem test_step_illegal_word :
    look (step ((ex [] []).withFetchWord 40 0xFF00000000)) (fun s => (s.status, s.host.pending)) = some (0x10, []) := by decide +kernel
theorem test_step_unlisted_code :
    look (step ((ex [] []).withFetchWord 8 5)) (fun s => (s.status, s.host.reports)) = some (0, [.failure .illegalCommand]) := by
  decide +kernel
theorem test_step_reads :
    look (step { captured [7, 9] with host := ⟨[.read (.rx 1)], []⟩ }) (fun s => (s.host.reports, s.host.pending, s.rxlen))
      = some ([.value (.rx 1) 9], [], 2) := by decide +kernel
theorem test_step_read_faults :
    (settle { ex [] [] with host := ⟨[.read .res], []⟩ }).fault = [.unwrittenResult] := by decide +kernel
theorem test_settle_records :
    (settle ((ex [] []).withFetchWord 40 0x0100000000)).fault = [.unwrittenRead .tx 0] := by decide +kernel
theorem test_result_unreadable_after_failure : hostRead .res (fail .pollTimeout (ex [] [])).state = .error .unwrittenResult := by
  decide +kernel

/-! ## Assembler syntax (R88) -/

/-- The examples of R88, and one of hexadecimal host parameters. -/
theorem test_assemble :
    ["ENCRD 0x08, 0x18, 0x20", "DFLAG 11, 5", "AWAIT", "OP11(1, 2, 70)", "OP25(0x14)", "OP1"].map (fun t => assemble t.toList)
      = [some (.command 0x1008182000), some (.command 0x250B050000), some (.command 0x3000000000),
        some (encode (.op11 (.num 1) (.num 2) (.num 70))), some (encode (.op25 (.num 20))), some (.hostOp 1 .zero)] := by
  decide +kernel
/-- An operand that is no byte, a missing operand, no such mnemonic; a host parameter that is no number. -/
theorem test_assemble_rejects :
    (["ENCRD 0x08, 0x18, 256", "DU16 9", "DFIELD 1", "XREAD x"].map (fun t => assemble t.toList),
      assemble "OP12(warm)".toList) = (List.replicate 4 none, some (encode (.op12 .malformed))) := by decide +kernel

/-! ## The statements' hypotheses are met: encodings, stepping, reset -/

/-- A block with these inputs before it. -/
def facing (pending : List Input) : State := State.resetWith exParams ⟨1000, [], 0, [], 0, []⟩ pending

theorem witness_legal_words :
    [0x107FFFFF00, 0x117F000000, 0x1805FF0000, 0x2309010000, 0x250B070000, 0x42FFFFFF00].all
      (fun w => decide (∃ i ∈ [Instr.encrd 0x7F 0xFF 0xFF, .encwr 0x7F 0 0 0, .pchk 5 0xFF, .du16 9 1, .dflag 11 7,
        .wverify 0xFF 0xFF 0xFF], decodeTableWord 40 w = some i ∧ i.wellFormed = true)) = true ∧
      LegalCommand 0x107FFFFF00 ∧ LegalCommand 0x42FFFFFF00 := by
  refine ⟨by decide +kernel, ?_, ?_⟩ <;> unfold LegalCommand <;> decide +kernel
theorem witness_illegal_word :
    Ready (facing [.issue 7 (.command 0x1080000000)]) ∧ ¬ LegalCommand 0x1080000000 ∧ ¬ LegalCommand 0x0000000000 := by
  refine ⟨⟨rfl, rfl⟩, ?_, ?_⟩ <;> unfold LegalCommand <;> decide +kernel
theorem witness_unlisted_code :
    Ready (facing [.issue 7 (.hostOp 26 .zero)]) ∧ (26 : Byte).toNat ∉ hostCodes ∧ (0 : Byte).toNat ∉ hostCodes ∧
      (15 : Byte).toNat ∉ hostCodes := by
  refine ⟨⟨rfl, rfl⟩, ?_, ?_, ?_⟩ <;> decide +kernel
theorem witness_step_runs :
    Ready (facing [.issue 7 (.command 0x3000000000), .reset]) ∧ decode (.command 0x3000000000) = .ok .await ∧
      Ready (facing [.issue 0 (.hostOp 25 { HostArgs.zero with value := .num 256 })]) ∧
      decode (.hostOp 25 { HostArgs.zero with value := .num 256 }) = .ok (.op25 (.num 256)) :=
  ⟨⟨rfl, rfl⟩, rfl, ⟨rfl, rfl⟩, rfl⟩
theorem witness_waits_and_resets :
    (Ready (facing []) ∧ (facing []).host.pending = []) ∧
      (Ready (facing [.read .rxlen, .read .res]) ∧ hostRead .rxlen (facing [.read .rxlen, .read .res]) = .ok 0 ∧
        hostRead .res (facing [.read .res]) = .error .unwrittenResult) ∧
      Ready (facing [.reset]) ∧ (facing [.reset]).host.pending = .reset :: [] :=
  ⟨⟨⟨rfl, rfl⟩, rfl⟩, ⟨⟨rfl, rfl⟩, rfl, rfl⟩, ⟨rfl, rfl⟩, rfl⟩
theorem witness_fault :
    (Ready (facing [.issue 0 (.command 0x0100000000)]) ∧
        step (facing [.issue 0 (.command 0x0100000000)]) = .fault (.unwrittenRead .tx 0)) ∧
      (recordFault .unwrittenResult (facing [])).fault ≠ [] := ⟨⟨⟨rfl, rfl⟩, rfl⟩, by decide +kernel⟩
theorem witness_refusal :
    (Ready (facing [.issue 0 (.hostOp 22 .zero)]) ∧
        step (facing [.issue 0 (.hostOp 22 .zero)]) = .refused (.outsideBlock .readStatisticsBasic)) ∧
      (recordRefusal (.outsideBlock .resetStatistics) (facing [])).fault = [] ∧
      (recordRefusal (.outsideBlock .resetStatistics) (facing [])).refusal = some (.outsideBlock .resetStatistics) :=
  ⟨⟨⟨rfl, rfl⟩, rfl⟩, rfl, rfl⟩

/-! ## Checksum, encoder, validation -/

theorem witness_crcgen :
    Holds ({ ex [] [] with tx := buf [0x0B, 0x88, 0x18, 0x00, 0x20] } : State).tx [0x0B, 0x88, 0x18, 0x00, 0x20] := by
  unfold Holds; decide +kernel
theorem witness_crcchk :
    Frame (captured [0x55]) [0x55] ∧
      (Frame (captured [0x00, 0x77]) [0x00, 0x77] ∧ ChecksumMatches exParams [0x00, 0x77]) ∧
      Frame (captured [0x01, 0x77]) [0x01, 0x77] ∧ ¬ ChecksumMatches exParams [0x01, 0x77] := by
  unfold Frame Holds ChecksumMatches; decide +kernel
theorem witness_fvalid :
    (Frame (captured [0x08, 0x0B, 0x18, 0x2E, 0x55]) [0x08, 0x0B, 0x18, 0x2E, 0x55] ∧
        ChecksumMatches exParams [0x08, 0x0B, 0x18, 0x2E, 0x55]) ∧
      Frame (captured [0x08, 0x0B, 0x18, 0x2F, 0x00]) [0x08, 0x0B, 0x18, 0x2F, 0x00] ∧
      ¬ ChecksumMatches exParams [0x08, 0x0B, 0x18, 0x2F, 0x00] ∧
      Frame (captured [0x08, 0x0B, 0x1B, 0x00]) [0x08, 0x0B, 0x1B, 0x00] := by
  unfold Frame Holds ChecksumMatches; decide +kernel
theorem witness_operand_ranges :
    (0x7F : Byte).toNat ≤ 0x7F ∧ 0x7F < (0x80 : Byte).toNat ∧ 5 < (6 : Byte).toNat ∧ 1 < (2 : Byte).toNat ∧
      7 < (8 : Byte).toNat := by decide +kernel
theorem witness_pchk :
    (∀ kv ∈ [(0, 1), (0, 2), (1, 0), (1, 2), (2, 0), (2, 1), (3, 0), (3, 80), (4, 80), (5, 1), (5, 255)],
        kv.1 ≤ 5 ∧ legalParam kv.1 kv.2) ∧
      ∀ kv ∈ [(0, 0), (0, 3), (1, 3), (2, 2), (3, 81), (4, 81), (5, 0), (5, 256)],
        kv.1 ≤ 5 ∧ ¬ legalParam kv.1 kv.2 := by
  simp [legalParam]

/-! ## Field decoder -/

theorem witness_type_byte :
    5 ≤ (captured [0x08, 0x0B, 0x18, 0x2E, 0x55]).rxlen ∧
      (captured [0x08, 0x0B, 0x18, 0x2E, 0x55]).rx.read 2 = some 0x18 := by decide +kernel
/-- The last byte of the data region of an 18-byte capture is `RX[15]`. -/
theorem witness_fields_at_the_edge :
    ((15 : Byte).toNat + 3 ≤ (captured p1Reply).rxlen ∧ (captured p1Reply).rx.read (15 : Byte).toNat = some 0x46 ∧
        (7 : Byte).toNat ≤ 7) ∧
      ((14 : Byte).toNat + 4 ≤ (captured p1Reply).rxlen ∧ (captured p1Reply).rx.read (14 : Byte).toNat = some 0x03 ∧
        (captured p1Reply).rx.read ((14 : Byte).toNat + 1) = some 0x46) ∧
      (13 : Byte).toNat + 5 ≤ (captured p1Reply).rxlen ∧ (captured p1Reply).rx.read (13 : Byte).toNat = some 0x02 ∧
      (captured p1Reply).rx.read ((13 : Byte).toNat + 1) = some 0x03 ∧
      (captured p1Reply).rx.read ((13 : Byte).toNat + 2) = some 0x46 := by decide +kernel
theorem witness_fields_outside :
    (captured [0x08, 0x0B, 0x1B, 0x00]).rxlen < 5 ∧ (captured p1Reply).rxlen < (16 : Byte).toNat + 3 ∧
      (captured p1Reply).rxlen < (15 : Byte).toNat + 4 ∧ (captured p1Reply).rxlen < (14 : Byte).toNat + 5 ∧
      (7 : Byte).toNat ≤ 7 ∧ (1 : Byte).toNat ≤ 1 := by decide +kernel
theorem witness_dack :
    (ex [] []).rxlen = 0 ∧ (1 ≤ (captured [0x01]).rxlen ∧ (captured [0x01]).rx.read 0 = some exParams.ackByte) ∧
      1 ≤ (captured [0x04]).rxlen ∧ (captured [0x04]).rx.read 0 = some 0x04 ∧ (0x04 : Byte) ≠ exParams.ackByte := by
  decide +kernel
theorem witness_dfield :
    Frame (captured p1Reply) p1Reply ∧ FieldInside ⟨.s16, 14, 0⟩ p1Reply ∧ FieldInside ⟨.u24, 13, 0⟩ p1Reply ∧
      FieldInside ⟨.flag, 15, 7⟩ p1Reply := by
  unfold Frame Holds FieldInside; decide +kernel
theorem witness_decode_commands :
    [Instr.dtype, .tchk 0x18, .du8 15, .du16 14 1, .dhalf 15, .dflag 15 7, .du24 13, .dack].all
      (fun i => isDecode i && (look (exec i (captured p1Reply)) (·.rxlen)).isSome) = true := by decide +kernel

/-! ## Poll monitor and frame I/O -/

/-- A poll of another unit, a boundary unit and a lone unit, of which the last two even have this
controller's poll byte. -/
def otherTraffic : List Traffic := [⟨[u 0x00], .pair 0x88 ⟨0x8B, false⟩⟩, ⟨[], .boundary 0x8B⟩, ⟨[.gap], .lone 0x8B⟩]

theorem witness_traffic (q : Traffic) (hq : q ∈ otherTraffic) : q.Foreign exParams := by
  simp only [otherTraffic, List.mem_cons, List.not_mem_nil, or_false] at hq
  rcases hq with rfl | rfl | rfl
  · refine ⟨fun e he => ?_, by unfold PollGroup.Foreign; decide +kernel⟩
    simp only [List.mem_cons, List.not_mem_nil, or_false] at he
    exact .inr ⟨false, he⟩
  · exact ⟨fun e he => absurd he (List.not_mem_nil), by unfold PollGroup.Foreign; decide +kernel⟩
  · refine ⟨fun e he => ?_, by unfold PollGroup.Foreign; decide +kernel⟩
    simp only [List.mem_cons, List.not_mem_nil, or_false] at he
    exact .inl he

/-- Other traffic, gaps and fillers, and a poll 1 ms before the deadline. -/
theorem witness_await_takes_the_turn :
    ∃ s : State, s.env.arrivals = otherTraffic.flatMap Traffic.events ++ [.gap, u 0x00, ub 0x00] ++
        .arrived ⟨0x8B, false⟩ :: .arrived ⟨0x00, true⟩ :: [.gap] ∧
      s.cfg = exParams ∧ (List.replicate 8 0 ++ [0, 0, 0, 999]).length = (otherTraffic.map Traffic.reads).sum + 3 + 1 ∧
      Quiet s.cfg.idleFiller [.gap, u 0x00, ub 0x00] ∧ (0x8B : Byte) ≠ s.cfg.idleFiller ∧
      ((0x8B : Byte) &&& 0x7F).toNat = s.cfg.ctrlAddr.toNat ∧ s.env.times = 5 :: ((List.replicate 8 0 ++ [0, 0, 0, 999]) ++ [8]) ∧
      spent (List.replicate 8 0 ++ [0, 0, 0, 999]) < s.cfg.pollTo := by
  refine ⟨ex (otherTraffic.flatMap Traffic.events ++ [.gap, u 0x00, ub 0x00] ++ [u 0x8B, ub 0x00, .gap])
    (5 :: ((List.replicate 8 0 ++ [0, 0, 0, 999]) ++ [8])), rfl, rfl, by decide +kernel, ?_, by decide +kernel,
    by decide +kernel, rfl, by decide +kernel⟩
  intro e he
  simp only [List.mem_cons, List.not_mem_nil, or_false] at he
  rcases he with rfl | rfl | rfl
  · exact .inl rfl
  · exact .inr ⟨false, rfl⟩
  · exact .inr ⟨true, rfl⟩
/-- After other traffic, the deadline is reached at the second test of the next capture. -/
theorem witness_await_times_out :
    ∃ s : State, s.cfg = exParams ∧ s.env.arrivals = otherTraffic.flatMap Traffic.events ++ [.gap] ++ [u 0x8B] ∧
      Quiet s.cfg.idleFiller [.gap] ∧ s.env.times = 5 :: ((List.replicate 8 0 ++ [999]) ++ 1 :: 0 :: [8]) ∧
      (List.replicate 8 0 ++ [999]).length = (otherTraffic.map Traffic.reads).sum + 1 ∧
      spent (List.replicate 8 0 ++ [999]) < s.cfg.pollTo ∧ s.cfg.pollTo ≤ spent ((List.replicate 8 0 ++ [999]) ++ [1]) ∧
      spent ((List.replicate 8 0 ++ [999]) ++ [1, 0]) < 2 ^ 32 := by
  refine ⟨ex (otherTraffic.flatMap Traffic.events ++ [.gap] ++ [u 0x8B]) (5 :: ((List.replicate 8 0 ++ [999]) ++ [1, 0, 8])),
    rfl, rfl, ?_, rfl, by decide +kernel, by decide +kernel, by decide +kernel, by decide +kernel⟩
  intro e he
  simp only [List.mem_cons, List.not_mem_nil, or_false] at he
  exact .inl he
/-- After other traffic, the deadline is over at the test after the capture of one more such group. -/
theorem witness_await_times_out_after_a_capture :
    ∃ s : State, s.cfg = exParams ∧ s.env.arrivals = otherTraffic.flatMap Traffic.events ++
        (Traffic.mk [] (.pair 0x88 ⟨0x00, true⟩)).events ++ [u 0x8B] ∧
      (Traffic.mk [] (.pair 0x88 ⟨0x00, true⟩)).Foreign exParams ∧
      s.env.times = 5 :: ((List.replicate 8 0 ++ [999]) ++ 1 :: [8]) ∧
      (List.replicate 8 0 ++ [999]).length = (otherTraffic.map Traffic.reads).sum + 0 + 1 ∧
      spent (List.replicate 8 0 ++ [999]) < s.cfg.pollTo ∧ s.cfg.pollTo ≤ spent ((List.replicate 8 0 ++ [999]) ++ [1]) := by
  refine ⟨ex (otherTraffic.flatMap Traffic.events ++ (Traffic.mk [] (.pair 0x88 ⟨0x00, true⟩)).events ++ [u 0x8B])
    (5 :: ((List.replicate 8 0 ++ [999]) ++ [1, 8])), rfl, rfl, ⟨fun e he => absurd he (List.not_mem_nil), ?_⟩, rfl, by decide +kernel,
    by decide +kernel, by decide +kernel⟩
  unfold PollGroup.Foreign
  decide +kernel
/-- `POLL_TO = 0`: at once. -/
theorem witness_await_times_out_at_once :
    ∃ s : State, s.cfg.pollTo = 0 ∧ s.env.arrivals = [] ++ [u 0x8B] ∧ Quiet s.cfg.idleFiller [] ∧
      s.env.times = 5 :: ([] ++ 0 :: 0 :: [8]) ∧ s.cfg.pollTo ≤ spent ([] ++ [0]) := by
  refine ⟨State.resetWith { exParams with pollTo := 0, pollTo_lt := by decide +kernel } ⟨1000, [5, 0, 0, 8], 0, [u 0x8B], 0, []⟩ [],
    rfl, rfl, ?_, rfl, by decide +kernel⟩
  intro e he
  cases he
theorem witness_xmit :
    ({ ex [] [] with tx := buf [0x0B, 0x88, 0x18, 0x00, 0x20, 0xD0], bt := .transmitting } : State).bt = .transmitting ∧
      exParams.txGap < 2 ^ 32 ∧ Holds (buf [0x0B, 0x88, 0x18, 0x00, 0x20, 0xD0]) [0x0B, 0x88, 0x18, 0x00, 0x20, 0xD0] := by
  unfold Holds; decide +kernel
theorem witness_interlocks :
    (ex [] []).bt ≠ .transmitting ∧ ({ ex [] [] with bt := .transmitting } : State).bt ≠ .awaitingReply := by decide +kernel
/-- Nothing written; all but the checksum byte written (only XMIT reads that far); a result that is there. -/
theorem witness_unwritten_reads :
    ((∀ i < 0, ((ex [] []).tx.read i).isSome = true) ∧ (ex [] []).tx.read 0 = none ∧ (ex [] []).rx.read 31 = none) ∧
      ((∀ i < 5, ((buf [1, 2, 3, 4, 5]).read i).isSome = true) ∧ (buf [1, 2, 3, 4, 5]).read 5 = none) ∧
      ((∀ i < 4, ((buf [1, 2, 3, 4]).read i).isSome = true) ∧ (buf [1, 2, 3, 4]).read 4 = none) ∧
      (captured [7]).rx.read 0 = some 7 ∧ (ex [] []).resv = false ∧ (succeedWith 3 (ex [] [])).state.resv = true := by
  decide +kernel
/-- A pacing wait that can return, and one that cannot, with the first byte written. -/
theorem witness_pacing_waits :
    (ex [] []).cfg.txGap < 2 ^ 32 ∧ 2 ^ 32 ≤ ({ exParams with txGap := 2 ^ 32 } : Params).txGap ∧
      ((buf [1]).read 0).isSome = true := by decide +kernel
/-- A capture that a boundary unit ends, one that a gap ends, one that `RX_MAX` ends. -/
theorem witness_captures_end :
    CaptureEnds 32 [⟨8, false⟩, ⟨0, true⟩] [.gap] [.gap] ∧ CaptureEnds 32 [⟨8, false⟩] [.gap, u 9] [u 9] ∧
      CaptureEnds 7 (List.replicate 7 ⟨8, false⟩) [u 9] [u 9] := by
  unfold CaptureEnds; decide +kernel
theorem witness_recv_captures :
    ∃ s : State, s.bt = .awaitingReply ∧
      s.env.arrivals = [u 0x00] ++ [⟨0x08, false⟩, ⟨0x00, true⟩].map .arrived ++ [.gap] ∧
      Quiet s.cfg.idleFiller [u 0x00] ∧ s.env.times = [0, 400, 599] ++ [8] ∧
      (s.env.clock - s.tTx).toNat + spent [0, 400, 599] < s.ansTo.toNat * 100 := by
  refine ⟨{ ex [u 0x00, u 0x08, ub 0x00, .gap] [0, 400, 599, 8] with bt := .awaitingReply, tTx := 1000 },
    rfl, rfl, ?_, rfl, by decide +kernel⟩
  intro e he
  simp only [List.mem_cons, List.not_mem_nil, or_false] at he
  exact .inr ⟨false, he⟩
/-- The window is over at the second test before a first unit; and, over before the first look, at once. -/
theorem witness_recv_times_out :
    (∃ s : State, s.bt = .awaitingReply ∧ s.env.arrivals = List.replicate 1 .gap ++ [] ++ [u 0x08] ∧
      Quiet s.cfg.idleFiller [] ∧ s.env.times = [999] ++ 1 :: [8] ∧
      (s.env.clock - s.tTx).toNat + spent [999] < s.ansTo.toNat * 100 ∧
      s.ansTo.toNat * 100 ≤ (s.env.clock - s.tTx).toNat + spent ([999] ++ [1]) ∧
      (s.env.clock - s.tTx).toNat + spent ([999] ++ [1]) < 2 ^ 32) ∧
    ∃ s : State, s.bt = .awaitingReply ∧ s.env.arrivals = List.replicate 0 .gap ++ [] ++ [u 0x08] ∧
      Quiet s.cfg.idleFiller [] ∧ s.env.times = [] ++ 1000 :: [8] ∧
      s.ansTo.toNat * 100 ≤ (s.env.clock - s.tTx).toNat + spent ([] ++ [1000]) :=
  ⟨⟨{ ex [.gap, u 0x08] [999, 1, 8] with bt := .awaitingReply, tTx := 1000 },
      rfl, rfl, fun _ he => absurd he List.not_mem_nil, rfl, by decide +kernel, by decide +kernel, by decide +kernel⟩,
    { ex [u 0x08] [1000, 8] with bt := .awaitingReply, tTx := 1000 }, rfl, rfl,
    fun _ he => absurd he List.not_mem_nil, rfl, by decide +kernel⟩
/-- Only fillers (95_test_vectors.md L2.6): one is seen after a gap, the capture drops it, a gap and another, and
its fourth test finds the window over; and a window over at the capture's first test, the unit left on the link. -/
theorem witness_recv_times_out_in_the_capture :
    (∃ s : State, s.bt = .awaitingReply ∧
      s.env.arrivals = List.replicate 1 .gap ++ [u 0x00, .gap, ub 0x00] ++ [u 0x08] ∧
      Quiet s.cfg.idleFiller [u 0x00, .gap, ub 0x00] ∧
      (∃ v as, [u 0x00, .gap, ub 0x00] ++ [u 0x08] = .arrived v :: as) ∧
      s.env.times = [0, 0, 0, 0, 999] ++ 1 :: [8] ∧ [0, 0, 0, 0, 999].length = 1 + 1 + [u 0x00, .gap, ub 0x00].length ∧
      (s.env.clock - s.tTx).toNat + spent [0, 0, 0, 0, 999] < s.ansTo.toNat * 100 ∧
      s.ansTo.toNat * 100 ≤ (s.env.clock - s.tTx).toNat + spent ([0, 0, 0, 0, 999] ++ [1]) ∧
      (s.env.clock - s.tTx).toNat + spent ([0, 0, 0, 0, 999] ++ [1]) < 2 ^ 32) ∧
    ∃ s : State, s.bt = .awaitingReply ∧ s.env.arrivals = List.replicate 0 .gap ++ [] ++ [u 0x08] ∧
      (∃ v as, [] ++ [u 0x08] = .arrived v :: as) ∧ s.env.times = [999] ++ 1 :: [8] ∧
      [999].length = 0 + 1 + ([] : List LinkEvent).length ∧
      (s.env.clock - s.tTx).toNat + spent [999] < s.ansTo.toNat * 100 ∧
      s.ansTo.toNat * 100 ≤ (s.env.clock - s.tTx).toNat + spent ([999] ++ [1]) := by
  refine ⟨⟨{ ex ([.gap, u 0x00, .gap, ub 0x00] ++ [u 0x08]) [0, 0, 0, 0, 999, 1, 8] with bt := .awaitingReply, tTx := 1000 },
      rfl, rfl, ?_, ⟨_, _, rfl⟩, rfl, rfl, by decide +kernel, by decide +kernel, by decide +kernel⟩,
    { ex [u 0x08] [999, 1, 8] with bt := .awaitingReply, tTx := 1000 }, rfl, rfl, ⟨_, _, rfl⟩, rfl, rfl,
    by decide +kernel, by decide +kernel⟩
  intro e he
  simp only [List.mem_cons, List.not_mem_nil, or_false] at he
  rcases he with rfl | rfl | rfl
  · exact .inr ⟨false, rfl⟩
  · exact .inl rfl
  · exact .inr ⟨true, rfl⟩
theorem witness_deadline_test : (2 ^ 32 - 1 < 2 ^ 32) ∧ elapsedAtLeast 7 (7 + BitVec.ofNat 32 (2 ^ 32 - 1)) (2 ^ 32 - 1) = true := by
  decide +kernel
theorem witness_fuel : exParams.pollTo < 2 ^ 31 ∧ waitFuel 1000 (ex [] []).env ≤ 2000 := by decide +kernel

/-! ## Sequencer -/

theorem witness_setto : 1 ≤ (1 : Byte).toNat ∧ 1 ≤ (255 : Byte).toNat ∧ (0 : Byte).toNat = 0 := by decide +kernel
theorem witness_descriptors :
    exCat.read.lookup 1 = some ⟨0x08, 0x18, 0x20⟩ ∧ exCat.write.lookup 1 = some ⟨0x10, 0x3D, 0x07⟩ ∧
      exCat.verify.lookup 1 = some ⟨2, ⟨.u8, 11, 0⟩, ⟨[]⟩⟩ ∧ exCat.read.lookup 2 = some ⟨0x10, 0x3D, 0x0A⟩ := by
  decide +kernel
/-- Each entry missing in turn: a read, a write, a verify, and the read a verify names. -/
theorem witness_missing_descriptors :
    exCat.read.lookup 9 = none ∧ exCat.write.lookup 9 = none ∧
      ((exCat.write.lookup 1).isSome = true ∧ exCat.verify.lookup 9 = none) ∧
      ({ exCat with verify := [(3, ⟨9, ⟨.u8, 11, 0⟩, ⟨[]⟩⟩)] } : Catalog).verify.lookup 3 = some ⟨9, ⟨.u8, 11, 0⟩, ⟨[]⟩⟩ := by
  decide +kernel

/-- The exchange of program P1. -/
def p1Exchange : Exchange := ⟨0x8B, ⟨0x00, true⟩, p1Reply⟩

/-- An acknowledged write. -/
def ackExchange : Exchange := ⟨0x8B, ⟨0x00, true⟩, [0x01]⟩

/-- A write that is not acknowledged. -/
def nackExchange : Exchange := ⟨0x8B, ⟨0x00, true⟩, [0x04, 0x00]⟩

/-- A confirming read. -/
def p2Exchange (field crc : Byte) : Exchange := ⟨0x8B, ⟨0x00, true⟩, p2Reply field crc⟩

theorem witness_xread :
    ∃ s : State, s.cfg.cat.read.lookup 1 = some ⟨0x08, 0x18, 0x20⟩ ∧ p1Exchange.Answers s.cfg ⟨0x08, 0x18, 0x20⟩ ∧
      s.env.arrivals = p1Exchange.events ++ [.gap] ∧ s.env.times = draws 1 ++ [3] ∧ Prompt s 1 (draws 1) := by
  refine ⟨ex (p1Exchange.events ++ [.gap]) (draws 1 ++ [3]), by decide +kernel, ?_, rfl, rfl, ?_⟩
  · unfold Exchange.Answers Exchange.Heard ChecksumMatches; decide +kernel
  · unfold Prompt; decide +kernel
theorem witness_xwrite :
    ∃ s : State, s.cfg.cat.write.lookup 1 = some ⟨0x10, 0x3D, 0x07⟩ ∧ ackExchange.Acknowledges s.cfg ∧
      s.env.arrivals = ackExchange.events ++ [.gap] ∧ s.env.times = draws 1 ++ [3] ∧ Prompt s 1 (draws 1) := by
  refine ⟨ex (ackExchange.events ++ [.gap]) (draws 1 ++ [3]), by decide +kernel, ?_, rfl, rfl, ?_⟩
  · unfold Exchange.Acknowledges Exchange.Heard; decide +kernel
  · unfold Prompt; decide +kernel

/-- Two failed attempts: a write not acknowledged, then a mismatch. -/
def twoFailures : List FailedAttempt := [.notAcknowledged nackExchange, .mismatched ackExchange (p2Exchange 1 0xD4)]

/-- What WVERIFY 1, 2, 1 needs of the catalog. -/
theorem witness_entries : VerifyEntries exParams 1 1 ⟨0x10, 0x3D, 0x07⟩ ⟨2, ⟨.u8, 11, 0⟩, ⟨[]⟩⟩ ⟨0x10, 0x3D, 0x0A⟩ := by
  unfold VerifyEntries; decide +kernel

theorem witness_mismatch_fails :
    (FailedAttempt.mismatched ackExchange (p2Exchange 1 0xD4)).Fails exParams 2 ⟨2, ⟨.u8, 11, 0⟩, ⟨[]⟩⟩ ⟨0x10, 0x3D, 0x0A⟩ := by
  unfold FailedAttempt.Fails Exchange.Acknowledges Exchange.Answers Exchange.Heard ChecksumMatches FieldInside
  decide +kernel

theorem witness_two_failures (a : FailedAttempt) (ha : a ∈ twoFailures) :
    a.Fails exParams 2 ⟨2, ⟨.u8, 11, 0⟩, ⟨[]⟩⟩ ⟨0x10, 0x3D, 0x0A⟩ := by
  simp only [twoFailures, List.mem_cons, List.not_mem_nil, or_false] at ha
  rcases ha with rfl | rfl
  · unfold FailedAttempt.Fails Exchange.Heard; decide +kernel
  · exact witness_mismatch_fails

/-- A bus on which WVERIFY 1, 2, 1 succeeds after two failures. -/
def confirmingBus : State :=
  ex (twoFailures.flatMap FailedAttempt.events ++ ackExchange.events ++ (p2Exchange 2 0xD8).events ++ [.gap])
    (draws 5 ++ [3])

/-- The last attempt of the budget of 3 is the one that succeeds. -/
theorem witness_wverify :
    Confirmed confirmingBus 1 2 1 ⟨0x10, 0x3D, 0x07⟩ ⟨2, ⟨.u8, 11, 0⟩, ⟨[]⟩⟩ ⟨0x10, 0x3D, 0x0A⟩ twoFailures ackExchange (p2Exchange 2 0xD8) [.gap] (draws 5) [3] := by
  refine ⟨witness_entries, witness_two_failures, ?_, by decide +kernel, ?_, ?_, by decide +kernel, rfl, rfl, ?_⟩
  · unfold Exchange.Answers Exchange.Heard ChecksumMatches; decide +kernel
  · unfold Exchange.Acknowledges Exchange.Heard; decide +kernel
  · unfold FieldInside; decide +kernel
  · unfold Prompt; decide +kernel

/-- Three mismatches. -/
def threeMismatches : List FailedAttempt := List.replicate 3 (.mismatched ackExchange (p2Exchange 1 0xD4))

/-- Three failed attempts, the last of them a write not acknowledged. -/
def threeFailures : List FailedAttempt := twoFailures ++ [.notAcknowledged nackExchange]

/-- Three attempts that all mismatch; and three of which the last is not acknowledged. -/
theorem witness_exhausted :
    (∀ a ∈ threeMismatches ++ threeFailures, a.Fails exParams 2 ⟨2, ⟨.u8, 11, 0⟩, ⟨[]⟩⟩ ⟨0x10, 0x3D, 0x0A⟩) ∧
    (∃ s : State, s.cfg = exParams ∧ threeMismatches.length = s.cfg.retryMax ∧
      s.env.arrivals = threeMismatches.flatMap FailedAttempt.events ++ [.gap] ∧
      s.env.times = draws 6 ++ [3] ∧ Prompt s 6 (draws 6)) ∧
    ∃ s : State, s.cfg = exParams ∧ threeFailures.length = s.cfg.retryMax ∧
      s.env.arrivals = threeFailures.flatMap FailedAttempt.events ++ [.gap] ∧
      s.env.times = draws 4 ++ [3] ∧ Prompt s 4 (draws 4) := by
  refine ⟨?_, ⟨ex _ _, rfl, rfl, rfl, rfl, ?_⟩, ex _ _, rfl, rfl, rfl, rfl, ?_⟩
  · intro a ha
    simp only [threeMismatches, threeFailures, twoFailures, List.mem_append, List.mem_replicate, List.mem_cons,
      List.not_mem_nil, or_false] at ha
    rcases ha with ⟨-, rfl⟩ | (rfl | rfl) | rfl
    · exact witness_mismatch_fails
    · exact witness_two_failures _ (by simp [twoFailures])
    · exact witness_mismatch_fails
    · exact witness_two_failures _ (by simp [twoFailures])
  · unfold Prompt; decide +kernel
  · unfold Prompt; decide +kernel
theorem witness_wverify_ends :
    (look (exec (.wverify 1 2 1) (ex [] [0, 1000, 0])) (·.rc)).isSome = true := by decide +kernel

/-! ## Host operations and whole-machine rules -/

theorem witness_host_read :
    ∃ (s : State) (op : ReadOp), s.cfg.cat.readOp.lookup 1 = some op ∧
      List.Forall₂ (StepAnswered s.cfg) (op.first :: op.rest) [p1Exchange] ∧
      s.env.arrivals = [p1Exchange].flatMap Exchange.events ++ [.gap] ∧ s.env.times = draws 1 ++ [3] ∧
      Prompt s 1 (draws 1) := by
  refine ⟨ex ([p1Exchange].flatMap Exchange.events ++ [.gap]) (draws 1 ++ [3]),
    ⟨⟨1, [("flame", ⟨.u16, 5, 0⟩), ("starts", ⟨.u24, 12, 0⟩)]⟩, []⟩, by decide +kernel, .cons ?_ .nil, rfl, rfl, ?_⟩
  · refine ⟨⟨0x08, 0x18, 0x20⟩, ?_, ?_, ?_, ?_⟩
    · decide +kernel
    · decide +kernel
    · unfold Exchange.Answers Exchange.Heard ChecksumMatches; decide +kernel
    · unfold FieldInside; decide +kernel
  · unfold Prompt; decide +kernel

/-- A code with a map and, in a catalog without maps, one without; parameters in and out of range. -/
theorem witness_host_maps :
    ((Instr.op9, 9) ∈ [(Instr.op1, 1), (.op2, 2), (.op3, 3), (.op4, 4), (.op9, 9)] ∧ (exCat.readOp.lookup 9).isSome = true) ∧
      ({ exCat with readOp := [] } : Catalog).readOp.lookup 9 = none ∧
      (∃ c m : Nat, Instr.op10 (.num 1) (.num 256) = .op10 (.num c) (.num m) ∧ c ≤ 255 ∧ 255 < m) := by
  exact ⟨⟨by simp, by decide +kernel⟩, by decide +kernel, 1, 256, rfl, by decide +kernel, by decide +kernel⟩

/-- The echo of the request that program P1 sends. -/
theorem witness_echo :
    ∃ s : State, s.cfg.cat.read.lookup 1 = some ⟨0x08, 0x18, 0x20⟩ ∧ (0x0B : Byte) = BitVec.ofNat 8 s.cfg.ctrlAddr.toNat ∧
      0xD0 = crcBytes s.cfg.crcCarryIn [0x0B, 0x88, 0x18, 0x00, 0x20] ∧ (0x8B : Byte) ≠ s.cfg.idleFiller ∧
      ((0x8B : Byte) &&& 0x7F).toNat = s.cfg.ctrlAddr.toNat ∧ (0x0B : Byte) ≠ s.cfg.idleFiller ∧
      s.env.arrivals = .arrived ⟨0x8B, false⟩ :: .arrived ⟨0x00, true⟩ ::
        [0x0B, 0x88, 0x18, 0x00, 0x20, 0xD0].map (fun b => .arrived ⟨b, false⟩) ++ .arrived ⟨0x00, true⟩ :: [.gap] ∧
      s.env.times = draws 1 ++ [3] ∧ Prompt s 1 (draws 1) := by
  refine ⟨ex (poll ++ replyOf [0x0B, 0x88, 0x18, 0x00, 0x20, 0xD0, 0x00] ++ [.gap]) (draws 1 ++ [3]), by decide +kernel,
    by decide +kernel, by decide +kernel, by decide +kernel, by decide +kernel, by decide +kernel, rfl, rfl, ?_⟩
  unfold Prompt; decide +kernel

/-- The turn and the answer window are taken by AWAIT and XMIT. -/
theorem witness_turns :
    look (exec .await (ex poll [0, 0, 0, 0])) (fun t => (t.bt, t.status)) = some (.transmitting, 0x01) ∧
      look (exec .xmit { ex [] (List.replicate 9 0) with tx := buf [1, 2, 3, 4, 5, 6, 0], bt := .transmitting })
        (fun t => (t.bt, t.status)) = some (.awaitingReply, 0x01) := by decide +kernel

/-- Parameters a host write operation accepts, at the boundaries of their classes. -/
theorem witness_good_parameters :
    ∀ i ∈ [Instr.op10 (.num 1) (.num 2), .op10 (.num 2) (.num 0), .op11 (.num 2) (.num 2) (.num 80), .op12 (.num 80),
      .op13 (.num 2), .op14 (.num 1)], ∀ kp ∈ checkedParams i, ParamGood kp := by
  intro i hi kp hkp
  simp only [List.mem_cons, List.not_mem_nil, or_false] at hi
  rcases hi with rfl | rfl | rfl | rfl | rfl | rfl <;> simp only [checkedParams, List.mem_cons, List.not_mem_nil, or_false] at hkp <;>
    rcases hkp with rfl | rfl | rfl <;>
    exact ⟨_, rfl, by unfold legalParam; decide +kernel⟩
/-- Every operation selects the pair 1, 1 here, and so writing 2 (charge mode 1 is written as 2) is WVERIFY 1, 2, 1. -/
theorem witness_host_write :
    [(10, [(1 : Byte), 2]), (11, [2, 0]), (12, []), (13, []), (14, [])].map (fun k => confirmingBus.cfg.cat.writeOp.lookup k)
        = List.replicate 5 (some ⟨1, 1⟩) ∧
      (confirmingBus.cfg.cat.charge.lookup 1).getD 1 = 2 ∧
      Confirmed confirmingBus 1 2 1 ⟨0x10, 0x3D, 0x07⟩ ⟨2, ⟨.u8, 11, 0⟩, ⟨[]⟩⟩ ⟨0x10, 0x3D, 0x0A⟩ twoFailures ackExchange (p2Exchange 2 0xD8) [.gap]
        (draws 5) [3] :=
  ⟨by decide +kernel, by decide +kernel, witness_wverify⟩
theorem witness_bad_parameters :
    ¬ ParamGood (3, .num 81) ∧ (3, HostParam.num 81) ∈ checkedParams (.op11 (.num 1) (.num 2) (.num 81)) ∧
      ¬ ParamGood (4, .malformed) ∧ (4, HostParam.malformed) ∈ checkedParams (.op12 .malformed) ∧
      ¬ ParamGood (1, .num 256) ∧ (1, HostParam.num 256) ∈ checkedParams (.op13 (.num 256)) := by
  have a : ∀ k n, ¬ legalParam k n → ¬ ParamGood (k, .num n) := by
    rintro k n h ⟨m, hm, hl⟩
    cases hm
    exact h hl
  refine ⟨a _ _ (by unfold legalParam; decide +kernel), by decide +kernel, ?_, by decide +kernel, a _ _ (by unfold legalParam; decide +kernel), by decide +kernel⟩
  rintro ⟨m, hm, -⟩
  cases hm
/-- Parameters the host turns away itself. -/
theorem witness_unpresentable : Unpresentable .malformed ∧ Unpresentable (.num 256) ∧ ¬ Unpresentable (.num 255) := by
  refine ⟨.inl rfl, .inr ⟨256, rfl, by decide +kernel⟩, ?_⟩
  rintro (h | ⟨n, hn, hl⟩)
  · cases h
  · cases hn; exact absurd hl (by decide +kernel)
theorem witness_timeout_values : (1 ≤ 1 ∧ 1 ≤ 255) ∧ (1 ≤ 255 ∧ 255 ≤ 255) ∧ 255 < 256 := by decide +kernel

/-- The example block built with `REBOOT_RESETS`. -/
def rebooting : State := State.resetWith { exParams with rebootResets := true } ⟨1000, [], 0, [], 0, []⟩ []

theorem witness_reboot :
    (ex [] []).cfg.rebootResets = false ∧ rebooting.cfg.rebootResets = true ∧ (look (exec .op20 rebooting) (·.bt)) = some .idle := by
  decide +kernel
theorem witness_commands_end :
    [Instr.crcchk, .fvalid, .encrd 0x7F 0 0, .pchk 0 3, .dack, .xmit, .recv, .setto 1].all
      (fun i => isCommand i && !runsExchanges i && (look (exec i (ex [] [])) (·.rxlen)).isSome) = true := by decide +kernel
/-- SETTO and the external reset change ANS_TO. -/
theorem witness_timeout_changes :
    look (step (facing [.issue 0 (.command 0x3814000000)])) (·.ansTo) = some 20 ∧
      look (step { facing [.reset] with ansTo := 20 }) (·.ansTo) = some 10 := by decide +kernel
theorem witness_transmission :
    look (step { facing [.issue 0 (.command 0x3100000000)] with
      tx := buf [0x0B, 0x88, 0x18, 0x00, 0x20, 0xD0, 0x00], bt := .transmitting,
      env := ⟨1000, List.replicate 9 0, 0, [], 0, []⟩ }) (·.env.sent.length) = some 7 := by decide +kernel
theorem witness_invariant :
    Inv (facing [.issue 0 (.command 0x0100000000)]) ∧
      exec .crcgen (facing [.issue 0 (.command 0x0100000000)]) = .fault (.unwrittenRead .tx 0) :=
  ⟨⟨⟨rfl, rfl, .inl rfl, rfl, rfl, Nat.zero_le _, fun i hi => absurd hi (Nat.not_lt_zero i)⟩,
    ⟨by decide +kernel, by decide +kernel, Nat.zero_le _, List.nodup_nil⟩, ⟨nofun, nofun, fun _ => rfl, nofun⟩⟩, rfl⟩
theorem witness_invariant_step :
    Inv (facing [.issue 0 (.command 0x107F182000)]) ∧
      look (step (facing [.issue 0 (.command 0x107F182000)])) (·.status) = some 1 :=
  ⟨⟨⟨rfl, rfl, .inl rfl, rfl, rfl, Nat.zero_le _, fun i hi => absurd hi (Nat.not_lt_zero i)⟩,
    ⟨by decide +kernel, by decide +kernel, Nat.zero_le _, List.nodup_nil⟩, ⟨nofun, nofun, fun _ => rfl, nofun⟩⟩, by decide +kernel⟩

end Sys2Proof.Tests
end

section
/-! SUPPORT. What one step can do: a ready block carries out the host's next input, and that gives a
next state in five ways (R2, R22, R276, R290). -/

namespace Sys2Proof.Machine

theorem step_of_ready {s : State} (h : Ready s) : step s = runInput s := by
  simp [step, h.1, h.2]

theorem ready_of_step {s t : State} (h : step s = .next t) : Ready s := by
  unfold step at h
  split at h
  · cases h
  · cases h
  · exact ⟨‹_›, ‹_›⟩

theorem runInput_issue {s : State} {idle : Nat} {req : Request} {rest : List Input}
    (h : s.host.pending = .issue idle req :: rest) : runInput s = runRequest req (takeInput idle rest s) := by
  simp [runInput, h]

theorem runRequest_of_decode {req : Request} {i : Instr} (h : decode req = .ok i) (s : State) :
    runRequest req s = exec i s := by
  simp [runRequest, h]

/-- How a step comes to a next state, by the head of the host's queue. -/
inductive Stepped (s t : State) : Prop where
  | waits (hp : s.host.pending = []) (ht : t = s)
  | runs (idle : Nat) (req : Request) (rest : List Input) (i : Instr)
      (hp : s.host.pending = .issue idle req :: rest) (hd : decode req = .ok i)
      (ht : exec i (takeInput idle rest s) = .next t)
  | rejects (idle : Nat) (req : Request) (rest : List Input) (r : Reject)
      (hp : s.host.pending = .issue idle req :: rest) (hd : decode req = .error r)
      (ht : t = rejectRequest r (takeInput idle rest s))
  | reads (r : HostRegister) (rest : List Input) (v : Int) (hp : s.host.pending = .read r :: rest)
      (hv : hostRead r s = .ok v) (ht : t = report (.value r v) (takeInput 0 rest s))
  | resets (rest : List Input) (hp : s.host.pending = .reset :: rest)
      (ht : t = (takeInput 0 rest s).resetBlock)

theorem stepped_of_step {s t : State} (h : step s = .next t) : Stepped s t := by
  rw [step_of_ready (ready_of_step h)] at h
  unfold runInput at h
  split at h
  · cases h; exact .waits ‹_› rfl
  · rename_i idle req rest hp
    unfold runRequest at h
    split at h
    · exact .runs idle req rest _ hp ‹_› h
    · cases h; exact .rejects idle req rest _ hp ‹_› rfl
  · split at h <;> cases h
    exact .reads _ _ _ ‹_› ‹_› rfl
  · cases h; exact .resets _ ‹_› rfl

/-- Whatever is wrong with a request, turning it away leaves the parameters (R83, R86). -/
@[simp] theorem rejectRequest_cfg (r : Reject) (s : State) : (rejectRequest r s).cfg = s.cfg := by
  cases r <;> rfl

end Sys2Proof.Machine
end

section
/-! SUPPORT. No instruction changes the parameters (R6). The commands that leave the attempt counter alone
too extend the KeepsBudget family; WVERIFY, which counts its attempts, and the host operations have a
lemma of their own. -/

namespace Sys2Proof.Machine

theorem crcgen_budget (s) : KeepsBudget s (crcgen s) := fun e he => by
  unfold crcgen at he
  split at he <;> cases he
  exact ⟨rfl, rfl⟩

theorem crcchk_budget (s) : KeepsBudget s (crcchk s) := fun e he => by
  unfold crcchk at he
  split at he
  · cases he; exact ⟨rfl, rfl⟩
  · split at he <;> cases he
    exact ⟨rfl, rfl⟩

theorem pchkClass_budget (k v s) : KeepsBudget s (.ok (pchkClass k v s)) := fun e he => by
  cases he
  obtain ⟨h, -⟩ | ⟨h, -⟩ := pchkClass_cases k v s <;> rw [h] <;> exact ⟨rfl, rfl⟩

theorem pchk_budget (kind v s) : KeepsBudget s (.ok (pchk kind v s)) := by
  unfold pchk
  split
  · exact pchkClass_budget _ v s
  · exact fun e he => by cases he; exact ⟨rfl, rfl⟩

theorem decodeField_budget (off width value s) : KeepsBudget s (decodeField off width value s) := fun e he => by
  obtain ⟨v, rfl⟩ := decodeField_ok he
  exact ⟨rfl, rfl⟩

theorem du16_budget (off sgn s) : KeepsBudget s (du16 off sgn s) := by
  unfold du16
  split
  · exact decodeField_budget _ _ _ s
  · exact fun e he => by cases he; exact ⟨rfl, rfl⟩

theorem dflag_budget (off bit s) : KeepsBudget s (dflag off bit s) := by
  unfold dflag
  split
  · exact decodeField_budget _ _ _ s
  · exact fun e he => by cases he; exact ⟨rfl, rfl⟩

theorem setto_budget (v s) : KeepsBudget s (.ok (setto v s)) := fun e he => by
  cases he
  unfold setto
  split <;> exact ⟨rfl, rfl⟩

theorem KeepsBudget.outcome_cfg {s t : State} {r : Except Fault Ended} (h : KeepsBudget s r)
    (ht : outcome r = .next t) : t.cfg = s.cfg := by
  obtain ⟨c, hc⟩ := outcome_next ht
  exact (h _ hc).2

/-! ## WVERIFY -/

/-- Each attempt ends with the parameters it started with, so the loop does (R228). -/
theorem verifyLoop_cfg (wd val v) (budget : Nat) :
    ∀ (s : State) (e : Ended), verifyLoop wd val v budget s = .ok e → e.state.cfg = s.cfg := by
  induction budget with
  | zero => intro s e he; cases he; rfl
  | succ budget ih =>
    intro s e he
    have hw := xwrite_budget wd val { s with rc := budget }
    simp only [verifyLoop] at he
    split at he
    · cases he
    · rename_i c t ht
      have htc : t.cfg = s.cfg := (hw _ ht).2
      split at he
      · exact (ih t e he).trans htc
      · cases he; exact htc
    · rename_i t ht
      have htc : t.cfg = s.cfg := (hw _ ht).2
      split at he
      · cases he
      · rename_i c u hu
        cases he
        exact (confirm_budget v t _ hu).2.trans htc
      · rename_i u hu
        have huc : u.cfg = s.cfg := (confirm_budget v t _ hu).2.trans htc
        split at he
        · cases he; exact huc
        · split at he
          · cases he; exact huc
          · exact (ih u e he).trans huc

theorem wverify_cfg {wd val vd : Byte} {s : State} {e : Ended} (h : wverify wd val vd s = .ok e) :
    e.state.cfg = s.cfg := by
  unfold wverify at h
  split at h
  · cases h
  · split at h
    · cases h
    · split at h
      · cases h
      · exact verifyLoop_cfg _ _ _ _ s e h

/-! ## Host operations -/

theorem hostOutcome_next {r : HostEnd} {t : State} (h : hostOutcome r = .next t) : r = .ok t := by
  unfold hostOutcome at h
  split at h <;> cases h
  rfl

@[simp] theorem reportEnd_cfg (name : String) (e : Ended) : (reportEnd name e).cfg = e.state.cfg := by
  unfold reportEnd
  split <;> rfl

theorem decodeNamed_cfg (fields : List (String × FieldSpec)) :
    ∀ acc s p, decodeNamed fields acc s = .ok p → p.2.cfg = s.cfg := by
  induction fields with
  | nil => intro acc s p hp; cases hp; rfl
  | cons field fields ih =>
    obtain ⟨name, fs⟩ := field
    intro acc s p hp
    simp only [decodeNamed] at hp
    split at hp
    · cases hp
    · rename_i e he
      exact (ih _ _ _ hp).trans (dfield_budget fs s _ he).2

theorem runReadSteps_cfg (steps : List ReadStep) :
    ∀ acc s t, runReadSteps steps acc s = .ok t → t.cfg = s.cfg := by
  induction steps with
  | nil => intro acc s t ht; cases ht; rfl
  | cons st steps ih =>
    intro acc s t ht
    have hx := xread_budget st.rd s
    simp only [runReadSteps] at ht
    split at ht
    · cases ht
    · rename_i c u hu
      cases ht
      exact (hx _ hu).2
    · rename_i u hu
      split at ht
      · cases ht
      · rename_i acc' w hw
        exact (ih _ _ _ ht).trans ((decodeNamed_cfg _ _ _ _ hw).trans (hx _ hu).2)

theorem readOperation_cfg {code : Nat} {s t : State} (h : readOperation code s = .ok t) : t.cfg = s.cfg := by
  unfold readOperation at h
  split at h
  · cases h
  · exact runReadSteps_cfg _ _ _ _ h

theorem checkParams_cfg (params : List (ParamKind × HostParam)) :
    ∀ acc s, (checkParams params acc s).2.cfg = s.cfg := by
  induction params with
  | nil => intro acc s; rfl
  | cons kp params ih =>
    obtain ⟨k, p⟩ := kp
    intro acc s
    simp only [checkParams]
    split
    · rfl
    · rename_i v _
      have hc := (pchkClass_budget k v s _ rfl).2
      split <;> rename_i hr <;> rw [hr] at hc
      · exact (ih _ _).trans hc
      · exact hc

theorem validated_cfg (params : List (ParamKind × HostParam)) (s : State) :
    (validated params s).2.cfg = s.cfg := by
  unfold validated
  split
  · exact checkParams_cfg params [] s
  · rfl

theorem writeOperation_cfg {code selecting : Nat} {params : List (ParamKind × HostParam)}
    {value : Catalog → List Byte → Byte} {result : String} {s t : State}
    (h : writeOperation code selecting params value result s = .ok t) : t.cfg = s.cfg := by
  have hv := validated_cfg params s
  unfold writeOperation at h
  split at h <;> rename_i hu <;> rw [hu] at hv
  · cases h; exact hv
  · split at h
    · cases h
    · split at h
      · cases h
      · rename_i e he
        cases h
        rw [reportEnd_cfg]
        exact (wverify_cfg he).trans hv

@[simp] theorem timeoutOperation_cfg (value : HostParam) (s : State) : (timeoutOperation value s).cfg = s.cfg := by
  unfold timeoutOperation
  split
  · rfl
  · rename_i v _
    rw [reportEnd_cfg]
    exact (setto_budget v s _ rfl).2

/-- When "Reboot gateway" gives a next state, it is the reset block (R247, R290). -/
theorem execOp20_next {s t : State} (h : execOp20 s = .next t) : t = s.resetBlock := by
  unfold execOp20 at h
  split at h <;> cases h
  rfl

/-! ## Every instruction -/

theorem exec_cfg {i : Instr} {s t : State} (h : exec i s = .next t) : t.cfg = s.cfg := by
  cases i with
  | crcgen => exact (crcgen_budget s).outcome_cfg h
  | crcchk => exact (crcchk_budget s).outcome_cfg h
  | fvalid => exact (fvalid_budget s).outcome_cfg h
  | encrd dest type len => exact (encrd_budget dest type len s).outcome_cfg h
  | encwr dest type woff val => exact (encwr_budget dest type woff val s).outcome_cfg h
  | pchk kind value => exact (pchk_budget kind value s).outcome_cfg h
  | dtype => exact (decodeField_budget _ _ _ s).outcome_cfg h
  | tchk type => exact (tchk_budget type s).outcome_cfg h
  | du8 off => exact (decodeField_budget _ _ _ s).outcome_cfg h
  | du16 off sgn => exact (du16_budget off sgn s).outcome_cfg h
  | dhalf off => exact (decodeField_budget _ _ _ s).outcome_cfg h
  | dflag off bit => exact (dflag_budget off bit s).outcome_cfg h
  | du24 off => exact (decodeField_budget _ _ _ s).outcome_cfg h
  | dack => exact (dack_budget s).outcome_cfg h
  | await => exact (awaitTurn_budget s).outcome_cfg h
  | xmit => exact (xmit_budget s).outcome_cfg h
  | recv => exact (recv_budget s).outcome_cfg h
  | setto value => exact (setto_budget value s).outcome_cfg h
  | xread rd => exact (xread_budget rd s).outcome_cfg h
  | xwrite wd val => exact (xwrite_budget wd val s).outcome_cfg h
  | wverify wd val vd =>
    obtain ⟨c, hc⟩ := outcome_next h
    exact wverify_cfg hc
  | op1 | op2 | op3 | op4 | op9 => exact readOperation_cfg (hostOutcome_next h)
  | op10 | op11 | op12 | op13 | op14 => exact writeOperation_cfg (hostOutcome_next h)
  | op20 => rw [execOp20_next h, resetBlock_cfg]
  | op21 | op22 | op23 | op24 => cases h
  | op25 value => cases h; exact timeoutOperation_cfg value s

end Sys2Proof.Machine
end

section
/-! SUPPORT. What a read of an unwritten byte does to XMIT (R192) and to a host's read (R276), and the
codes of the transport states (R28). -/

namespace Sys2Proof.Machine

/-- A paced send stops at its first unwritten byte. The bytes before it are sent first, which takes a wait
that returns; with none before it the pace does not matter. -/
theorem sendBytes_unwritten (gap : Nat) (tx : Memory) (n a k : Nat) (e : Env) (hk : k < n)
    (hw : ∀ i < k, (tx.read (a + i)).isSome = true) (hu : tx.read (a + k) = none) (hg : k = 0 ∨ gap < 2 ^ 32) :
    sendBytes gap tx (List.range' a n) e = .error (.unwrittenRead .tx (a + k)) := by
  induction k generalizing n a e with
  | zero =>
    obtain ⟨m, rfl⟩ : ∃ m, n = m + 1 := ⟨n - 1, by omega⟩
    simp only [Nat.add_zero] at hu
    simp only [List.range'_succ, sendBytes, readByte_of_unwritten hu, Nat.add_zero]
  | succ k ih =>
    obtain ⟨m, rfl⟩ : ∃ m, n = m + 1 := ⟨n - 1, by omega⟩
    obtain ⟨b, hb⟩ := Option.isSome_iff_exists.1 (hw 0 (by omega))
    have hlt : gap < 2 ^ 32 := hg.resolve_left (by omega)
    have hrest := ih m (a + 1) ((e.send (.data b)).wait gap) (by omega)
      (fun i hi => by simpa [Nat.add_assoc, Nat.add_comm 1] using hw (i + 1) (by omega))
      (by simpa [Nat.add_assoc, Nat.add_comm 1] using hu) (.inr hlt)
    simp only [Nat.add_zero] at hb
    simp only [List.range'_succ, sendBytes, readByte_of_read hb, EnvLaws.waitMs_of_lt _ hlt, hrest,
      Nat.add_assoc, Nat.add_comm 1]

/-- With a gap no wait can reach, a send is stuck behind its first byte (log entry 7). -/
theorem sendBytes_stuck {gap i : Nat} {tx : Memory} {b : Byte} (is : List Nat) (e : Env) (hb : tx.read i = some b)
    (hg : 2 ^ 32 ≤ gap) : sendBytes gap tx (i :: is) e = .error (.stuckInWait gap) := by
  simp only [sendBytes, readByte_of_read hb, EnvLaws.waitMs_of_ge _ hg]

/-- In TRANSMITTING, XMIT faults as the send of `TX[0..5]` does. -/
theorem exec_xmit_fault {s : State} {f : Fault} (ht : s.bt = .transmitting)
    (h : sendBytes s.cfg.txGap s.tx (List.range' 0 6) s.env.now = .error f) : exec .xmit s = .fault f := by
  rw [← List.range_eq_range'] at h
  simp only [exec, execXmit, xmit, ht, ↓reduceIte, Config.txWire, h, outcome]

theorem byteRead_of_read {buf : Buffer} {m : Memory} {i : Nat} {b : Byte} (h : m.read i = some b) :
    byteRead buf m i = .ok (b.toNat : Int) := by
  simp only [byteRead, readByte_of_read h]

theorem byteRead_of_unwritten {buf : Buffer} {m : Memory} {i : Nat} (h : m.read i = none) :
    byteRead buf m i = .error (.unwrittenRead buf i) := by
  simp only [byteRead, readByte_of_unwritten h]

theorem BtState.code_table (b : BtState) : (b, b.code) ∈ [(BtState.idle, 0), (.waitingForPoll, 1),
    (.transmitting, 2), (.awaitingReply, 3), (.replyCaptured, 4), (.validated, 5), (.timedOut, 6)] := by
  cases b <;> decide

end Sys2Proof.Machine
end

namespace Sys2Proof.Proofs

open Sys2Proof.Machine

/-- Settles O55: by what a step can do; every instruction keeps the parameters, and so do a refused
request, a host's read and the reset. -/
theorem parametersNeverChange : Obligations.ParametersNeverChange := by
  intro s t h
  cases stepped_of_step h with
  | waits _ ht => rw [ht]
  | runs _ _ _ _ _ _ ht => rw [exec_cfg ht, takeInput_cfg]
  | rejects _ _ _ _ _ _ ht => rw [ht, rejectRequest_cfg, takeInput_cfg]
  | reads _ _ _ _ _ ht => rw [ht, report_cfg, takeInput_cfg]
  | resets _ _ ht => rw [ht, resetBlock_cfg, takeInput_cfg]

/-- Settles O6: a ready block takes the request at the head of the queue and runs what it decodes to. -/
theorem stepRunsTheDecodedInstruction : Obligations.StepRunsTheDecodedInstruction := by
  intro s idle req rest i hready hpending hdecode
  rw [step_of_ready hready, runInput_issue hpending, runRequest_of_decode hdecode]

/-- Settles O30: XMIT by the paced send of `TX[0..5]`, a host's read register by register. -/
theorem unwrittenReadsFault : Obligations.UnwrittenReadsFault := by
  intro s k
  refine ⟨?_, ?_, byteRead_of_unwritten, byteRead_of_unwritten, fun _ => byteRead_of_read, fun _ => byteRead_of_read,
    ?_, ?_, ?_, rfl, rfl, rfl, rfl, rfl, s.bt.code, rfl, s.bt.code_table⟩
  · intro hk hw hu ht hg
    have hsend := sendBytes_unwritten s.cfg.txGap s.tx 6 0 k s.env.now hk (by simpa using hw) (by simpa using hu) hg
    rw [Nat.zero_add] at hsend
    exact exec_xmit_fault ht hsend
  · intro hw ht hg
    obtain ⟨b, hb⟩ := Option.isSome_iff_exists.1 hw
    exact exec_xmit_fault ht (sendBytes_stuck _ _ hb hg)
  · intro hv
    simp [hostRead, hv]
  · intro hv
    simp [hostRead, hv]
  · intro hv
    simp [hostRead, hv]

end Sys2Proof.Proofs

section
/-! SUPPORT. The invariant over every instruction and every input (R24, R26, R28, R175, R192): each command
keeps it (the KeepsInv family), so does what the host's side adds to a step, and reset establishes it. -/

namespace Sys2Proof.Machine

theorem statusZero_legal : statusLegal 0 = true := by decide +kernel

/-- Reset meets the invariant in any build: the buffers are empty and every register is legal. -/
theorem resetWith_inv (cfg : Params) (env : Env) (pending : List Input) :
    Inv (State.resetWith cfg env pending) where
  buffers := ⟨rfl, rfl, .inl rfl, rfl, rfl, Nat.zero_le _, fun i hi => absurd hi (Nat.not_lt_zero i)⟩
  registers := ⟨statusZero_legal, cfg.ansToReset_legal, Nat.zero_le _, List.nodup_nil⟩
  transport := ⟨nofun, nofun, fun _ => rfl, nofun⟩

/-- A reset in mid-run is the reset of the same build, with the host's side kept. -/
theorem resetBlock_inv (s : State) : Inv s.resetBlock :=
  (resetWith_inv s.cfg s.env []).withOutside s.env s.host

theorem takeInput_inv {s : State} (h : Inv s) (idle : Nat) (rest : List Input) : Inv (takeInput idle rest s) :=
  h.withOutside _ _

theorem rejectRequest_inv {s : State} (h : Inv s) (r : Reject) : Inv (rejectRequest r s) := by
  cases r with
  | illegalHostCode => exact report_inv h _
  | illegalOpcode | reservedOperand | operandRange => exact h.fail _

theorem readOperation_inv {code : Nat} {s t : State} (h : Inv s) (ht : readOperation code s = .ok t) : Inv t := by
  unfold readOperation at ht
  split at ht
  · cases ht
  · exact runReadSteps_inv _ _ _ _ h ht

theorem KeepsInv.outcome {r : Except Fault Ended} {t : State} (h : KeepsInv r) (ht : outcome r = .next t) :
    Inv t := by
  obtain ⟨c, hc⟩ := outcome_next ht
  exact h _ hc

theorem exec_inv {i : Instr} {s t : State} (h : Inv s) (ht : exec i s = .next t) : Inv t := by
  cases i with
  | crcgen => exact (crcgen_inv h).outcome ht
  | crcchk => exact (crcchk_inv h).outcome ht
  | fvalid => exact (fvalid_inv h).outcome ht
  | encrd dest type len => cases ht; exact encrd_inv h dest type len
  | encwr dest type woff val => cases ht; exact encwr_inv h dest type woff val
  | pchk kind value => cases ht; exact pchk_inv h kind value
  | dtype | du8 | dhalf | du24 => exact (decodeField_inv h _ _ _).outcome ht
  | tchk type => exact (tchk_inv h type).outcome ht
  | du16 off sgn => exact (du16_inv h off sgn).outcome ht
  | dflag off bit => exact (dflag_inv h off bit).outcome ht
  | dack => exact (dack_inv h).outcome ht
  | await => cases ht; exact awaitTurn_inv h
  | xmit => exact (xmit_inv h).outcome ht
  | recv => cases ht; exact recv_inv h
  | setto value => cases ht; exact setto_inv h value
  | xread rd => exact (xread_inv h rd).outcome ht
  | xwrite wd val => exact (xwrite_inv h wd val).outcome ht
  | wverify wd val vd => exact (wverify_inv wd val vd s h).outcome ht
  | op1 | op2 | op3 | op4 | op9 => exact readOperation_inv h (hostOutcome_next ht)
  | op10 | op11 | op12 | op13 | op14 => exact writeOperation_inv _ _ _ _ _ _ _ h (hostOutcome_next ht)
  | op20 => rw [execOp20_next ht]; exact resetBlock_inv s
  | op21 | op22 | op23 | op24 => cases ht
  | op25 value => cases ht; exact timeoutOperation_inv value s h

end Sys2Proof.Machine
end

section
/-! SUPPORT. How a block command leaves STATUS (R24, R260): its end is sound (the EndsSound family), and a
sound end is a success or one of the eight causes. -/

namespace Sys2Proof.Machine

theorem Cause.code_bounds (c : Cause) : 1 ≤ c.code ∧ c.code ≤ 8 := by cases c <;> decide

theorem statusFail_eq (c : Cause) : statusFail c = BitVec.ofNat 8 (2 * c.code) := rfl

theorem Ended.Sound.status_cases {e : Ended} (h : e.Sound) :
    e.state.status = statusOk ∨ ∃ c, e.state.status = statusFail c ∧ e.state.resv = false := by
  unfold Ended.Sound at h
  split at h
  · exact .inl h
  · exact .inr ⟨_, h⟩

theorem EndsSound.outcome {r : Except Fault Ended} {t : State} (h : EndsSound r) (ht : outcome r = .next t) :
    ∃ c, Ended.Sound ⟨c, t⟩ := by
  obtain ⟨c, hc⟩ := outcome_next ht
  exact ⟨c, h _ hc⟩

theorem exec_command_sound {i : Instr} {s t : State} (hi : Spec.isCommand i = true) (ht : exec i s = .next t) :
    ∃ c, Ended.Sound ⟨c, t⟩ := by
  cases i with
  | crcgen => exact (crcgen_sound s).outcome ht
  | crcchk => exact (crcchk_sound s).outcome ht
  | fvalid => exact (fvalid_sound s).outcome ht
  | encrd dest type len => cases ht; exact ⟨_, encrd_sound dest type len s⟩
  | encwr dest type woff val => cases ht; exact ⟨_, encwr_sound dest type woff val s⟩
  | pchk kind value => cases ht; exact ⟨_, pchk_sound kind value s⟩
  | dtype | du8 | dhalf | du24 => exact (decodeField_sound _ _ _ s).outcome ht
  | tchk type => exact (tchk_sound type s).outcome ht
  | du16 off sgn => exact (du16_sound off sgn s).outcome ht
  | dflag off bit => exact (dflag_sound off bit s).outcome ht
  | dack => exact (dack_sound s).outcome ht
  | await => cases ht; exact ⟨_, awaitTurn_sound s⟩
  | xmit => exact (xmit_sound s).outcome ht
  | recv => cases ht; exact ⟨_, recv_sound s⟩
  | setto value => cases ht; exact ⟨_, setto_sound value s⟩
  | xread rd => exact (xread_sound rd s).outcome ht
  | xwrite wd val => exact (xwrite_sound wd val s).outcome ht
  | wverify wd val vd => exact (wverify_sound wd val vd s).outcome ht
  | op1 | op2 | op3 | op4 | op9 | op10 | op11 | op12 | op13 | op14 | op20 | op21 | op22 | op23 | op24 | op25 =>
    cases hi

end Sys2Proof.Machine
end

section
/-! SUPPORT. What a stopped block does (R34, R271): it answers its fault or its refusal again, and recording
that once more changes nothing. -/

namespace Sys2Proof.Machine

theorem step_of_fault {s : State} {f : Fault} {fs : List Fault} (h : s.fault = f :: fs) : step s = .fault f := by
  simp only [step, h]

theorem step_of_refusal {s : State} {r : Refusal} (hf : s.fault = []) (hr : s.refusal = some r) :
    step s = .refused r := by
  simp only [step, hf, hr]

theorem settle_of_fault {s : State} {f : Fault} (h : step s = .fault f) : settle s = recordFault f s := by
  simp only [settle, h]

theorem settle_of_refused {s : State} {r : Refusal} (h : step s = .refused r) : settle s = recordRefusal r s := by
  simp only [settle, h]

/-- FAULT is a set: a reason that is in it is not added again (R34). -/
theorem recordFault_of_mem {s : State} {f : Fault} (h : f ∈ s.fault) : recordFault f s = s := by
  simp only [recordFault, h, ↓reduceIte]

theorem recordFault_of_empty {s : State} (f : Fault) (h : s.fault = []) : recordFault f s = { s with fault := [f] } := by
  simp only [recordFault, h, List.not_mem_nil, ↓reduceIte, List.nil_append]

theorem recordRefusal_of_marked {s : State} {r : Refusal} (h : s.refusal = some r) : recordRefusal r s = s := by
  rw [recordRefusal, ← h]

theorem settleRun_of_settled {s : State} (h : settle s = s) (k : Nat) : settleRun k s = s := by
  induction k with
  | zero => rfl
  | succ k ih => rw [settleRun, h, ih]

end Sys2Proof.Machine
end

namespace Sys2Proof.Proofs

open Sys2Proof.Machine

/-- Settles O59: by what a step can do; every instruction keeps the invariant, the host's side does not
touch it, and the reset establishes it anew. -/
theorem stepKeepsTheInvariant : Obligations.StepKeepsTheInvariant := by
  intro s t hs h
  cases stepped_of_step h with
  | waits _ ht => rw [ht]; exact hs
  | runs idle _ rest _ _ _ ht => exact exec_inv (takeInput_inv hs idle rest) ht
  | rejects idle _ rest r _ _ ht => rw [ht]; exact rejectRequest_inv (takeInput_inv hs idle rest) r
  | reads _ rest _ _ _ ht => rw [ht]; exact report_inv (takeInput_inv hs 0 rest) _
  | resets rest _ ht => rw [ht]; exact resetBlock_inv _

/-- Settles O58: in any build, so in the one of `State.reset`. -/
theorem resetMeetsTheInvariant : Obligations.ResetMeetsTheInvariant :=
  ⟨resetWith_inv, resetWith_inv _ _ _⟩

/-- Settles O53: a block command's end is sound, and a sound end is a success or one of the causes. -/
theorem commandsReportOneOutcome : Obligations.CommandsReportOneOutcome := by
  refine ⟨fun i s t hi h => ?_, fun _ _ _ => rfl⟩
  obtain ⟨_, hsound⟩ := exec_command_sound hi h
  obtain hok | ⟨c, hfail, hresv⟩ := hsound.status_cases
  · exact .inl hok
  · exact .inr ⟨c.code, c.code_bounds.1, c.code_bounds.2, hfail.trans (statusFail_eq c), hresv⟩

/-- Settles O8: what is recorded first, and then that a stopped block records the same again, which changes
nothing, whether for one step or for any number. -/
theorem faultIsRecordedAndFinal : Obligations.FaultIsRecordedAndFinal := by
  intro s
  refine ⟨fun f hready h => ?_, fun r _ h => settle_of_refused h, fun hne => ?_, fun r hf hr => ?_⟩
  · rw [settle_of_fault h, recordFault_of_empty f hready.1]
  · obtain ⟨f, fs, hfs⟩ := List.exists_cons_of_ne_nil hne
    have hmem : f ∈ s.fault := by rw [hfs]; exact List.mem_cons_self
    have hstep := step_of_fault hfs
    exact ⟨⟨f, hmem, hstep⟩, settleRun_of_settled ((settle_of_fault hstep).trans (recordFault_of_mem hmem))⟩
  · have hstep := step_of_refusal hf hr
    exact ⟨hstep, settleRun_of_settled ((settle_of_refused hstep).trans (recordRefusal_of_marked hr))⟩

end Sys2Proof.Proofs

section
/-! SUPPORT. Which registers each command writes (R23 to R32), one lemma per command; what a step of an
exchange other than XMIT leaves alone; and the relations that then hold over whole exchanges and the
operations made of them. Then what can change ANS_TO. -/

namespace Sys2Proof.Machine

/-! ## The writers, command by command -/

/-- `t` is `s` but for STATUS, RES and RESV: how every command ends (R24, R29, R262). -/
def OutcomeOnly (s t : State) : Prop := t = { s with status := t.status, res := t.res, resv := t.resv }

theorem OutcomeOnly.eq {s t : State} (h : OutcomeOnly s t) :
    t = { s with status := t.status, res := t.res, resv := t.resv } := h

theorem crcgen_writes {s : State} {e : Ended} (h : crcgen s = .ok e) :
    OutcomeOnly { s with tx := e.state.tx } e.state := by
  unfold crcgen at h
  split at h <;> cases h
  rfl

theorem crcchk_writes {s : State} {e : Ended} (h : crcchk s = .ok e) : OutcomeOnly s e.state := by
  unfold crcchk at h
  split at h
  · cases h; rfl
  · split at h <;> cases h
    rfl

theorem fvalid_writes {s : State} {e : Ended} (h : fvalid s = .ok e) :
    OutcomeOnly { s with bt := e.state.bt } e.state := by
  unfold fvalid at h
  split at h
  · cases h; rfl
  · split at h <;> cases h
    · rfl
    · rw [markValidated_eq]; rfl

theorem encrd_writes (dest type len : Byte) (s : State) :
    OutcomeOnly { s with tx := (encrd dest type len s).state.tx, bt := (encrd dest type len s).state.bt }
      (encrd dest type len s).state := by
  unfold encrd
  split <;> rfl

theorem encwr_writes (dest type woff val : Byte) (s : State) :
    OutcomeOnly { s with tx := (encwr dest type woff val s).state.tx, bt := (encwr dest type woff val s).state.bt }
      (encwr dest type woff val s).state := by
  unfold encwr
  split <;> rfl

theorem pchkClass_writes (k : ParamKind) (v : Byte) (s : State) : OutcomeOnly s (pchkClass k v s).state := by
  unfold pchkClass
  split <;> rfl

theorem pchk_writes (kind v : Byte) (s : State) : OutcomeOnly s (pchk kind v s).state := by
  unfold pchk
  split
  · exact pchkClass_writes _ v s
  · rfl

theorem decodeField_writes {off width : Nat} {value : List Byte → Int} {s : State} {e : Ended}
    (h : decodeField off width value s = .ok e) : OutcomeOnly s e.state := by
  obtain ⟨v, rfl⟩ := decodeField_ok h
  rfl

theorem dfield_writes {fs : FieldSpec} {s : State} {e : Ended} (h : dfield fs s = .ok e) : OutcomeOnly s e.state := by
  obtain ⟨v, rfl⟩ := dfield_ok h
  rfl

theorem du16_writes {off sgn : Byte} {s : State} {e : Ended} (h : du16 off sgn s = .ok e) : OutcomeOnly s e.state := by
  unfold du16 at h
  split at h
  · exact decodeField_writes h
  · cases h; rfl

theorem dflag_writes {off bit : Byte} {s : State} {e : Ended} (h : dflag off bit s = .ok e) :
    OutcomeOnly s e.state := by
  unfold dflag at h
  split at h
  · exact decodeField_writes h
  · cases h; rfl

theorem tchk_writes {type : Byte} {s : State} {e : Ended} (h : tchk type s = .ok e) : OutcomeOnly s e.state := by
  unfold tchk at h
  split at h
  · cases h
  · split at h <;> cases h <;> rfl

theorem dack_writes {s : State} {e : Ended} (h : dack s = .ok e) :
    OutcomeOnly { s with bt := e.state.bt } e.state := by
  unfold dack at h
  split at h
  · cases h; rfl
  · split at h
    · cases h
    · split at h <;> cases h
      · rw [markValidated_eq]; rfl
      · rfl

/-- What AWAIT and RECV, which capture, write between them. -/
def CaptureOnly (s t : State) : Prop := OutcomeOnly { s with rx := t.rx, rxlen := t.rxlen, bt := t.bt, env := t.env } t

theorem awaitTurn_writes (s : State) : CaptureOnly s (awaitTurn s).state := by
  unfold CaptureOnly OutcomeOnly
  rw [(awaitTurn_awaited s).frame]

theorem recv_writes (s : State) : CaptureOnly s (recv s).state := by
  by_cases h : s.bt = .awaitingReply
  · unfold CaptureOnly OutcomeOnly
    rw [(recv_received s h).frame]
  · rw [recv_interlock s h]
    rfl

theorem xmit_writes {s : State} {e : Ended} (h : xmit s = .ok e) :
    OutcomeOnly { s with bt := e.state.bt, env := e.state.env, tTx := e.state.tTx, xcnt := e.state.xcnt } e.state := by
  unfold xmit at h
  split at h
  · split at h <;> cases h
    rfl
  · cases h; rfl

theorem setto_writes (v : Byte) (s : State) :
    OutcomeOnly { s with ansTo := (setto v s).state.ansTo } (setto v s).state := by
  unfold setto
  split <;> rfl

theorem reportEnd_eq (name : String) (e : Ended) :
    reportEnd name e = { e.state with host := (reportEnd name e).host } := by
  unfold reportEnd
  split <;> rfl

theorem timeoutOperation_writes (value : HostParam) (s : State) :
    OutcomeOnly { s with ansTo := (timeoutOperation value s).ansTo, host := (timeoutOperation value s).host }
      (timeoutOperation value s) := by
  unfold timeoutOperation
  split
  · rfl
  · rename_i v _
    unfold OutcomeOnly
    rw [reportEnd_eq, (setto_writes v s).eq]

/-! ## The writers, instruction by instruction -/

/-- What an instruction that runs no whole exchange, and is not host operation 20, may write besides the
outcome registers. -/
inductive Wrote (s t : State) : Instr → Prop where
  | outcome (i : Instr) (h : OutcomeOnly s t) : Wrote s t i
  | crcgen (h : OutcomeOnly { s with tx := t.tx } t) : Wrote s t .crcgen
  | encrd (dest type len : Byte) (h : OutcomeOnly { s with tx := t.tx, bt := t.bt } t) :
      Wrote s t (.encrd dest type len)
  | encwr (dest type woff val : Byte) (h : OutcomeOnly { s with tx := t.tx, bt := t.bt } t) :
      Wrote s t (.encwr dest type woff val)
  | fvalid (h : OutcomeOnly { s with bt := t.bt } t) : Wrote s t .fvalid
  | dack (h : OutcomeOnly { s with bt := t.bt } t) : Wrote s t .dack
  | await (h : CaptureOnly s t) : Wrote s t .await
  | recv (h : CaptureOnly s t) : Wrote s t .recv
  | xmit (h : OutcomeOnly { s with bt := t.bt, env := t.env, tTx := t.tTx, xcnt := t.xcnt } t) : Wrote s t .xmit
  | setto (value : Byte) (h : OutcomeOnly { s with ansTo := t.ansTo } t) : Wrote s t (.setto value)
  | op25 (value : HostParam) (h : OutcomeOnly { s with ansTo := t.ansTo, host := t.host } t) : Wrote s t (.op25 value)

theorem exec_wrote {i : Instr} {s t : State} (ht : exec i s = .next t) (hx : Spec.runsExchanges i = false)
    (h20 : i ≠ .op20) : Wrote s t i := by
  cases i with
  | crcgen => obtain ⟨_, he⟩ := outcome_next ht; exact .crcgen (crcgen_writes he)
  | crcchk => obtain ⟨_, he⟩ := outcome_next ht; exact .outcome _ (crcchk_writes he)
  | fvalid => obtain ⟨_, he⟩ := outcome_next ht; exact .fvalid (fvalid_writes he)
  | encrd dest type len => cases ht; exact .encrd _ _ _ (encrd_writes dest type len s)
  | encwr dest type woff val => cases ht; exact .encwr _ _ _ _ (encwr_writes dest type woff val s)
  | pchk kind value => cases ht; exact .outcome _ (pchk_writes kind value s)
  | dtype | du8 | dhalf | du24 => obtain ⟨_, he⟩ := outcome_next ht; exact .outcome _ (decodeField_writes he)
  | tchk => obtain ⟨_, he⟩ := outcome_next ht; exact .outcome _ (tchk_writes he)
  | du16 => obtain ⟨_, he⟩ := outcome_next ht; exact .outcome _ (du16_writes he)
  | dflag => obtain ⟨_, he⟩ := outcome_next ht; exact .outcome _ (dflag_writes he)
  | dack => obtain ⟨_, he⟩ := outcome_next ht; exact .dack (dack_writes he)
  | await => cases ht; exact .await (awaitTurn_writes s)
  | xmit => obtain ⟨_, he⟩ := outcome_next ht; exact .xmit (xmit_writes he)
  | recv => cases ht; exact .recv (recv_writes s)
  | setto value => cases ht; exact .setto _ (setto_writes value s)
  | xread | xwrite | wverify | op1 | op2 | op3 | op4 | op9 | op10 | op11 | op12 | op13 | op14 => cases hx
  | op20 => exact absurd rfl h20
  | op21 | op22 | op23 | op24 => cases ht
  | op25 value => cases ht; exact .op25 _ (timeoutOperation_writes value s)

/-! ## Whole exchanges -/

/-- Nothing is handed to the link, and the parameters, ANS_TO, FAULT, the refusal mark and XMIT's own registers
T_TX and XCNT are as they were. -/
structure Silent (s t : State) : Prop where
  cfg : t.cfg = s.cfg
  ansTo : t.ansTo = s.ansTo
  tTx : t.tTx = s.tTx
  xcnt : t.xcnt = s.xcnt
  fault : t.fault = s.fault
  refusal : t.refusal = s.refusal
  sent : t.env.sent = s.env.sent

/-- The commands that build a frame or give a verdict are silent: they write TX and BT_STATE at most. -/
theorem OutcomeOnly.silent {s t : State} {m : Memory} {b : BtState} (h : OutcomeOnly { s with tx := m, bt := b } t) :
    Silent s t := by
  rw [h.eq]; exact ⟨rfl, rfl, rfl, rfl, rfl, rfl, rfl⟩

theorem CaptureOnly.silent {s t : State} (h : CaptureOnly s t) (hs : t.env.sent = s.env.sent) : Silent s t where
  cfg := by rw [h.eq]
  ansTo := by rw [h.eq]
  tTx := by rw [h.eq]
  xcnt := by rw [h.eq]
  fault := by rw [h.eq]
  refusal := by rw [h.eq]
  sent := hs

theorem recv_sent (s : State) : (recv s).state.env.sent = s.env.sent := by
  by_cases h : s.bt = .awaitingReply
  · exact (recv_received s h).sent
  · rw [recv_interlock s h]; rfl

/-- A relation between the states before and after that composes, and holds over each step of an exchange. Then it
holds over whole exchanges, and over the operations made of them. -/
structure HoldsOverSteps (R : State → State → Prop) : Prop where
  trans : ∀ {s t u}, R s t → R t u → R s u
  silent : ∀ {s t}, Silent s t → R s t
  xmit : ∀ {s e}, xmit s = .ok e → R s e.state

/-- Whatever `r` ends in stands to `s` as `R` says. -/
def EndsIn (R : State → State → Prop) (s : State) (r : Except Fault Ended) : Prop :=
  ∀ e, r = .ok e → R s e.state

section

variable {R : State → State → Prop}

theorem EndsIn.ok {s : State} {e : Ended} (h : R s e.state) : EndsIn R s (.ok e) := fun _ he => by cases he; exact h

theorem EndsIn.error (s : State) (f : Fault) : EndsIn R s (.error f) := fun _ he => by cases he

namespace HoldsOverSteps

variable (hR : HoldsOverSteps R)

include hR

theorem refl (s : State) : R s s := hR.silent ⟨rfl, rfl, rfl, rfl, rfl, rfl, rfl⟩

theorem report (r : Report) (s : State) : R s (report r s) := hR.silent ⟨rfl, rfl, rfl, rfl, rfl, rfl, rfl⟩

theorem thenRun {s : State} {r : Except Fault Ended} {k : State → Except Fault Ended} (hr : EndsIn R s r)
    (hk : ∀ t, EndsIn R t (k t)) : EndsIn R s (thenRun r k) := by
  intro e he
  obtain ⟨t, ht, hkt⟩ | ⟨_, -, hc⟩ := thenRun_cases he
  · exact hR.trans (hr _ ht) (hk t e hkt)
  · exact hr e hc

theorem outcome {s : State} {r : Except Fault Ended} (h : ∀ e, r = .ok e → OutcomeOnly s e.state) : EndsIn R s r :=
  fun e he => hR.silent (h e he).silent

theorem awaitTurn (s : State) : EndsIn R s (.ok (awaitTurn s)) :=
  .ok (hR.silent ((awaitTurn_writes s).silent (awaitTurn_awaited s).sent))

theorem recv (s : State) : EndsIn R s (.ok (recv s)) := .ok (hR.silent ((recv_writes s).silent (recv_sent s)))

theorem readExchange (r : ReadDesc) (s : State) : EndsIn R s (readExchange r s) :=
  hR.thenRun (.ok (hR.silent (encrd_writes _ _ _ _).silent)) fun t =>
  hR.thenRun (hR.awaitTurn t) fun _ =>
  hR.thenRun (fun _ => hR.xmit) fun t =>
  hR.thenRun (hR.recv t) fun _ =>
  hR.thenRun (fun _ he => hR.silent (fvalid_writes he).silent) fun _ =>
  hR.thenRun (hR.outcome fun _ => tchk_writes) fun _ => hR.outcome fun _ he => by cases he; rfl

theorem writeExchange (w : WriteDesc) (val : Byte) (s : State) : EndsIn R s (writeExchange w val s) :=
  hR.thenRun (.ok (hR.silent (encwr_writes _ _ _ _ _).silent)) fun t =>
  hR.thenRun (hR.awaitTurn t) fun _ =>
  hR.thenRun (fun _ => hR.xmit) fun t =>
  hR.thenRun (hR.recv t) fun _ =>
  hR.thenRun (fun _ he => hR.silent (dack_writes he).silent) fun _ => hR.outcome fun _ he => by cases he; rfl

theorem xread (rd : Byte) (s : State) : EndsIn R s (xread rd s) := by
  unfold Machine.xread
  split
  · exact .error s _
  · exact hR.readExchange _ s

theorem xwrite (wd val : Byte) (s : State) : EndsIn R s (xwrite wd val s) := by
  unfold Machine.xwrite
  split
  · exact .error s _
  · exact hR.writeExchange _ val s

theorem confirm (v : VerifyDesc) (s : State) : EndsIn R s (confirm v s) :=
  hR.thenRun (hR.xread v.rd s) fun _ => hR.outcome fun _ => dfield_writes

/-- Every attempt of WVERIFY is a write exchange, after RC is counted down, and then a confirming read (R228). -/
theorem verifyLoop (wd val : Byte) (v : VerifyDesc) (budget : Nat) (s : State) :
    EndsIn R s (verifyLoop wd val v budget s) := by
  induction budget generalizing s with
  | zero => exact hR.outcome fun _ he => by cases he; rfl
  | succ budget ih =>
    have hcount : R s { s with rc := budget } := hR.silent ⟨rfl, rfl, rfl, rfl, rfl, rfl, rfl⟩
    have hwrite : EndsIn R s (Machine.xwrite wd val { s with rc := budget }) := fun e he =>
      hR.trans hcount (hR.xwrite wd val _ e he)
    unfold Machine.verifyLoop
    split
    · exact .error s _
    · rename_i c t ht
      split
      · exact fun e he => hR.trans (hwrite _ ht) (ih t e he)
      · exact .ok (hwrite _ ht)
    · rename_i t ht
      have hread : EndsIn R s (Machine.confirm v t) := fun e he => hR.trans (hwrite _ ht) (hR.confirm v t e he)
      split
      · exact .error s _
      · rename_i c u hu
        exact .ok (hread _ hu)
      · rename_i u hu
        have hend : ∀ {e : Ended}, OutcomeOnly u e.state → EndsIn R s (.ok e) := fun he =>
          .ok (hR.trans (hread _ hu) (hR.silent he.silent))
        split
        · exact hend rfl
        · split
          · exact hend rfl
          · exact fun e he => hR.trans (hread _ hu) (ih u e he)

theorem wverify (wd val vd : Byte) (s : State) : EndsIn R s (wverify wd val vd s) := by
  unfold Machine.wverify
  split
  · exact .error s _
  · split
    · exact .error s _
    · split
      · exact .error s _
      · exact hR.verifyLoop _ _ _ _ s

theorem reportEnd {s : State} {e : Ended} (name : String) (h : R s e.state) : R s (reportEnd name e) := by
  unfold Machine.reportEnd
  split <;> exact hR.trans h (hR.report _ _)

theorem decodeNamed (fields : List (String × FieldSpec)) :
    ∀ acc s p, decodeNamed fields acc s = .ok p → R s p.2 := by
  induction fields with
  | nil => intro acc s p hp; cases hp; exact hR.refl s
  | cons field fields ih =>
    intro acc s p hp
    simp only [Machine.decodeNamed] at hp
    split at hp
    · cases hp
    · rename_i e he
      exact hR.trans (hR.silent (dfield_writes he).silent) (ih _ _ _ hp)

theorem runReadSteps (steps : List ReadStep) :
    ∀ acc s t, runReadSteps steps acc s = .ok t → R s t := by
  induction steps with
  | nil => intro acc s t ht; cases ht; exact hR.report _ s
  | cons st steps ih =>
    intro acc s t ht
    have hread := hR.xread st.rd s
    simp only [Machine.runReadSteps] at ht
    split at ht
    · cases ht
    · rename_i c u hu
      cases ht
      exact hR.trans (hread _ hu) (hR.report _ u)
    · rename_i u hu
      split at ht
      · cases ht
      · rename_i acc' w hw
        exact hR.trans (hread _ hu) (hR.trans (hR.decodeNamed _ _ _ _ hw) (ih _ _ _ ht))

theorem readOperation {code : Nat} {s t : State} (ht : readOperation code s = .ok t) : R s t := by
  unfold Machine.readOperation at ht
  split at ht
  · cases ht
  · exact hR.runReadSteps _ _ _ _ ht

theorem checkParams (params : List (ParamKind × HostParam)) : ∀ acc s, R s (checkParams params acc s).2 := by
  induction params with
  | nil => intro acc s; exact hR.refl s
  | cons kp params ih =>
    intro acc s
    simp only [Machine.checkParams]
    split
    · exact hR.refl s
    · rename_i v _
      have hcheck : R s (pchkClass kp.1 v s).state := hR.silent (pchkClass_writes kp.1 v s).silent
      split <;> rename_i hp <;> rw [hp] at hcheck
      · exact hR.trans hcheck (ih _ _)
      · exact hcheck

theorem validated (params : List (ParamKind × HostParam)) (s : State) : R s (validated params s).2 := by
  unfold Machine.validated
  split
  · exact hR.checkParams params [] s
  · exact hR.refl s

theorem writeOperation {code selecting : Nat} {params : List (ParamKind × HostParam)}
    {value : Catalog → List Byte → Byte} {result : String} {s t : State}
    (ht : writeOperation code selecting params value result s = .ok t) : R s t := by
  have hcheck := hR.validated params s
  unfold Machine.writeOperation at ht
  split at ht <;> rename_i hv <;> rw [hv] at hcheck
  · cases ht; exact hR.trans hcheck (hR.report _ _)
  · split at ht
    · cases ht
    · split at ht
      · cases ht
      · rename_i e he
        cases ht
        exact hR.reportEnd result (hR.trans hcheck (hR.wverify _ _ _ _ _ he))

/-- The relation holds over every instruction that runs whole exchanges. -/
theorem exec {i : Instr} {s t : State} (hx : Spec.runsExchanges i = true) (ht : exec i s = .next t) : R s t := by
  cases i with
  | xread rd => obtain ⟨_, he⟩ := outcome_next ht; exact hR.xread rd s _ he
  | xwrite wd val => obtain ⟨_, he⟩ := outcome_next ht; exact hR.xwrite wd val s _ he
  | wverify wd val vd => obtain ⟨_, he⟩ := outcome_next ht; exact hR.wverify wd val vd s _ he
  | op1 | op2 | op3 | op4 | op9 => exact hR.readOperation (hostOutcome_next ht)
  | op10 | op11 | op12 | op13 | op14 => exact hR.writeOperation (hostOutcome_next ht)
  | crcgen | crcchk | fvalid | encrd | encwr | pchk | dtype | tchk | du8 | du16 | dhalf | dflag | du24 | dack | await
  | xmit | recv | setto | op20 | op21 | op22 | op23 | op24 | op25 => cases hx

end HoldsOverSteps

end

/-- Leaving ANS_TO alone holds over whole exchanges: XMIT is the one step that is not silent, and it leaves
ANS_TO alone too (R27). -/
theorem sameTimeout_holdsOverSteps : HoldsOverSteps fun s t => t.ansTo = s.ansTo where
  trans h1 h2 := h2.trans h1
  silent h := h.ansTo
  xmit h := by rw [(xmit_writes h).eq]

@[simp] theorem rejectRequest_ansTo (r : Reject) (s : State) : (rejectRequest r s).ansTo = s.ansTo := by
  cases r <;> rfl

/-- What the next step runs is what the head of the queue decodes to. -/
theorem nextInstr_of_decode {s : State} {idle : Nat} {req : Request} {rest : List Input} {i : Instr}
    (hp : s.host.pending = .issue idle req :: rest) (hd : decode req = .ok i) : Spec.nextInstr s = some i := by
  simp only [Spec.nextInstr, Spec.nextRequest, hp, hd]

end Sys2Proof.Machine
end

namespace Sys2Proof.Proofs

open Sys2Proof.Machine

/-- Settles O54: the writers one instruction at a time; what is not among an instruction's writes is as it was. -/
theorem registersHaveTheirWriters : Obligations.RegistersHaveTheirWriters := by
  intro i s t ht hx h20
  cases exec_wrote ht hx h20 with
  | outcome _ h | crcgen h | encrd _ _ _ h | encwr _ _ _ _ h | fvalid h | dack h | await h | recv h | xmit h
  | setto _ h | op25 _ h => rw [h.eq]; simp

/-- An instruction that changes ANS_TO is SETTO, host operation 25 or host operation 20 (R27). -/
theorem instr_of_exec_changes_ansTo {i : Instr} {s t : State} (h : exec i s = .next t) (hne : t.ansTo ≠ s.ansTo) :
    (∃ v, i = .setto v) ∨ (∃ v, i = .op25 v) ∨ i = .op20 := by
  by_cases h20 : i = .op20
  · exact .inr (.inr h20)
  · have hx : Spec.runsExchanges i = false :=
      Bool.eq_false_iff.2 fun hx => hne (sameTimeout_holdsOverSteps.exec hx h)
    obtain ⟨-, -, hansTo, -⟩ := registersHaveTheirWriters i s t h hx h20
    exact (hansTo.resolve_left hne).imp_right .inl

/-- Settles O56: by what a step can do; only an instruction or the reset can change ANS_TO, and of the
instructions only the three named do. -/
theorem onlySettoChangesTheTimeout : Obligations.OnlySettoChangesTheTimeout := by
  intro s t h hne
  cases stepped_of_step h with
  | waits _ ht => exact absurd (by rw [ht]) hne
  | runs idle req rest i hp hd ht =>
    rw [nextInstr_of_decode hp hd]
    obtain ⟨v, rfl⟩ | ⟨v, rfl⟩ | rfl := instr_of_exec_changes_ansTo ht hne
    · exact .inl ⟨v, rfl⟩
    · exact .inr (.inl ⟨v, rfl⟩)
    · exact .inr (.inr (.inl rfl))
  | rejects _ _ _ _ _ _ ht => exact absurd (by rw [ht, rejectRequest_ansTo, takeInput_ansTo]) hne
  | reads _ _ _ _ _ ht => exact absurd (by rw [ht, report_ansTo, takeInput_ansTo]) hne
  | resets rest hp _ => exact .inr (.inr (.inr ⟨rest, hp⟩))

end Sys2Proof.Proofs

section
/-! SUPPORT. Why more fuel than a wait is given changes nothing (R174, log entries 4 and 9): the loop of a wait
ends, or goes on with a smaller measure of the clock reads still ahead of it, and the fuel is at least that measure. -/

namespace Sys2Proof.Machine

section

variable {α : Type} {m : State → Nat} {loop : Nat → State → α}

/-- Each pass of a loop on fuel ends the loop, or goes on from a state of smaller measure; either way what it
does is the same with any fuel. -/
def Descends (m : State → Nat) (loop : Nat → State → α) : Prop :=
  ∀ s, (∃ r, ∀ fuel, loop (fuel + 1) s = r) ∨ ∃ t, m t < m s ∧ ∀ fuel, loop (fuel + 1) s = loop fuel t

/-- With at least its measure as fuel a descending loop does not depend on the fuel. -/
theorem Descends.fuel_eq (h : Descends m loop) (pos : ∀ s, 0 < m s) (fuel fuel' : Nat) (s : State)
    (hf : m s ≤ fuel) (hf' : m s ≤ fuel') : loop fuel s = loop fuel' s := by
  have hpos := pos s
  induction fuel generalizing fuel' s with
  | zero => omega
  | succ fuel ih =>
    obtain ⟨k, rfl⟩ : ∃ k, fuel' = k + 1 := ⟨fuel' - 1, by omega⟩
    obtain ⟨r, hr⟩ | ⟨t, hlt, ht⟩ := h s
    · rw [hr, hr]
    · rw [ht, ht]
      exact ih k t (by omega) (by omega) (pos t)

end

theorem expired_past {start : ClockWord} {dur : Nat} {e : Env} (h : dur ≤ e.now.elapsed start) :
    e.expired start dur = (true, e.now) :=
  congrArg (·, e.now) (decide_eq_true h)

theorem expired_ahead {start : ClockWord} {dur : Nat} {e : Env} (h : e.now.elapsed start < dur) :
    e.expired start dur = (false, e.now) :=
  congrArg (·, e.now) (decide_eq_false (Nat.not_le.2 h))

variable {start : ClockWord} {dur : Nat}

/-- While the capture waits, each look at the link costs a clock read (R170). -/
theorem captureIdle_descends (mode : CaptureMode) (hd : dur < 2 ^ 31) :
    Descends (fun s => waitMeasure start dur s.env) (captureIdle mode start dur) := by
  intro s
  by_cases hpast : dur ≤ s.env.now.elapsed start
  · exact .inl ⟨{ s with env := s.env.now, rxlen := 0 }, fun fuel => by simp only [captureIdle, expired_past hpast]⟩
  · have hahead := expired_ahead (Nat.not_le.1 hpast)
    have hlt : waitMeasure start dur s.env.now.poll.2 < waitMeasure start dur s.env := by
      rw [waitMeasure_congr (EnvLaws.poll_times _) (EnvLaws.poll_clock _)]
      exact waitMeasure_read start dur hd s.env (Nat.not_le.1 hpast)
    cases hpoll : s.env.now.poll with
    | mk event e =>
      rw [hpoll] at hlt
      cases event with
      | gap => exact .inr ⟨{ s with env := e }, hlt, fun fuel => by simp only [captureIdle, hahead, hpoll]⟩
      | arrived u =>
        by_cases hfiller : u.byte = s.cfg.idleFiller
        · exact .inr ⟨{ s with env := e }, hlt,
            fun fuel => by simp only [captureIdle, hahead, hpoll, hfiller, ↓reduceIte]⟩
        · exact .inl ⟨captureDrain mode (s.cfg.rxMax - 1) 0 u { s with env := e },
            fun fuel => by simp only [captureIdle, hahead, hpoll, hfiller, ↓reduceIte]⟩

/-- AWAIT goes on only when the test after a capture finds the deadline ahead (R172). -/
theorem awaitLoop_descends (hd : dur < 2 ^ 31) :
    Descends (fun s => waitMeasure start dur s.env) (awaitLoop start dur) := by
  intro s
  by_cases hturn : pollMatches (capture .poll start dur s) = true
  · exact .inl ⟨succeed { capture .poll start dur s with bt := .transmitting },
      fun fuel => by simp only [awaitLoop, hturn, ↓reduceIte]⟩
  · by_cases hpast : dur ≤ (capture .poll start dur s).env.now.elapsed start
    · exact .inl ⟨fail .pollTimeout
          { capture .poll start dur s with env := (capture .poll start dur s).env.now, bt := .idle },
        fun fuel => by simp only [awaitLoop, hturn, expired_past hpast, Bool.false_eq_true, ↓reduceIte]⟩
    · have hread := waitMeasure_read start dur hd _ (Nat.not_le.1 hpast)
      have hcapture := (capture_deadline .poll start dur hd s).2.resolve_right hpast
      exact .inr ⟨{ capture .poll start dur s with env := (capture .poll start dur s).env.now },
        Nat.lt_of_lt_of_le hread hcapture,
        fun fuel => by simp only [awaitLoop, hturn, expired_ahead (Nat.not_le.1 hpast), Bool.false_eq_true, ↓reduceIte]⟩

/-- RECV goes on only when the deadline is ahead and no unit is waiting (R195). -/
theorem recvLoop_descends (hd : dur < 2 ^ 31) :
    Descends (fun s => waitMeasure start dur s.env) (recvLoop start dur) := by
  intro s
  by_cases hpast : dur ≤ s.env.now.elapsed start
  · exact .inl ⟨recvTimeout { s with env := s.env.now }, fun fuel => by simp only [recvLoop, expired_past hpast]⟩
  · have hahead := expired_ahead (Nat.not_le.1 hpast)
    have hlt : waitMeasure start dur s.env.now.avail.2 < waitMeasure start dur s.env := by
      rw [waitMeasure_congr (EnvLaws.avail_times _) (EnvLaws.avail_clock _)]
      exact waitMeasure_read start dur hd s.env (Nat.not_le.1 hpast)
    cases havail : s.env.now.avail with
    | mk waiting e =>
      rw [havail] at hlt
      cases waiting with
      | false => exact .inr ⟨{ s with env := e }, hlt, fun fuel => by simp only [recvLoop, hahead, havail]⟩
      | true =>
        exact .inl ⟨recvCapture start dur { s with env := e }, fun fuel => by simp only [recvLoop, hahead, havail]⟩

/-- A wait's loop does the same with more fuel than the wait is given. -/
theorem Descends.waitFuel_eq {α : Type} {loop : Nat → State → α}
    (h : Descends (fun s => waitMeasure start dur s.env) loop) {s : State} {fuel : Nat}
    (hf : waitFuel dur s.env ≤ fuel) : loop fuel s = loop (waitFuel dur s.env) s :=
  have hle := waitMeasure_le_fuel start dur s.env
  h.fuel_eq (fun s => waitMeasure_pos start dur s.env) _ _ s (hle.trans hf) hle

end Sys2Proof.Machine
end

section
/-! SUPPORT. The send log only grows: only XMIT in TRANSMITTING hands items to the link, itself or inside an
exchange (R61, R175). -/

namespace Sys2Proof.Machine

theorem waitMs_sent {t : Nat} {e e' : Env} (h : e.waitMs t = .ok e') : e'.sent = e.sent := by
  unfold Env.waitMs at h
  split at h <;> cases h
  exact EnvLaws.wait_sent e t

/-- A paced send appends to the send log and takes nothing from it (R192). -/
theorem sendBytes_extends {gap : Nat} {tx : Memory} {is : List Nat} {e e' : Env}
    (h : sendBytes gap tx is e = .ok e') : e.sent <+: e'.sent := by
  induction is generalizing e with
  | nil => cases h; exact List.prefix_rfl
  | cons i is ih =>
    simp only [sendBytes] at h
    split at h
    · cases h
    · rename_i b _
      split at h
      · cases h
      · rename_i e1 hwait
        have hsent : e1.sent = (e.send (.data b)).sent := waitMs_sent hwait
        exact (List.prefix_append _ _).trans (hsent ▸ ih h)

theorem xmit_extends {s : State} {e : Ended} (h : xmit s = .ok e) : s.env.sent <+: e.state.env.sent := by
  unfold xmit at h
  split at h
  · split at h <;> cases h
    rename_i e1 hsend
    have hbytes : s.env.sent <+: e1.sent := EnvLaws.now_sent s.env ▸ sendBytes_extends hsend
    have hbreak : e1.sent <+: (e1.send .endOfFrame).flush.now.sent := by
      rw [EnvLaws.now_sent, EnvLaws.flush_sent, EnvLaws.send_sent]
      exact List.prefix_append _ _
    exact hbytes.trans hbreak
  · cases h; exact List.prefix_rfl

/-- Without the turn XMIT only fails (R196). -/
theorem xmit_interlock {s : State} (h : s.bt ≠ .transmitting) : xmit s = .ok (fail .illegalCommand s) := if_neg h

/-- Extending the send log holds over whole exchanges: every step but XMIT leaves it alone (R175). -/
theorem extendsLog_holdsOverSteps : HoldsOverSteps fun s t => s.env.sent <+: t.env.sent where
  trans h1 h2 := h1.trans h2
  silent h := by rw [h.sent]
  xmit := xmit_extends

/-- The instruction puts items on the send log when it runs in `s`: XMIT, when the block has the turn, and what
runs whole exchanges. -/
def Transmits (s : State) (i : Instr) : Prop := Spec.runsExchanges i = true ∨ i = .xmit ∧ s.bt = .transmitting

@[simp] theorem rejectRequest_env (r : Reject) (s : State) : (rejectRequest r s).env = s.env := by
  cases r <;> rfl

end Sys2Proof.Machine
end

section
/-! SUPPORT. A step without a request: the queue is empty, or its head is a host's read or the external reset
(R57, R276, R290). -/

namespace Sys2Proof.Machine

theorem runInput_empty {s : State} (h : s.host.pending = []) : runInput s = .next s := by
  simp only [runInput, h]

theorem runInput_read {s : State} {r : HostRegister} {rest : List Input} {v : Int}
    (h : s.host.pending = .read r :: rest) (hv : hostRead r s = .ok v) :
    runInput s = .next (report (.value r v) (takeInput 0 rest s)) := by
  simp only [runInput, h, hv]

theorem runInput_read_fault {s : State} {r : HostRegister} {rest : List Input} {f : Fault}
    (h : s.host.pending = .read r :: rest) (hf : hostRead r s = .error f) : runInput s = .fault f := by
  simp only [runInput, h, hf]

theorem runInput_reset {s : State} {rest : List Input} (h : s.host.pending = .reset :: rest) :
    runInput s = .next (takeInput 0 rest s).resetBlock := by
  simp only [runInput, h]

/-- An input that comes at once changes nothing but the queue. -/
theorem takeInput_zero (rest : List Input) (s : State) :
    takeInput 0 rest s = { s with host := { s.host with pending := rest } } := by
  have hclock : s.env.clock + BitVec.ofNat 32 0 = s.env.clock := BitVec.add_zero _
  simp only [takeInput, Env.idle, hclock]

/-- A reset in mid-run is the reset of the same build, with the reports kept (R290). -/
theorem resetBlock_eq (s : State) :
    s.resetBlock = { State.resetWith s.cfg s.env s.host.pending with host := s.host } := rfl

end Sys2Proof.Machine
end

namespace Sys2Proof.Proofs

open Sys2Proof.Machine

/-- Settles O35: the three loops descend, each in its own way, and a descending loop does not depend on fuel
beyond its measure. -/
theorem waitsEndBeforeTheirFuel : Obligations.WaitsEndBeforeTheirFuel :=
  fun _ _ _ _ mode hd hf =>
    ⟨(captureIdle_descends mode hd).waitFuel_eq hf, (awaitLoop_descends hd).waitFuel_eq hf,
      (recvLoop_descends hd).waitFuel_eq hf⟩

/-- An instruction that does not transmit leaves the send log alone: it leaves the link and the clock alone, or it
is AWAIT, RECV or an XMIT without the turn. -/
theorem exec_sent_of_not_transmits {i : Instr} {s t : State} (h : exec i s = .next t) (hi : ¬ Transmits s i) :
    t.env.sent = s.env.sent := by
  by_cases h20 : i = .op20
  · subst h20
    rw [execOp20_next h, resetBlock_env]
  · have hx : Spec.runsExchanges i = false := Bool.eq_false_iff.2 fun hx => hi (.inl hx)
    obtain ⟨-, -, -, -, -, -, henv, -⟩ := registersHaveTheirWriters i s t h hx h20
    obtain henv | rfl | rfl | rfl := henv
    · rw [henv]
    · cases h; exact (awaitTurn_awaited s).sent
    · obtain ⟨_, he⟩ := outcome_next h
      rw [xmit_interlock fun hbt => hi (.inr ⟨rfl, hbt⟩)] at he
      cases he; rfl
    · cases h; exact recv_sent s

theorem exec_extends {i : Instr} {s t : State} (h : exec i s = .next t) : s.env.sent <+: t.env.sent := by
  by_cases hi : Transmits s i
  · obtain hx | ⟨rfl, -⟩ := hi
    · exact extendsLog_holdsOverSteps.exec hx h
    · obtain ⟨_, he⟩ := outcome_next h
      exact xmit_extends he
  · rw [exec_sent_of_not_transmits h hi]

/-- A step that runs no instruction leaves the send log alone, and so does one that runs an instruction which
does not transmit. -/
theorem step_sent {s t : State} (h : step s = .next t) :
    t.env.sent = s.env.sent ∨
      s.env.sent <+: t.env.sent ∧ ∃ i, Spec.nextInstr s = some i ∧ Transmits s i := by
  cases stepped_of_step h with
  | waits _ ht => rw [ht]; exact .inl rfl
  | runs idle req rest i hp hd ht =>
    have hlog : (takeInput idle rest s).env.sent = s.env.sent := EnvLaws.idle_sent s.env idle
    rw [← hlog]
    by_cases hi : Transmits (takeInput idle rest s) i
    · exact .inr ⟨exec_extends ht, i, nextInstr_of_decode hp hd, hi⟩
    · exact .inl (exec_sent_of_not_transmits ht hi)
  | rejects _ _ _ _ _ _ ht => rw [ht, rejectRequest_env]; exact .inl rfl
  | reads _ _ _ _ _ ht => rw [ht]; exact .inl rfl
  | resets _ _ ht => rw [ht]; exact .inl rfl

/-- Settles O57: a step leaves the send log alone, or runs an instruction that transmits, which extends it. -/
theorem onlyTransmissionsReachTheBus : Obligations.OnlyTransmissionsReachTheBus := by
  intro s t h
  obtain hsame | ⟨hextends, htransmits⟩ := step_sent h
  · exact ⟨by rw [hsame], fun hne => absurd hsame hne⟩
  · exact ⟨hextends, fun _ => htransmits⟩

/-- Settles O7: by the head of the queue; an input that is no request comes at once, so no time passes. -/
theorem stepWaitsReadsOrResets : Obligations.StepWaitsReadsOrResets := by
  intro s hready
  rw [step_of_ready hready]
  refine ⟨runInput_empty, fun r rest v hp hv => ⟨_, runInput_read hp hv, ?_⟩,
    fun r rest f => runInput_read_fault, fun rest hp => ⟨_, runInput_reset hp, ?_⟩⟩
  · rw [takeInput_zero]; exact ⟨rfl, rfl⟩
  · rw [takeInput_zero, resetBlock_eq]

end Sys2Proof.Proofs

section
/-! SUPPORT. What the decoder accepts (R81, R82): the reserved operands of the opcode's row are zero and the
instruction of the row is well formed. -/

namespace Sys2Proof

/-- The five numbers that R80 cuts a word into are its fields. -/
theorem fields_toNat (w : CommandWord) :
    (opField w).toNat = w.toNat / 2 ^ 32 ∧ (aField w).toNat = w.toNat / 2 ^ 24 % 256 ∧
      (bField w).toNat = w.toNat / 2 ^ 16 % 256 ∧ (cField w).toNat = w.toNat / 2 ^ 8 % 256 ∧
      (dField w).toNat = w.toNat % 256 := by
  have hw := w.isLt
  simp only [opField, aField, bField, cField, dField, extract_toNat, pow_zero, Nat.div_one, and_self, and_true]
  omega

theorem exists_accept_iff {mnemonic : String} {reserved : List Byte} {j : Instr} :
    (∃ i, accept mnemonic reserved j = .ok i) ↔ (∀ r ∈ reserved, r.toNat = 0) ∧ j.wellFormed = true := by
  have hzero (b : Byte) : b.toNat = 0 ↔ b = 0 := BitVec.toNat_inj (y := 0)
  simp only [hzero]
  constructor
  · rintro ⟨i, h⟩
    obtain ⟨-, hw, hr⟩ := accept_ok h
    exact ⟨hr, hw⟩
  · rintro ⟨hr, hw⟩
    exact ⟨j, accept_of hr hw⟩

/-- The map's rows and the legal words are the same list, row by row. -/
theorem exists_decodeCommand_iff_legal (w : CommandWord) : (∃ i, decodeCommand w = .ok i) ↔ Spec.LegalCommand w := by
  obtain ⟨hop, ha, hb, hc, hd⟩ := fields_toNat w
  simp only [Spec.LegalCommand, decodeCommand, ← hop, ← ha, ← hb, ← hc, ← hd]
  clear hop ha hb hc hd
  generalize opField w = op, aField w = a, bField w = b, cField w = c, dField w = d
  unfold decodeFields
  split
  case h_22 =>
    simp only [reduceCtorEq, exists_false, false_iff, imp_false] at *
    omega
  all_goals simp [exists_accept_iff, Instr.wellFormed, and_comm, *]

end Sys2Proof
end

section
/-! SUPPORT. What a decoded command is: an instruction of the opcode map whose encoding is the word (R80, R91). -/

namespace Sys2Proof

theorem eq_ofNat_of_toNat {op : Byte} {k : Nat} (h : op.toNat = k) : op = BitVec.ofNat 8 k := by
  rw [← h, BitVec.ofNat_toNat, BitVec.setWidth_eq]

/-- A row's instruction takes its operands from the word, and the reserved ones, which it leaves out, are zero. -/
theorem encode_of_decodeFields {op a b c d : Byte} {i : Instr} (h : decodeFields op a b c d = .ok i) :
    encode i = .command (commandWord op a b c d) ∧ i.wellFormed = true ∧ Spec.isCommand i = true := by
  unfold decodeFields at h
  split at h
  case h_22 => cases h
  all_goals
    rename_i hop
    obtain ⟨rfl, hw, hr⟩ := accept_ok h
    refine ⟨?_, hw, rfl⟩
    simp only [List.forall_mem_cons, List.not_mem_nil, false_imp_iff, implies_true, and_true] at hr
    simp [encode, eq_ofNat_of_toNat hop, hr]

end Sys2Proof
end

section
/-! SUPPORT. What the decoder rejects, and how that is answered (R83, R86). -/

namespace Sys2Proof.Machine

/-- Whatever is wrong with a command word, the block answers it with IllegalCommand. -/
theorem rejectRequest_of_decodeFields {op a b c d : Byte} {r : Reject} (h : decodeFields op a b c d = .error r)
    (s : State) : rejectRequest r s = (fail .illegalCommand s).state := by
  have haccept {mnemonic : String} {reserved : List Byte} {i : Instr} (h : accept mnemonic reserved i = .error r) :
      rejectRequest r s = (fail .illegalCommand s).state := by
    unfold accept at h
    split at h
    · split at h <;> cases h
      rfl
    · cases h
      rfl
  unfold decodeFields at h
  split at h
  case h_22 => cases h; rfl
  all_goals exact haccept h

theorem decodeHostOp_of_unlisted {code : Byte} (args : HostArgs) (h : code.toNat ∉ Spec.hostCodes) :
    decodeHostOp code args = .error (.illegalHostCode code) := by
  unfold decodeHostOp
  split
  case h_17 => rfl
  all_goals
    rename_i hcode
    exact absurd (hcode ▸ by decide) h

end Sys2Proof.Machine
end

section
/-! SUPPORT. The ends of the model's commands in the words of the statements, and the verdicts of PCHK and DACK
that Laws/Commands does not have. -/

namespace Sys2Proof.Machine

theorem succeed_state (s : State) : (succeed s).state = Spec.succeeded s := rfl

theorem succeedWith_state (v : Int) (s : State) : (succeedWith v s).state = Spec.succeededWith v s := rfl

theorem fail_state (c : Cause) (s : State) : (fail c s).state = Spec.failedWith c.code s := rfl

/-- The legal values of a class are those of its row in R87's table. -/
theorem paramLegal_iff (k : ParamKind) (value : Byte) :
    paramLegal k value = true ↔ Spec.legalParam (paramKindCode k).toNat value.toNat := by
  cases k with
  | circuit =>
    have hone : value = 1 ↔ value.toNat = 1 := (BitVec.toNat_inj (y := 1)).symm
    have htwo : value = 2 ↔ value.toNat = 2 := (BitVec.toNat_inj (y := 2)).symm
    simp only [paramLegal, Bool.or_eq_true, beq_iff_eq, hone, htwo]
    simp [paramKindCode, Spec.legalParam]
  | mode3 | mode2 | tempHc | tempWw | timeout =>
    simp only [paramLegal, Bool.and_eq_true, decide_eq_true_eq]
    simp [paramKindCode, Spec.legalParam, Config.tempHcMax, Config.tempWwMax, Config.ansToMin, Config.ansToMax]

/-- Every kind code up to 5 names a class. -/
theorem paramKind_of_code {kind : Byte} (h : kind.toNat ≤ 5) :
    ∃ k, ParamKind.ofCode kind = some k ∧ paramKindCode k = kind := by
  unfold ParamKind.ofCode
  split
  case h_7 => simp only [imp_false] at *; omega
  all_goals
    rename_i hkind
    exact ⟨_, rfl, (eq_ofNat_of_toNat hkind).symm⟩

theorem paramKind_above {kind : Byte} (h : 5 < kind.toNat) : ParamKind.ofCode kind = none := by
  unfold ParamKind.ofCode
  split
  case h_7 => rfl
  all_goals omega

theorem exec_pchk_of_class {kind : Byte} {k : ParamKind} (h : ParamKind.ofCode kind = some k) (value : Byte)
    (s : State) : exec (.pchk kind value) s = .next (pchkClass k value s).state := by
  simp only [exec, execPchk, pchk, h]

theorem dack_of_ack {s : State} (hl : 1 ≤ s.rxlen) (h : s.rx.read 0 = some s.cfg.ackByte) :
    dack s = .ok (succeed (markValidated s)) := by
  simp only [dack, Nat.ne_of_gt hl, readByte_of_read h, ↓reduceIte]

theorem dack_of_other {s : State} {b : Byte} (hl : 1 ≤ s.rxlen) (h : s.rx.read 0 = some b) (hb : b ≠ s.cfg.ackByte) :
    dack s = .ok (fail .writeNotAcknowledged s) := by
  simp only [dack, Nat.ne_of_gt hl, readByte_of_read h, hb, ↓reduceIte]

/-- DFIELD runs the command it expands to (R89). -/
theorem exec_expandField (fs : FieldSpec) (s : State) : exec (expandField fs) s = outcome (dfield fs s) := by
  unfold expandField dfield
  cases fs.kind <;> rfl

theorem expandField_wellFormed (fs : FieldSpec) : (expandField fs).wellFormed = true := by
  unfold expandField
  cases fs.kind with
  | flag =>
    have hbit := fs.bit.isLt
    simp only [Instr.wellFormed, BitVec.toNat_ofNat, decide_eq_true_eq]
    omega
  | u8 | u16 | s16 | half | u24 => rfl

end Sys2Proof.Machine
end

namespace Sys2Proof.Proofs

open Sys2Proof.Machine

/-- Settles O1: one lemma per constructor; a command by its row of the opcode map, a host operation by its code. -/
theorem decodeOfEncodeIsTheInstruction : Obligations.DecodeOfEncodeIsTheInstruction := by
  intro i
  cases i with
  | crcgen => exact Laws.Encoding.crcgen
  | crcchk => exact Laws.Encoding.crcchk
  | fvalid => exact Laws.Encoding.fvalid
  | encrd dest type len => exact Laws.Encoding.encrd dest type len
  | encwr dest type woff val => exact Laws.Encoding.encwr dest type woff val
  | pchk kind value => exact Laws.Encoding.pchk kind value
  | dtype => exact Laws.Encoding.dtype
  | tchk type => exact Laws.Encoding.tchk type
  | du8 off => exact Laws.Encoding.du8 off
  | du16 off sgn => exact Laws.Encoding.du16 off sgn
  | dhalf off => exact Laws.Encoding.dhalf off
  | dflag off bit => exact Laws.Encoding.dflag off bit
  | du24 off => exact Laws.Encoding.du24 off
  | dack => exact Laws.Encoding.dack
  | await => exact Laws.Encoding.await
  | xmit => exact Laws.Encoding.xmit
  | recv => exact Laws.Encoding.recv
  | setto value => exact Laws.Encoding.setto value
  | xread rd => exact Laws.Encoding.xread rd
  | xwrite wd val => exact Laws.Encoding.xwrite wd val
  | wverify wd val vd => exact Laws.Encoding.wverify wd val vd
  | op1 => exact Laws.Encoding.op1
  | op2 => exact Laws.Encoding.op2
  | op3 => exact Laws.Encoding.op3
  | op4 => exact Laws.Encoding.op4
  | op9 => exact Laws.Encoding.op9
  | op10 circuit mode => exact Laws.Encoding.op10 circuit mode
  | op11 circuit mode temp => exact Laws.Encoding.op11 circuit mode temp
  | op12 temp => exact Laws.Encoding.op12 temp
  | op13 mode => exact Laws.Encoding.op13 mode
  | op14 mode => exact Laws.Encoding.op14 mode
  | op20 => exact Laws.Encoding.op20
  | op21 timezone => exact Laws.Encoding.op21 timezone
  | op22 => exact Laws.Encoding.op22
  | op23 => exact Laws.Encoding.op23
  | op24 => exact Laws.Encoding.op24
  | op25 value => exact Laws.Encoding.op25 value

/-- Settles O2: the rows of the map are the legal words, and a row's instruction is encoded by the word, which is
put together from its own fields. -/
theorem legalWordsHaveOneMeaning : Obligations.LegalWordsHaveOneMeaning := by
  intro w
  refine ⟨exists_decodeCommand_iff_legal w, fun i h => ?_⟩
  rw [← commandWord_fields w]
  exact encode_of_decodeFields h

/-- Settles O3: a word that is not legal is rejected, and whatever is wrong with it is answered in one way. -/
theorem illegalWordOnlyFails : Obligations.IllegalWordOnlyFails := by
  intro s idle w rest hready hpending hillegal
  rw [step_of_ready hready, runInput_issue hpending]
  cases hdecode : decodeCommand w with
  | ok i => exact absurd ((exists_decodeCommand_iff_legal w).1 ⟨i, hdecode⟩) hillegal
  | error r =>
    simp only [runRequest, decode, hdecode, rejectRequest_of_decodeFields hdecode, fail_state]
    rfl

/-- Settles O4: the dispatcher turns an unlisted code away itself. -/
theorem unlistedHostCodeIsReported : Obligations.UnlistedHostCodeIsReported := by
  intro s idle code args rest hready hpending hcode
  rw [step_of_ready hready, runInput_issue hpending]
  simp only [runRequest, decode, decodeHostOp_of_unlisted args hcode, rejectRequest]

/-- A table word that stands for an instruction's encoding decodes to it. -/
theorem decodeTableWord_of_encode {nbits w : Nat} {i : Instr} (h : tableRequest nbits w = encode i)
    (hw : i.wellFormed = true) : decodeTableWord nbits w = some i := by
  simp only [decodeTableWord, h, decodeOfEncodeIsTheInstruction i hw]

/-- Settles O5: each word is the encoding of its instruction; the last command word's opcode is AWAIT, whose reserved
operand is not zero. -/
theorem sampleWordsDecode : Obligations.SampleWordsDecode :=
  ⟨decodeTableWord_of_encode (by decide) rfl, decodeTableWord_of_encode (by decide) rfl,
    decodeTableWord_of_encode (by decide) rfl, decodeTableWord_of_encode (by decide) rfl,
    decodeTableWord_of_encode (by decide) rfl, decodeTableWord_of_encode (by decide) rfl, by decide,
    decodeTableWord_of_encode (by decide) rfl⟩

/-- Settles O17: a kind up to 5 names the class whose legal values R87 lists, any other none; and a word decodes to
what its row says only with its reserved operands zero. -/
theorem pchkAcceptsExactlyTheLegalValues : Obligations.PchkAcceptsExactlyTheLegalValues := by
  intro s kind value
  refine ⟨fun hlegal => ?_, fun hkind hillegal => ?_, fun hkind => ?_, fun c d i hreserved hdecode => ?_⟩
  · have hkind : kind.toNat ≤ 5 := by unfold Spec.legalParam at hlegal; omega
    obtain ⟨k, hk, rfl⟩ := paramKind_of_code hkind
    rw [exec_pchk_of_class hk, pchkClass, if_pos ((paramLegal_iff k value).2 hlegal), succeed_state]
  · obtain ⟨k, hk, rfl⟩ := paramKind_of_code hkind
    rw [exec_pchk_of_class hk, pchkClass, if_neg (mt (paramLegal_iff k value).1 hillegal), fail_state]
    rfl
  · simp only [exec, execPchk, pchk, paramKind_above hkind, fail_state]
    rfl
  · rw [decode, decodeCommand_commandWord] at hdecode
    obtain ⟨-, -, hzero⟩ := accept_ok (mnemonic := "PCHK") (reserved := [c, d]) (i := .pchk kind value) hdecode
    obtain hc | hd := hreserved
    · exact hc (hzero c (by simp))
    · exact hd (hzero d (by simp))

/-- Settles O22: by R149's checks in their order. -/
theorem dackChecksTheFirstByte : Obligations.DackChecksTheFirstByte := by
  intro s
  refine ⟨fun hempty => ?_, fun b hl hread => ⟨?_, fun hother => ?_⟩⟩
  · simp only [exec, execDack, dack, hempty, ↓reduceIte, outcome, fail_state]
    rfl
  · rintro rfl
    simp only [exec, execDack, dack_of_ack hl hread, outcome, succeed_state, markValidated_eq]
    rfl
  · simp only [exec, execDack, dack_of_other hl hread hother, outcome, fail_state]
    rfl

/-- Settles O23: DFIELD runs the command it expands to, and that gives the field's raw value. -/
theorem dfieldDecodesByKind : Obligations.DfieldDecodesByKind := by
  refine ⟨fun off bit => ⟨rfl, rfl, rfl, rfl, ⟨BitVec.ofNat 8 bit.val, ?_, rfl⟩, rfl⟩, ?_⟩
  · have hbit := bit.isLt
    rw [BitVec.toNat_ofNat]
    omega
  · rintro s fs bs ⟨hlen, hbytes⟩ hinside
    rw [exec_expandField, dfield_value fs bs s hlen hbytes hinside]
    exact ⟨expandField_wellFormed fs, rfl⟩

end Sys2Proof.Proofs

section
/-! SUPPORT. AWAIT and RECV on a scripted link, from the first clock reading on (R172, R195). -/

namespace Sys2Proof.Machine

open Sys2Proof.Spec

/-- A captured group has two bytes at most, so captures leave RX from index 2 on (R170). -/
theorem storedBy_read (traffic : List Traffic) (rx : Memory) {i : Nat} (hi : 2 ≤ i) :
    (storedBy traffic rx).read i = rx.read i := by
  induction traffic generalizing rx with
  | nil => rfl
  | cons q traffic ih =>
    have hlen : q.group.bytes.length ≤ 2 := by cases q.group <;> simp [PollGroup.bytes]
    refine (ih _).trans ?_
    rw [Memory.read_writeFrom, if_neg (by omega)]

/-- Every group costs AWAIT at least one clock read. -/
theorem length_le_reads (traffic : List Traffic) : traffic.length ≤ (traffic.map Traffic.reads).sum := by
  induction traffic with
  | nil => exact Nat.le_refl 0
  | cons q traffic ih =>
    simp only [List.length_cons, List.map_cons, List.sum_cons, Traffic.reads]
    omega

/-- AWAIT passes over traffic that is not meant for this controller and then takes the turn (R172). -/
theorem awaitTurn_traffic_turn (traffic : List Traffic) (quiet rest : List LinkEvent) (b : Byte) (second : LinkUnit)
    (t0 : Nat) (ts ts' : List Nat) (s : State)
    (ha : s.env.arrivals =
      traffic.flatMap Traffic.events ++ quiet ++ .arrived ⟨b, false⟩ :: .arrived second :: rest)
    (hforeign : ∀ q ∈ traffic, q.Foreign s.cfg) (hq : Quiet s.cfg.idleFiller quiet) (hb : b ≠ s.cfg.idleFiller)
    (hp : polledAddress b = s.cfg.ctrlAddr) (ht : s.env.times = t0 :: (ts ++ ts'))
    (hl : ts.length = (traffic.map Traffic.reads).sum + quiet.length + 1) (he : spent ts < s.cfg.pollTo) :
    awaitTurn s = succeed { s with
      rx := ((storedBy traffic s.rx).write 0 b).write 1 second.byte, rxlen := 2, bt := .transmitting,
      env := s.env.after (t0 % 2 ^ 31 + spent ts) ts' rest } := by
  have hpollTo := s.cfg.pollTo_lt
  have hreads := length_le_reads traffic
  obtain ⟨us, vs, rfl, hus⟩ : ∃ us vs, ts = us ++ vs ∧ us.length = (traffic.map Traffic.reads).sum :=
    ⟨_, _, (List.take_append_drop (traffic.map Traffic.reads).sum ts).symm, by rw [List.length_take]; omega⟩
  simp only [List.length_append, spent_append] at hl he
  have hnow := now_after ht
  obtain ⟨n, hpassed⟩ := awaitLoop_traffic traffic (quiet ++ .arrived ⟨b, false⟩ :: .arrived second :: rest) us
    (vs ++ ts') s.env.now.clock s.cfg.pollTo (us.length - traffic.length + vs.length + ts'.length + s.cfg.pollTo + 1) hpollTo
    { s with env := s.env.now, bt := .waitingForPoll } hforeign (by simp [ha]) (by simp [hnow]) hus
    (.inr (by simp only [elapsed_self]; omega))
  have hfuel : waitFuel s.cfg.pollTo s.env.now =
      traffic.length + (us.length - traffic.length + vs.length + ts'.length + s.cfg.pollTo + 1) := by
    simp only [waitFuel, hnow, Env.after_times, List.length_append]
    omega
  simp only [awaitTurn, hfuel, hpassed]
  refine (awaitLoop_turn quiet rest b second vs ts' s.env.now.clock s.cfg.pollTo _ (by omega) _ (by exact hq)
    (by exact hb) (by exact hp) rfl rfl (by omega) ?_).trans ?_
  · simp only [Env.after_clock]
    rw [elapsed_add _ _ _ (by rw [elapsed_self]; omega), elapsed_self]
    omega
  · simp only [hnow, Env.after_after, spent_append, Nat.add_assoc]

/-- RECV captures the reply that comes in the answer window (R195). -/
theorem recv_reply (quiet : List LinkEvent) (us : List LinkUnit) (tail rest : List LinkEvent) (ts ts' : List Nat)
    (s : State) (hbt : s.bt = .awaitingReply) (ha : s.env.arrivals = quiet ++ us.map .arrived ++ tail)
    (hq : Quiet s.cfg.idleFiller quiet) (hus : CaptureEnds s.cfg.rxMax us tail rest)
    (hh : ∀ u ∈ us.head?, u.byte ≠ s.cfg.idleFiller) (ht : s.env.times = ts ++ ts') (hl : ts.length = quiet.length + 2)
    (he : (s.env.clock - s.tTx).toNat + spent ts < s.ansTo.toNat * 100) :
    recv s = succeedWith us.length { s with
      rx := s.rx.writeFrom 0 (us.map (·.byte)), rxlen := us.length, bt := .replyCaptured,
      env := s.env.after (spent ts) ts' rest } := by
  have hansTo := s.ansTo.isLt
  have hfuel : quiet.length + 1 ≤ waitFuel (answerWindow s) s.env := by
    simp only [waitFuel, ht, List.length_append]
    omega
  rw [recv, if_pos hbt]
  exact recvLoop_reply quiet us tail rest ts ts' s.tTx (answerWindow s) _
    (by simp only [answerWindow, Config.ansToUnit]; omega) s ha hq hus hh ht hl he hfuel

end Sys2Proof.Machine
end

namespace Sys2Proof.Proofs

open Sys2Proof.Machine

/-- Settles O25: AWAIT's loop over the foreign traffic, and then over the poll; the captures before it leave RX from
index 2 on, and the poll overwrites what they left below. -/
theorem awaitTakesTheTurn : Obligations.AwaitTakesTheTurn := by
  intro s traffic quiet b second rest t0 ts ts' ha hforeign hq hb hp ht hl he
  have hturn := awaitTurn_traffic_turn traffic quiet rest b second t0 ts ts' s ha hforeign hq hb
    ((polledAddress_eq b _).2 hp) ht hl he
  refine ⟨_, congrArg (fun r : Ended => Host.Outcome.next r.state) hturn, ?_, ?_, fun i hi => ?_, rfl, rfl, rfl, rfl⟩
  · simp [Memory.read_write]
  · simp
  · simp only [succeed_rx]
    rw [Memory.read_write_other _ _ (by omega), Memory.read_write_other _ _ (by omega), storedBy_read traffic _ hi]

/-- Settles O31: RECV's loop over the gaps and fillers, and then the capture, which writes RX from index 0 on. -/
theorem recvCapturesTheReply : Obligations.RecvCapturesTheReply := by
  intro s quiet us tail rest ts ts' hbt ha hq hus hh ht hl he
  have hreply := recv_reply quiet us tail rest ts ts' s hbt ha hq hus hh ht hl he
  refine ⟨_, congrArg (fun r : Ended => Host.Outcome.next r.state) hreply, fun i hi => ?_, fun i hi => ?_, rfl, rfl, rfl,
    rfl⟩
  · rw [succeedWith_rx, Memory.read_writeFrom, if_pos ⟨Nat.zero_le i, by omega⟩, Nat.sub_zero]
  · rw [succeedWith_rx, Memory.read_writeFrom, if_neg (by simp; omega)]

end Sys2Proof.Proofs

section
/-! SUPPORT. WVERIFY on a bus that confirms within the budget (R226, R228): by induction on the failed attempts, each
of which leaves a state in which the rest of the course is still confirmed. -/

namespace Sys2Proof.Machine

open Sys2Proof.Spec

/-- The longest reply of a confirmed course. -/
def longestReply (failed : List FailedAttempt) (write read : Exchange) : Nat :=
  failed.foldr (fun a l => max a.longest l) (max write.reply.length read.reply.length)

theorem longestReply_le {failed : List FailedAttempt} {write read : Exchange} {m : Nat}
    (hw : write.reply.length ≤ m) (hr : read.reply.length ≤ m) (hf : ∀ a ∈ failed, a.longest ≤ m) :
    longestReply failed write read ≤ m := by
  induction failed with
  | nil => exact Nat.max_le.2 ⟨hw, hr⟩
  | cons a failed ih =>
    exact Nat.max_le.2 ⟨hf a List.mem_cons_self, ih fun b hb => hf b (List.mem_cons_of_mem a hb)⟩

/-- What a confirmed course sends: the requests of all its attempts. -/
def confirmedSends (p : Params) (w : WriteDesc) (val : Byte) (r : ReadDesc) (failed : List FailedAttempt) :
    List SentItem :=
  failed.flatMap (FailedAttempt.sends p w val r) ++ transmitted (writeRequest p w val) ++ transmitted (readRequest p r)

theorem confirmedSends_cons (p : Params) (w : WriteDesc) (val : Byte) (r : ReadDesc) (a : FailedAttempt)
    (failed : List FailedAttempt) :
    confirmedSends p w val r (a :: failed) = a.sends p w val r ++ confirmedSends p w val r failed := by
  simp only [confirmedSends, List.flatMap_cons, List.append_assoc]

theorem keptFrom_mono {m n k l : Nat} {s t : State} (h : KeptFrom m n s t) (hm : m ≤ k) (hn : n ≤ l) :
    KeptFrom k l s t :=
  ⟨fun i hi => h.1 i (by omega), fun i hi => h.2 i (by omega)⟩

/-- What WVERIFY leaves when the confirming read of its last attempt matches, `rc` attempts before the end of its
budget. -/
structure Verified (s t : State) (rc : Nat) (val : Byte) (w : WriteDesc) (v : VerifyDesc) (r : ReadDesc)
    (failed : List FailedAttempt) (write read : Exchange) (rest : List LinkEvent) (ts : List Nat) : Prop where
  continues : Continues s t ((failed.map FailedAttempt.exchanges).sum + 2) (longestReply failed write read)
    (confirmedSends s.cfg w val r failed) rest ts
  budget : t.rc = rc
  reply : Frame t read.reply
  request : Holds t.tx (readRequest s.cfg r)
  bt : t.bt = .validated
  status : t.status = statusOk
  res : t.res = expected v.expect val
  resv : t.resv = true

section

variable {s t : State} {wd val vd : Byte} {w : WriteDesc} {v : VerifyDesc} {r : ReadDesc}
  {failed : List FailedAttempt} {write read : Exchange} {rest : List LinkEvent} {ts ts' : List Nat}

theorem Verified.state_eq {rc : Nat} (h : Verified s t rc val w v r failed write read rest ts) :
    t = { succeededWith (expected v.expect val) s with
      tx := t.tx, rx := t.rx, rxlen := read.reply.length, bt := .validated, rc := t.rc, tTx := t.tTx, xcnt := t.xcnt,
      env := t.env } := by
  refine h.continues.frame.trans ?_
  rw [h.reply.1, h.bt, h.status, h.res, h.resv]
  rfl

theorem Verified.kept {rc m : Nat} (h : Verified s t rc val w v r failed write read rest ts) (h2 : 2 ≤ m)
    (hw : write.reply.length ≤ m) (hr : read.reply.length ≤ m) (hf : ∀ a ∈ failed, a.longest ≤ m) : KeptFrom 7 m s t :=
  keptFrom_mono h.continues.kept (Nat.le_refl 7) (Nat.max_le.2 ⟨h2, longestReply_le hw hr hf⟩)

/-- STATUS plays no part in how the bus answers. -/
theorem confirmed_withStatus (h : Confirmed s wd val vd w v r failed write read rest ts ts') (status : BitVec 8) :
    Confirmed { s with status := status } wd val vd w v r failed write read rest ts ts' :=
  ⟨h.entries, h.failures, h.answered, h.budget, h.acknowledged, h.inside, h.matched, h.link, h.times, h.prompt⟩

/-- After the first failed attempt the rest of the course is confirmed from where that attempt ended. -/
theorem confirmed_after_attempt {a : FailedAttempt}
    (h : Confirmed s wd val vd w v r (a :: failed) write read rest ts ts') {longest : Nat} {sent : List SentItem}
    (hc : Continues s t a.exchanges longest sent
      (failed.flatMap FailedAttempt.events ++ write.events ++ read.events ++ rest)
      (ts.drop (13 * a.exchanges) ++ ts')) :
    Confirmed t wd val vd w v r failed write read rest (ts.drop (13 * a.exchanges)) ts' where
  entries := hc.cfg ▸ h.entries
  failures := hc.cfg ▸ fun b hb => h.failures b (List.mem_cons_of_mem a hb)
  answered := hc.cfg ▸ h.answered
  budget := hc.cfg ▸ Nat.lt_of_succ_lt h.budget
  acknowledged := hc.cfg ▸ h.acknowledged
  inside := h.inside
  matched := h.matched
  link := hc.arrivals
  times := hc.times
  prompt := by
    have hsplit := h.prompt
    rw [List.map_cons, List.sum_cons, Nat.add_assoc] at hsplit
    exact prompt_congr (prompt_split hsplit).2 hc.cfg hc.ansTo

/-- The attempt whose confirming read matches (R228). -/
theorem verifyLoop_match (h : Confirmed s wd val vd w v r [] write read rest ts ts') (rc : Nat) :
    ∃ t, Verified s t rc val w v r [] write read rest ts' ∧ verifyLoop wd val v (rc + 1) s = .ok ⟨none, t⟩ := by
  obtain ⟨hw, -, hr, hwd, hrd⟩ := h.entries
  obtain ⟨p1, p2⟩ := prompt_split (m := 1) (n := 1) h.prompt
  have ha : s.env.arrivals = write.events ++ (read.events ++ rest) := by
    rw [h.link, List.flatMap_nil, List.nil_append, List.append_assoc]
  have ht : s.env.times = ts.take (13 * 1) ++ (ts.drop (13 * 1) ++ ts') := by
    rw [h.times, ← List.append_assoc, List.take_append_drop]
  obtain ⟨e, tTx, harrivals, htimes, hsent, hwrite⟩ :=
    xwrite_acknowledged wd val w write _ _ _ { s with rc := rc } hw hwd h.acknowledged ha ht p1
  obtain ⟨t, hread, hrequest, hlen, hreply, hbt, hrc, hconfirm⟩ :=
    confirm_answered v r read rest _ ts' (answered write w.dest w.type w.woff val e tTx { s with rc := rc }) hr hrd
      h.answered h.inside harrivals htimes p2
  have hwritten : Continues s (answered write w.dest w.type w.woff val e tTx { s with rc := rc }) 1 write.reply.length
      (transmitted (writeRequest s.cfg w val)) (read.events ++ rest) (ts.drop (13 * 1) ++ ts') :=
    ⟨rfl, rfl, harrivals, htimes, hsent, exchanged_kept write w.dest w.type w.woff val e tTx { s with rc := rc }⟩
  have hboth := hwritten.trans hread
  refine ⟨{ t with status := statusOk, res := fieldValue v.fs read.reply, resv := true },
    ⟨⟨?_, hboth.count, hboth.arrivals, hboth.times, hboth.sends, hboth.kept⟩, hrc, ⟨hlen, hreply⟩, hrequest, hbt, rfl,
      h.matched, rfl⟩, ?_⟩
  · have hframe := hboth.frame
    rw [hframe]
  · simp only [verifyLoop, hwrite, hconfirm, succeedWith, h.matched, ↓reduceIte, succeed]

/-- The loop of WVERIFY, with a budget beyond the failed attempts (R226, R228). -/
theorem verifyLoop_confirmed (h : Confirmed s wd val vd w v r failed write read rest ts ts') {budget : Nat}
    (hb : failed.length < budget) :
    ∃ t, Verified s t (budget - failed.length - 1) val w v r failed write read rest ts' ∧
      verifyLoop wd val v budget s = .ok ⟨none, t⟩ := by
  induction failed generalizing s ts budget with
  | nil =>
    obtain ⟨rc, rfl⟩ : ∃ rc, budget = rc + 1 := ⟨budget - 1, (Nat.sub_add_cancel hb).symm⟩
    exact verifyLoop_match h rc
  | cons a failed ih =>
    obtain ⟨b, rfl⟩ : ∃ b, budget = b + 1 := ⟨budget - 1, by omega⟩
    simp only [List.length_cons, Nat.add_lt_add_iff_right] at hb
    obtain ⟨hw, -, hr, hwd, hrd⟩ := h.entries
    have ha : s.env.arrivals =
        a.events ++ (failed.flatMap FailedAttempt.events ++ write.events ++ read.events ++ rest) := by
      simp only [h.link, List.flatMap_cons, List.append_assoc]
    have ht : s.env.times = ts.take (13 * a.exchanges) ++ (ts.drop (13 * a.exchanges) ++ ts') := by
      rw [h.times, ← List.append_assoc, List.take_append_drop]
    have hprompt := h.prompt
    rw [List.map_cons, List.sum_cons, Nat.add_assoc] at hprompt
    obtain ⟨t, c, hattempt, -, hloop, -⟩ := verifyLoop_failedAttempt wd val v w r a b _ _ _ s hw hwd hr hrd
      (h.failures a List.mem_cons_self) ha ht (prompt_split hprompt).1
    obtain ⟨u, hu, hrest⟩ := ih (confirmed_after_attempt h hattempt) hb
    have hcontinues := hattempt.trans hu.continues
    rw [hattempt.cfg, ← confirmedSends_cons, ← Nat.add_assoc, ← List.sum_cons, ← List.map_cons] at hcontinues
    refine ⟨u, ⟨hcontinues, ?_, hu.reply, hattempt.cfg ▸ hu.request, hu.bt, hu.status, hu.res, hu.resv⟩, ?_⟩
    · rw [hu.budget, List.length_cons, Nat.add_sub_add_right]
    · rw [hloop, if_neg (by omega), hrest]

/-- WVERIFY on a bus that confirms (R228). -/
theorem wverify_confirmed (h : Confirmed s wd val vd w v r failed write read rest ts ts') :
    ∃ t, Verified s t (s.cfg.retryMax - failed.length - 1) val w v r failed write read rest ts' ∧
      wverify wd val vd s = .ok ⟨none, t⟩ := by
  obtain ⟨t, ht, hloop⟩ := verifyLoop_confirmed h h.budget
  obtain ⟨hw, hv, hr, -⟩ := h.entries
  exact ⟨t, ht, by simp only [wverify, descriptor, hw, hv, hr, hloop]⟩

end

end Sys2Proof.Machine
end

section
/-! SUPPORT. The host write operations (R235): legal parameters pass their checks and change nothing but STATUS, and
then WVERIFY decides. -/

namespace Sys2Proof.Machine

open Sys2Proof.Spec

/-- Parameters that are bytes, as a host operation checks them. -/
def presented (params : List (ParamKind × Byte)) : List (ParamKind × HostParam) :=
  params.map fun kv => (kv.1, .num kv.2.toNat)

/-- The same parameters with the code of the class each is checked against. -/
def presentedByCode (params : List (ParamKind × Byte)) : List (Nat × HostParam) :=
  params.map fun kv => ((paramKindCode kv.1).toNat, .num kv.2.toNat)

theorem hostParamByte_num (b : Byte) : hostParamByte (.num b.toNat) = some b := by
  have hb : b.toNat ≤ 255 := Nat.le_of_lt_succ b.isLt
  simp [hostParamByte, hb]

theorem paramLegal_of_good {params : List (ParamKind × Byte)} (h : ∀ kp ∈ presentedByCode params, ParamGood kp) :
    ∀ kv ∈ params, paramLegal kv.1 kv.2 = true := by
  intro kv hkv
  obtain ⟨n, hn, hlegal⟩ := h _ (List.mem_map_of_mem hkv)
  cases hn
  exact (paramLegal_iff kv.1 kv.2).2 hlegal

theorem checkParams_legal (params : List (ParamKind × Byte)) (acc : List Byte) (s : State)
    (h : ∀ kv ∈ params, paramLegal kv.1 kv.2 = true) :
    ∃ status, checkParams (presented params) acc s =
      (some (acc ++ params.map Prod.snd), { s with status := status }) := by
  induction params generalizing acc s with
  | nil => exact ⟨s.status, by simp [presented, checkParams]⟩
  | cons kv params ih =>
    obtain ⟨status, hrest⟩ := ih (acc ++ [kv.2]) (succeed s).state fun p hp => h p (List.mem_cons_of_mem kv hp)
    refine ⟨status, ?_⟩
    simp only [presented, List.map_cons, checkParams, hostParamByte_num, pchkClass, h kv List.mem_cons_self, ↓reduceIte]
    refine hrest.trans ?_
    simp [succeed]

theorem validated_legal {params : List (ParamKind × Byte)} (s : State)
    (h : ∀ kv ∈ params, paramLegal kv.1 kv.2 = true) :
    ∃ status, validated (presented params) s = (some (params.map Prod.snd), { s with status := status }) := by
  have hparsed : ((presented params).all fun p => hostParamParsed p.2) = true := by
    simp [presented, hostParamParsed]
  rw [validated, if_pos hparsed]
  exact checkParams_legal params [] s h

/-- A host write operation whose parameters are legal and whose WVERIFY is confirmed (R235). -/
theorem writeOperation_confirmed {code selecting : Nat} {params : List (ParamKind × Byte)}
    {value : Catalog → List Byte → Byte} (name : String) {s : State} {sel : Selection} {w : WriteDesc} {v : VerifyDesc}
    {r : ReadDesc} {failed : List FailedAttempt} {write read : Exchange} {rest : List LinkEvent} {ts ts' : List Nat}
    (hlegal : ∀ kv ∈ params, paramLegal kv.1 kv.2 = true)
    (hsel : s.cfg.cat.writeOp.lookup (code, (params.map Prod.snd).take selecting) = some sel)
    (h : Confirmed s sel.wd (value s.cfg.cat (params.map Prod.snd)) sel.vd w v r failed write read rest ts ts') :
    ∃ t status, Verified { s with status := status } t (s.cfg.retryMax - failed.length - 1)
        (value s.cfg.cat (params.map Prod.snd)) w v r failed write read rest ts' ∧
      writeOperation code selecting (presented params) value name s = .ok (report (.success [(name, t.res)]) t) := by
  obtain ⟨status, hchecked⟩ := validated_legal s hlegal
  obtain ⟨t, ht, hverify⟩ := wverify_confirmed (confirmed_withStatus h status)
  exact ⟨t, status, ht, by simp only [writeOperation, hchecked, hsel, hverify, reportEnd]⟩

end Sys2Proof.Machine
end

namespace Sys2Proof.Proofs

open Sys2Proof.Machine

/-- Settles O43: by induction on the failed attempts, which the course of the bus lists. -/
theorem wverifySucceedsOnAMatch : Obligations.WverifySucceedsOnAMatch := by
  intro s wd val vd w v r failed write read rest ts ts' h
  obtain ⟨t, ht, hverify⟩ := wverify_confirmed h
  refine ⟨t, ?_, ht.reply, ht.request, ht.continues.sends, ht.budget, ht.continues.count, ht.continues.arrivals,
    ht.continues.times, fun m h2 hw hr hf => ht.kept h2 hw hr hf, ht.state_eq⟩
  simp only [exec, execWverify, hverify, outcome]

/-- Settles O48: each operation's row names its checks, its key and its value; then WVERIFY's end, reported. -/
theorem hostWriteOperationsReportTheConfirmedValue : Obligations.HostWriteOperationsReportTheConfirmedValue := by
  intro i code key val name s sel w v r failed write read rest ts ts' hop hgood hsel hconfirmed
  obtain ⟨selecting, params, value, hexec, hchecked, rfl, rfl⟩ : ∃ selecting params value,
      exec i s = hostOutcome (writeOperation code selecting (presented params) value name s) ∧
      Spec.checkedParams i = presentedByCode params ∧ key = (params.map Prod.snd).take selecting ∧
      val = value s.cfg.cat (params.map Prod.snd) := by
    obtain ⟨c, m, rfl, rfl, hkey, hval, rfl⟩ | ⟨c, m, x, rfl, rfl, hkey, hval, rfl⟩ | ⟨x, rfl, rfl, hkey, hval, rfl⟩ |
      ⟨m, rfl, rfl, hkey, hval, rfl⟩ | ⟨m, rfl, rfl, hkey, hval, rfl⟩ := hop
    · exact ⟨2, [(.circuit, c), (.mode3, m)], lastValue, rfl, rfl, hkey, hval⟩
    · exact ⟨2, [(.circuit, c), (.mode3, m), (.tempHc, x)], lastValue, rfl, rfl, hkey, hval⟩
    · exact ⟨0, [(.tempWw, x)], lastValue, rfl, rfl, hkey, hval⟩
    · exact ⟨0, [(.mode3, m)], lastValue, rfl, rfl, hkey, hval⟩
    · exact ⟨0, [(.mode2, m)], chargeOf, rfl, rfl, hkey, hval⟩
  obtain ⟨t, status, ht, hwrite⟩ :=
    writeOperation_confirmed name (paramLegal_of_good (hchecked ▸ hgood)) hsel hconfirmed
  have hstate := ht.state_eq
  have hhost : t.host = s.host := by rw [hstate]; rfl
  refine ⟨report (.success [(name, t.res)]) t, ?_, ht.reply, ht.request, ht.continues.sends, ?_, ?_, ht.budget,
    ht.continues.arrivals, fun m h2 hw hr hf => ht.kept h2 hw hr hf, ?_⟩
  · rw [hexec, hwrite, hostOutcome]
  · rw [report_host, hhost, ht.res]
  · rw [report_host, hhost]
  · rw [hstate]
    rfl

end Sys2Proof.Proofs

section
/-! SUPPORT. The checksum step in its shift-and-K form, and where it is one-to-one (R105, R106). -/

namespace Sys2Proof.Machine

/-- What a step adds to the shifted register: R106's K when the bit shifted out is set. -/
def crcFeedback (carryIn h : Bool) : Byte := if h then (if carryIn then 0x19 else 0x18) else 0x00

/-- On a byte whose bit 0 is clear, setting that bit is flipping it. -/
theorem or_one_eq_xor_one {x : Byte} (h : x.getLsbD 0 = false) : x ||| 0x01 = x ^^^ 0x01 := by
  refine BitVec.eq_of_getLsbD_eq fun i _ => ?_
  cases i with
  | zero => simpa using h
  | succ i => simp [BitVec.getLsbD_one]

theorem crcStep_eq_feedback (carryIn : Bool) (c x : Byte) :
    crcStep carryIn c x = (c <<< 1) ^^^ crcFeedback carryIn (c.getLsbD 7) ^^^ x := by
  have hmixed : (c ^^^ Config.crcFb) <<< 1 = (c <<< 1) ^^^ (0x18 : Byte) := BitVec.shiftLeft_xor_distrib _ _ _
  have hcarried : ((c <<< 1) ^^^ (0x18 : Byte)) ||| (0x01 : Byte) = (c <<< 1) ^^^ (0x19 : Byte) := by
    rw [or_one_eq_xor_one (by simp), BitVec.xor_assoc]
    rfl
  unfold crcStep crcFeedback
  cases c.getLsbD 7 with
  | false => simp
  | true =>
    cases carryIn with
    | false => simp [hmixed]
    | true => simp only [Bool.and_self, ↓reduceIte, hmixed, hcarried]

/-- The bit shifted out is the register's top bit. -/
theorem getLsbD_seven_iff (c : Byte) : c.getLsbD 7 = true ↔ 128 ≤ c.toNat := by
  rw [← BitVec.msb_eq_getLsbD_last (w := 8), BitVec.msb_eq_decide]
  simp

theorem crcStep_data_injective (carryIn : Bool) (c : Byte) : Function.Injective (crcStep carryIn c) := by
  intro x y h
  rwa [crcStep_eq_feedback, crcStep_eq_feedback, BitVec.xor_right_inj] at h

/-- With carry the bit shifted out comes back as bit 0, so a step loses nothing of the register. -/
theorem crcStep_register_injective (x : Byte) : Function.Injective (crcStep true · x) := by
  intro c c' h
  have hstep : (c <<< 1) ^^^ crcFeedback true (c.getLsbD 7) = (c' <<< 1) ^^^ crcFeedback true (c'.getLsbD 7) := by
    simpa only [crcStep_eq_feedback, BitVec.xor_left_inj] using h
  have hfeedback (b : Bool) : (crcFeedback true b).getLsbD 0 = b := by cases b <;> rfl
  have htop : c.getLsbD 7 = c'.getLsbD 7 := by
    simpa only [BitVec.getLsbD_xor, hfeedback, BitVec.getLsbD_shiftLeft, Nat.zero_lt_one, decide_true, Bool.not_true,
      Bool.and_false, Bool.false_and, Bool.false_xor] using congrArg (·.getLsbD 0) hstep
  have hshift : c <<< 1 = c' <<< 1 := by rwa [htop, BitVec.xor_left_inj] at hstep
  refine BitVec.eq_of_getElem_eq fun i hi => ?_
  obtain rfl | hi : i = 7 ∨ i + 1 < 8 := by omega
  · exact htop
  · simpa [hi] using congrArg (·.getLsbD (i + 1)) hshift

theorem crcBytes_append_singleton (carryIn : Bool) (bs : List Byte) (x : Byte) :
    crcBytes carryIn (bs ++ [x]) = crcStep carryIn (crcBytes carryIn bs) x := by
  simp only [crcBytes, List.foldl_append, List.foldl_cons, List.foldl_nil]

end Sys2Proof.Machine
end

section
/-! SUPPORT. What CRCGEN, CRCCHK and FVALID answer, by the bytes they read (R102 to R104). -/

namespace Sys2Proof.Machine

theorem crcgen_of_reads {s : State} {bs : List Byte} (hl : bs.length = 5) (h : Spec.Holds s.tx bs) :
    crcgen s = .ok (succeedWith (crcBytes s.cfg.crcCarryIn bs).toNat
      { s with tx := s.tx.write 5 (crcBytes s.cfg.crcCarryIn bs) }) := by
  have hcrc : crcOf s.cfg.crcCarryIn .tx s.tx Config.txFrame = .ok (crcBytes s.cfg.crcCarryIn bs) :=
    crcOf_of_reads bs hl h
  simp only [crcgen, hcrc]

theorem crcgen_of_unwritten {s : State} {k : Nat} (hk : k < 5) (hw : ∀ i < k, (s.tx.read i).isSome = true)
    (hu : s.tx.read k = none) : crcgen s = .error (.unwrittenRead .tx k) := by
  have hread : readBytes .tx s.tx 0 (Config.txFrame - 2) = .error (.unwrittenRead .tx (0 + k)) :=
    readBytes_fault 5 0 k hk (by simpa using hw) (by simpa using hu)
  simp only [crcgen, crcOf, hread, Nat.zero_add]

section

variable {s : State} {bs : List Byte} (h : Spec.Frame s bs)
include h

theorem frameMatches_of_match (h2 : 2 ≤ bs.length) (hm : Spec.ChecksumMatches s.cfg bs) : frameMatches s = .ok true := by
  rw [frameMatches_of_frame bs h.1 h2 h.2]
  exact congrArg _ (decide_eq_true hm)

theorem frameMatches_of_mismatch (h2 : 2 ≤ bs.length) (hm : ¬ Spec.ChecksumMatches s.cfg bs) :
    frameMatches s = .ok false := by
  rw [frameMatches_of_frame bs h.1 h2 h.2]
  exact congrArg _ (decide_eq_false hm)

end

theorem crcchk_of_short {s : State} (h : s.rxlen < 2) : crcchk s = .ok (succeedWith 0 s) := if_pos h

theorem crcchk_of_verdict {s : State} {r : Bool} (h2 : 2 ≤ s.rxlen) (h : frameMatches s = .ok r) :
    crcchk s = .ok (succeedWith (if r then 1 else 0) s) := by
  simp only [crcchk, Nat.not_lt.2 h2, ↓reduceIte, h]

theorem fvalid_of_short {s : State} (h : s.rxlen < 5) : fvalid s = .ok (fail .checksumInvalid s) := if_pos h

theorem fvalid_of_match {s : State} (h5 : 5 ≤ s.rxlen) (h : frameMatches s = .ok true) :
    fvalid s = .ok (succeedWith 1 (markValidated s)) := by
  simp only [fvalid, Config.minFrame, Nat.not_lt.2 h5, ↓reduceIte, h]

theorem fvalid_of_mismatch {s : State} (h5 : 5 ≤ s.rxlen) (h : frameMatches s = .ok false) :
    fvalid s = .ok (fail .checksumInvalid s) := by
  simp only [fvalid, Config.minFrame, Nat.not_lt.2 h5, ↓reduceIte, h]

end Sys2Proof.Machine
end

section
/-! SUPPORT. Where the invariant holds, nothing but CRCGEN or XMIT of a frame never built reads an unwritten byte
(R103, R149, R192): the captured frame is written, and an exchange builds its frame before it sends it. One
lemma per command, and one per sequence; what a sequence starts its next command in is the KeepsInv family's. -/

namespace Sys2Proof.Machine

/-- `r` does not fault for want of a byte's value. -/
def NeverUnwritten {α : Type} (r : Except Fault α) : Prop := ∀ buf k, r ≠ .error (.unwrittenRead buf k)

section

variable {α β : Type}

theorem NeverUnwritten.ok (a : α) : NeverUnwritten (.ok a) := nofun

/-- A fault that is passed on is no worse than where it came from. -/
theorem NeverUnwritten.passedOn {r : Except Fault α} {f : Fault} (h : NeverUnwritten r) (hf : r = .error f) :
    NeverUnwritten (.error f : Except Fault β) := by
  rintro buf k hk
  cases hk
  exact h buf k hf

end

theorem NeverUnwritten.thenRun {r : Except Fault Ended} {k : State → Except Fault Ended} (hr : NeverUnwritten r)
    (hi : KeepsInv r) (hk : ∀ t, Inv t → NeverUnwritten (k t)) : NeverUnwritten (thenRun r k) := by
  intro buf i h
  obtain hf | ⟨t, ht, hf⟩ := thenRun_faults h
  · exact hr buf i hf
  · exact hk t (hi _ ht) buf i hf

/-! ## Commands that read RX -/

section

variable {s : State} (h : Inv s)
include h

theorem crcchk_neverUnwritten : NeverUnwritten (crcchk s) := by
  by_cases h2 : s.rxlen < 2
  · rw [crcchk_of_short h2]; exact .ok _
  · have h2 := Nat.not_lt.1 h2
    obtain ⟨r, hr⟩ := frameMatches_ok h2 h.buffers.rxWritten
    rw [crcchk_of_verdict h2 hr]; exact .ok _

theorem fvalid_neverUnwritten : NeverUnwritten (fvalid s) := by
  by_cases h5 : s.rxlen < 5
  · rw [fvalid_of_short h5]; exact .ok _
  · have h5 := Nat.not_lt.1 h5
    obtain ⟨r, hr⟩ := frameMatches_ok (by omega) h.buffers.rxWritten
    cases r with
    | true => rw [fvalid_of_match h5 hr]; exact .ok _
    | false => rw [fvalid_of_mismatch h5 hr]; exact .ok _

theorem decodeField_neverUnwritten (off width : Nat) (value : List Byte → Int) :
    NeverUnwritten (decodeField off width value s) :=
  fun _ _ hf => nomatch decodeField_fault h.buffers.rxWritten hf

theorem du16_neverUnwritten (off sgn : Byte) : NeverUnwritten (du16 off sgn s) := by
  unfold du16
  split
  · exact decodeField_neverUnwritten h _ _ _
  · exact .ok _

theorem dflag_neverUnwritten (off bit : Byte) : NeverUnwritten (dflag off bit s) := by
  unfold dflag
  split
  · exact decodeField_neverUnwritten h _ _ _
  · exact .ok _

theorem dfield_neverUnwritten (fs : FieldSpec) : NeverUnwritten (dfield fs s) := by
  intro _ _ hf
  obtain ⟨_, _, hout⟩ := dfield_fault h.buffers.rxWritten hf
  cases hout

theorem tchk_neverUnwritten (type : Byte) : NeverUnwritten (tchk type s) := by
  unfold tchk
  split
  · rename_i f hf
    rw [readField_fault h.buffers.rxWritten hf]
    exact nofun
  · split <;> exact .ok _

theorem dack_neverUnwritten : NeverUnwritten (dack s) := by
  unfold dack
  split
  · exact .ok _
  · rename_i hl
    obtain ⟨b, hb⟩ := Option.isSome_iff_exists.1 (h.buffers.rxWritten 0 (Nat.pos_of_ne_zero hl))
    simp only [readByte_of_read hb]
    split <;> exact .ok _

end

/-! ## Commands that read TX -/

theorem crcgen_neverUnwritten {s : State} (h : ∀ i < Config.txFrame, (s.tx.read i).isSome = true) :
    NeverUnwritten (crcgen s) := by
  obtain ⟨bs, hbs⟩ := readBytes_ok_of_written (buf := .tx) (m := s.tx) (Config.txFrame - 2) 0
    fun i hi => h _ (by omega)
  simp only [crcgen, crcOf, hbs]
  exact .ok _

theorem waitMs_neverUnwritten (t : Nat) (e : Env) : NeverUnwritten (e.waitMs t) := by
  unfold Env.waitMs
  split
  · exact .ok _
  · exact nofun

theorem sendBytes_neverUnwritten (gap : Nat) (tx : Memory) (is : List Nat) (e : Env)
    (h : ∀ i ∈ is, (tx.read i).isSome = true) : NeverUnwritten (sendBytes gap tx is e) := by
  induction is generalizing e with
  | nil => exact .ok _
  | cons i is ih =>
    obtain ⟨b, hb⟩ := Option.isSome_iff_exists.1 (h i List.mem_cons_self)
    simp only [sendBytes, readByte_of_read hb]
    split
    · exact (waitMs_neverUnwritten _ _).passedOn ‹_›
    · exact ih _ fun j hj => h j (List.mem_cons_of_mem _ hj)

theorem xmit_neverUnwritten {s : State} (h : ∀ i < Config.txFrame, (s.tx.read i).isSome = true) :
    NeverUnwritten (xmit s) := by
  have hsend : NeverUnwritten (sendBytes s.cfg.txGap s.tx (List.range Config.txWire) s.env.now) :=
    sendBytes_neverUnwritten _ _ _ _ fun i hi => h i (Nat.lt_succ_of_lt (List.mem_range.1 hi))
  unfold xmit
  split
  · split
    · exact hsend.passedOn ‹_›
    · exact .ok _
  · exact .ok _

theorem xmit_of_empty {s : State} (h : s.tx = []) :
    xmit s = .error (.unwrittenRead .tx 0) ∨ xmit s = .ok (fail .illegalCommand s) := by
  by_cases hb : s.bt = .transmitting
  · have hsend : sendBytes s.cfg.txGap s.tx (List.range Config.txWire) s.env.now = .error (.unwrittenRead .tx 0) := by
      rw [h]; rfl
    exact .inl (by simp only [xmit, hb, ↓reduceIte, hsend])
  · exact .inr (xmit_interlock hb)

/-- A frame in TX is wholly written, so CRCGEN meets an unwritten byte only in an empty TX, and it is TX[0]. -/
theorem crcgen_unwritten {s : State} {buf : Buffer} {k : Nat} (h : Inv s)
    (hf : crcgen s = .error (.unwrittenRead buf k)) : buf = .tx ∧ k = 0 ∧ s.tx = [] := by
  obtain hempty | hwritten := h.buffers.txWhole
  · rw [crcgen_of_unwritten (k := 0) (by decide) nofun (by rw [hempty]; rfl)] at hf
    cases hf
    exact ⟨rfl, rfl, hempty⟩
  · exact absurd hf (crcgen_neverUnwritten hwritten _ _)

/-- And so does XMIT. -/
theorem xmit_unwritten {s : State} {buf : Buffer} {k : Nat} (h : Inv s)
    (hf : xmit s = .error (.unwrittenRead buf k)) : buf = .tx ∧ k = 0 ∧ s.tx = [] := by
  obtain hempty | hwritten := h.buffers.txWhole
  · obtain hfault | hfail := xmit_of_empty hempty
    · cases hfault.symm.trans hf
      exact ⟨rfl, rfl, hempty⟩
    · cases hfail.symm.trans hf
  · exact absurd hf (xmit_neverUnwritten hwritten _ _)

/-! ## Exchanges -/

/-- The invariant, with a frame in TX. -/
structure FrameBuilt (s : State) : Prop where
  inv : Inv s
  written : ∀ i < Config.txFrame, (s.tx.read i).isSome = true

theorem buildFrame_built {s : State} (h : Inv s) (dest type off payload : Byte) :
    FrameBuilt (succeed (buildFrame dest type off payload s)).state where
  inv := (buildFrame_inv h dest type off payload).succeed
  written i hi := by
    have hi : i < 7 := hi
    simp only [succeed_tx, buildFrame_read, if_pos hi]
    simp [header, hi]

/-- A request that is not turned away for its address has built its frame (R120, R121). -/
theorem request_built {s : State} (h : Inv s) {dest first type off payload : Byte} {e : Ended}
    (he : e = if addressLegal dest then succeed (buildFrame first type off payload s) else fail .illegalCommand s)
    (hc : e.cause = none) : FrameBuilt e.state := by
  subst he
  split at hc
  · rw [if_pos ‹_›]
    exact buildFrame_built h _ _ _ _
  · cases hc

theorem awaitTurn_built {s : State} (h : FrameBuilt s) : FrameBuilt (awaitTurn s).state where
  inv := awaitTurn_inv h.inv
  written := by rw [(awaitTurn_awaited s).frame]; exact h.written

/-- An exchange from its request on (R220): what it sends is the frame the request built. -/
theorem exchange_neverUnwritten {e : Ended} (he : e.cause = none → FrameBuilt e.state)
    {k : State → Except Fault Ended} (hk : ∀ t, Inv t → NeverUnwritten (k t)) :
    NeverUnwritten (thenRun (.ok e) fun s => thenRun (.ok (awaitTurn s)) fun s => thenRun (xmit s) fun s =>
      thenRun (.ok (recv s)) k) := by
  obtain ⟨_ | c, s⟩ := e
  · have hturn := awaitTurn_built (he rfl)
    rw [thenRun_done]
    generalize awaitTurn s = turn at hturn ⊢
    obtain ⟨_ | c, t⟩ := turn
    · rw [thenRun_done]
      exact .thenRun (xmit_neverUnwritten hturn.written) (xmit_inv hturn.inv) fun _ h =>
        .thenRun (.ok _) (.ok (recv_inv h)) hk
    · exact .ok _
  · exact .ok _

theorem descriptor_neverUnwritten {α : Type} (kind : CatalogKind) (table : List (Byte × α)) (id : Byte) :
    NeverUnwritten (descriptor kind table id) := by
  unfold descriptor
  split
  · exact .ok _
  · exact nofun

section

variable {s : State} (h : Inv s)
include h

theorem readExchange_neverUnwritten (r : ReadDesc) : NeverUnwritten (readExchange r s) :=
  exchange_neverUnwritten (request_built h rfl) fun _ h =>
  .thenRun (fvalid_neverUnwritten h) (fvalid_inv h) fun _ h =>
  .thenRun (tchk_neverUnwritten h _) (tchk_inv h _) fun _ _ => .ok _

theorem writeExchange_neverUnwritten (w : WriteDesc) (val : Byte) : NeverUnwritten (writeExchange w val s) :=
  exchange_neverUnwritten (request_built h rfl) fun _ h =>
  .thenRun (dack_neverUnwritten h) (dack_inv h) fun _ _ => .ok _

theorem xread_neverUnwritten (rd : Byte) : NeverUnwritten (xread rd s) := by
  unfold xread
  split
  · exact (descriptor_neverUnwritten _ _ _).passedOn ‹_›
  · exact readExchange_neverUnwritten h _

theorem xwrite_neverUnwritten (wd val : Byte) : NeverUnwritten (xwrite wd val s) := by
  unfold xwrite
  split
  · exact (descriptor_neverUnwritten _ _ _).passedOn ‹_›
  · exact writeExchange_neverUnwritten h _ _

theorem confirm_neverUnwritten (v : VerifyDesc) : NeverUnwritten (confirm v s) :=
  .thenRun (xread_neverUnwritten h _) (xread_inv h _) fun _ h => dfield_neverUnwritten h _

end

/-- Every attempt of WVERIFY starts in the invariant: RC stays within the budget (R30, R228). -/
theorem verifyLoop_neverUnwritten (wd val : Byte) (v : VerifyDesc) (budget : Nat) (s : State) (h : Inv s)
    (hb : budget ≤ s.cfg.retryMax) : NeverUnwritten (verifyLoop wd val v budget s) := by
  induction budget generalizing s with
  | zero => exact .ok _
  | succ budget ih =>
    have hstart : Inv { s with rc := budget } := h.withRc budget (by omega)
    have hwrite := xwrite_inv hstart wd val
    have hcfg := xwrite_budget wd val { s with rc := budget }
    have hnext {t : State} (ht : t.cfg = s.cfg) : budget ≤ t.cfg.retryMax := by rw [ht]; omega
    unfold verifyLoop
    split
    · exact (xwrite_neverUnwritten hstart wd val).passedOn ‹_›
    · rename_i c t ht
      split
      · exact ih t (hwrite _ ht) (hnext (hcfg _ ht).2)
      · exact .ok _
    · rename_i t ht
      have hread := confirm_inv (hwrite _ ht) v
      split
      · exact (confirm_neverUnwritten (hwrite _ ht) v).passedOn ‹_›
      · exact .ok _
      · rename_i u hu
        split
        · exact .ok _
        · split
          · exact .ok _
          · exact ih u (hread _ hu) (hnext ((confirm_budget v t _ hu).2.trans (hcfg _ ht).2))

theorem wverify_neverUnwritten {s : State} (h : Inv s) (wd val vd : Byte) : NeverUnwritten (wverify wd val vd s) := by
  unfold wverify
  split
  · exact (descriptor_neverUnwritten _ _ _).passedOn ‹_›
  · split
    · exact (descriptor_neverUnwritten _ _ _).passedOn ‹_›
    · split
      · exact (descriptor_neverUnwritten _ _ _).passedOn ‹_›
      · exact verifyLoop_neverUnwritten _ _ _ _ s h (Nat.le_refl _)

/-! ## Host operations -/

theorem decodeNamed_neverUnwritten (fields : List (String × FieldSpec)) (acc : List (String × Int)) {s : State}
    (h : Inv s) : NeverUnwritten (decodeNamed fields acc s) := by
  induction fields generalizing acc s with
  | nil => exact .ok _
  | cons field fields ih =>
    obtain ⟨name, fs⟩ := field
    simp only [decodeNamed]
    split
    · exact (dfield_neverUnwritten h fs).passedOn ‹_›
    · exact ih _ (dfield_inv h fs _ ‹_›)

theorem runReadSteps_neverUnwritten (steps : List ReadStep) (acc : List (String × Int)) {s : State} (h : Inv s) :
    NeverUnwritten (runReadSteps steps acc s) := by
  induction steps generalizing acc s with
  | nil => exact .ok _
  | cons st steps ih =>
    simp only [runReadSteps]
    split
    · exact (xread_neverUnwritten h _).passedOn ‹_›
    · exact .ok _
    · rename_i t ht
      have hread := xread_inv h _ _ ht
      split
      · exact (decodeNamed_neverUnwritten _ _ hread).passedOn ‹_›
      · exact ih _ (decodeNamed_inv _ _ _ _ hread ‹_›)

theorem readOperation_neverUnwritten (code : Nat) {s : State} (h : Inv s) : NeverUnwritten (readOperation code s) := by
  unfold readOperation
  split
  · exact nofun
  · exact runReadSteps_neverUnwritten _ _ h

theorem validated_inv (params : List (ParamKind × HostParam)) {s : State} (h : Inv s) : Inv (validated params s).2 := by
  unfold validated
  split
  · exact checkParams_inv params [] s h
  · exact h

theorem writeOperation_neverUnwritten (code selecting : Nat) (params : List (ParamKind × HostParam))
    (value : Catalog → List Byte → Byte) (result : String) {s : State} (h : Inv s) :
    NeverUnwritten (writeOperation code selecting params value result s) := by
  have hcheck := validated_inv params h
  unfold writeOperation
  split
  · exact .ok _
  · rename_i hv
    rw [hv] at hcheck
    split
    · exact nofun
    · split
      · exact (wverify_neverUnwritten hcheck _ _ _).passedOn ‹_›
      · exact .ok _

/-! ## Every instruction -/

theorem hostOutcome_fault {r : HostEnd} {f : Fault} (h : hostOutcome r = .fault f) : r = .error f := by
  unfold hostOutcome at h
  split at h <;> cases h
  rfl

/-- Reboot resets or is refused (R247). -/
theorem execOp20_not_fault (s : State) (f : Fault) : execOp20 s ≠ .fault f := by
  unfold execOp20
  split <;> exact nofun

/-- An instruction that meets an unwritten byte is CRCGEN or XMIT. -/
theorem exec_unwritten {i : Instr} {s : State} {buf : Buffer} {k : Nat} (h : Inv s)
    (hf : exec i s = .fault (.unwrittenRead buf k)) :
    i = .crcgen ∧ crcgen s = .error (.unwrittenRead buf k) ∨ i = .xmit ∧ xmit s = .error (.unwrittenRead buf k) := by
  have never {r : Except Fault Ended} (hr : NeverUnwritten r) : outcome r ≠ .fault (.unwrittenRead buf k) :=
    fun ho => hr buf k (outcome_fault ho)
  have hostNever {r : HostEnd} (hr : NeverUnwritten r) : hostOutcome r ≠ .fault (.unwrittenRead buf k) :=
    fun ho => hr buf k (hostOutcome_fault ho)
  cases i with
  | crcgen => exact .inl ⟨rfl, outcome_fault hf⟩
  | xmit => exact .inr ⟨rfl, outcome_fault hf⟩
  | crcchk => exact absurd hf (never (crcchk_neverUnwritten h))
  | fvalid => exact absurd hf (never (fvalid_neverUnwritten h))
  | dtype | du8 | dhalf | du24 => exact absurd hf (never (decodeField_neverUnwritten h _ _ _))
  | tchk type => exact absurd hf (never (tchk_neverUnwritten h type))
  | du16 off sgn => exact absurd hf (never (du16_neverUnwritten h off sgn))
  | dflag off bit => exact absurd hf (never (dflag_neverUnwritten h off bit))
  | dack => exact absurd hf (never (dack_neverUnwritten h))
  | xread rd => exact absurd hf (never (xread_neverUnwritten h rd))
  | xwrite wd val => exact absurd hf (never (xwrite_neverUnwritten h wd val))
  | wverify wd val vd => exact absurd hf (never (wverify_neverUnwritten h wd val vd))
  | op1 | op2 | op3 | op4 | op9 => exact absurd hf (hostNever (readOperation_neverUnwritten _ h))
  | op10 | op11 | op12 | op13 | op14 => exact absurd hf (hostNever (writeOperation_neverUnwritten _ _ _ _ _ h))
  | op20 => exact absurd hf (execOp20_not_fault s _)
  | encrd | encwr | pchk | await | recv | setto | op21 | op22 | op23 | op24 | op25 => cases hf

end Sys2Proof.Machine
end

namespace Sys2Proof.Proofs

open Sys2Proof.Machine

/-- Settles O11: by the shift-and-K form of the step; the collision without carry is computed. -/
theorem checksumStepLaws : Obligations.ChecksumStepLaws := by
  refine ⟨fun carry c x => ?_, fun carry c => crcStep_data_injective carry c, fun c c' x h => ?_,
    crcBytes_append_singleton, fun carry bs x y h => ?_, by decide⟩
  · simp only [crcStep_eq_feedback, crcFeedback, getLsbD_seven_iff]
  · exact crcStep_register_injective x h
  · simp only [crcBytes_append_singleton] at h
    exact crcStep_data_injective carry _ h

/-- Settles O60: every other instruction reads only captured or just built bytes, which are written, and CRCGEN and
XMIT stop at TX[0] of an empty TX. -/
theorem invariantRulesOutUnwrittenReads : Obligations.InvariantRulesOutUnwrittenReads := by
  intro i s buffer k h hf
  obtain ⟨hi, hcrcgen⟩ | ⟨hi, hxmit⟩ := exec_unwritten h hf
  · obtain ⟨hbuffer, hk, htx⟩ := crcgen_unwritten h hcrcgen
    exact ⟨hbuffer, hk, htx, .inl hi⟩
  · obtain ⟨hbuffer, hk, htx⟩ := xmit_unwritten h hxmit
    exact ⟨hbuffer, hk, htx, .inr hi⟩

/-- Settles O12: by the bytes TX[0..4] holds, or by the first of them that is unwritten. -/
theorem crcgenWritesTheChecksum : Obligations.CrcgenWritesTheChecksum := by
  intro s
  refine ⟨fun bs hlen hbytes => ?_, fun k hk hw hu => ?_⟩
  · simp only [exec, execCrcgen, crcgen_of_reads hlen hbytes, outcome]
    exact ⟨_, rfl, Memory.read_write_same _ _ _, fun i hi => Memory.read_write_other _ _ hi, rfl⟩
  · simp only [exec, execCrcgen, crcgen_of_unwritten hk hw hu, outcome]

/-- Settles O13: a frame shorter than two bytes has no checksum byte; any other has the verdict of its match. -/
theorem crcchkVerdict : Obligations.CrcchkVerdict := by
  intro s bs hframe
  have hlen : s.rxlen = bs.length := hframe.1
  refine ⟨fun hshort => ?_, fun h2 hmatch => ?_, fun h2 hmismatch => ?_⟩
  · rw [exec, execCrcchk, crcchk_of_short (hlen ▸ hshort), outcome, succeedWith_state]
  · rw [exec, execCrcchk, crcchk_of_verdict (hlen ▸ h2) (frameMatches_of_match hframe h2 hmatch), outcome,
      succeedWith_state, if_pos rfl]
  · rw [exec, execCrcchk, crcchk_of_verdict (hlen ▸ h2) (frameMatches_of_mismatch hframe h2 hmismatch), outcome,
      succeedWith_state, if_neg Bool.false_ne_true]

/-- Settles O14: the length floor first, then the verdict of the match. -/
theorem fvalidVerdict : Obligations.FvalidVerdict := by
  intro s bs hframe
  have hlen : s.rxlen = bs.length := hframe.1
  refine ⟨fun h5 hmatch => ?_, fun hinvalid => ?_⟩
  · rw [exec, execFvalid, fvalid_of_match (hlen ▸ h5) (frameMatches_of_match hframe (by omega) hmatch), outcome,
      markValidated_eq]
    rfl
  · have hfails : fvalid s = .ok (fail .checksumInvalid s) := by
      by_cases h5 : bs.length < 5
      · exact fvalid_of_short (hlen ▸ h5)
      · have h5 := Nat.not_lt.1 h5
        have hmismatch := hinvalid.resolve_left (Nat.not_lt.2 h5)
        exact fvalid_of_mismatch (hlen ▸ h5) (frameMatches_of_mismatch hframe (by omega) hmismatch)
    rw [exec, execFvalid, hfails, outcome, fail_state]
    rfl

end Sys2Proof.Proofs

section
/-! SUPPORT. What ENCRD and ENCWR leave beyond the frame they build (R120, R121), and the host write operations with a
bad parameter (R123, R235): the checks end at it, having touched STATUS and RESV at most. -/

namespace Sys2Proof.Machine

open Sys2Proof.Spec

/-- The frame is seven bytes; TX beyond it is as it was. -/
theorem buildFrame_kept (dest type off payload : Byte) (s : State) :
    ∀ i, 7 ≤ i → (buildFrame dest type off payload s).tx.read i = s.tx.read i := by
  intro i hi
  rw [buildFrame_read, if_neg (Nat.not_lt.2 hi)]

/-- The parameters of a host operation with the code of the class each is checked against. -/
def classCoded (params : List (ParamKind × HostParam)) : List (Nat × HostParam) :=
  params.map fun kp => ((paramKindCode kp.1).toNat, kp.2)

/-- Only a number up to 255 can be presented as an operand byte. -/
theorem eq_num_of_hostParamByte {p : HostParam} {v : Byte} (h : hostParamByte p = some v) : p = .num v.toNat := by
  cases p with
  | malformed => cases h
  | num n =>
    simp only [hostParamByte] at h
    split at h <;> cases h
    rw [BitVec.toNat_ofNat, Nat.mod_eq_of_lt (by omega)]

/-- A parameter whose check passes is good. -/
theorem paramGood_of_legal {k : ParamKind} {p : HostParam} {v : Byte} (hbyte : hostParamByte p = some v)
    (hlegal : paramLegal k v = true) : ParamGood ((paramKindCode k).toNat, p) :=
  ⟨v.toNat, eq_num_of_hostParamByte hbyte, (paramLegal_iff k v).1 hlegal⟩

/-- `t` is `s` but for STATUS and RESV: all that a check of a parameter may write (R123). -/
def VerdictOnly (s t : State) : Prop := t = { s with status := t.status, resv := t.resv }

theorem VerdictOnly.of_succeed {s t : State} (h : VerdictOnly (succeed s).state t) : VerdictOnly s t := h

/-- The checks pass what is good and end at the first parameter that is not. -/
theorem checkParams_of_bad (params : List (ParamKind × HostParam)) (acc : List Byte) (s : State)
    (hbad : ∃ kp ∈ classCoded params, ¬ ParamGood kp) :
    ∃ t, checkParams params acc s = (none, t) ∧ VerdictOnly s t := by
  induction params generalizing acc s with
  | nil => simp [classCoded] at hbad
  | cons kp params ih =>
    obtain ⟨k, p⟩ := kp
    cases hbyte : hostParamByte p with
    | none => exact ⟨s, by simp only [checkParams, hbyte], rfl⟩
    | some v =>
      obtain ⟨hcheck, hlegal⟩ | ⟨hcheck, -⟩ := pchkClass_cases k v s
      · have hrest := ((List.exists_mem_cons_iff _ _ _).1 hbad).resolve_left
          (not_not_intro (paramGood_of_legal hbyte hlegal))
        obtain ⟨t, ht, hverdict⟩ := ih (acc ++ [v]) (succeed s).state hrest
        refine ⟨t, ?_, hverdict.of_succeed⟩
        simp only [checkParams, hbyte, hcheck]
        exact ht
      · exact ⟨(fail .parameterOutOfRange s).state, by simp only [checkParams, hbyte, hcheck, fail], rfl⟩

/-- A parameter that could not be parsed is turned away before any check (R235). -/
theorem validated_of_malformed {params : List (ParamKind × HostParam)} (s : State)
    (h : ∃ kp ∈ classCoded params, kp.2 = .malformed) : validated params s = (none, s) := by
  obtain ⟨kp, hkp, hp⟩ : ∃ kp ∈ params, kp.2 = .malformed := by simpa [classCoded] using h
  have hunparsed : ¬ (params.all fun p => hostParamParsed p.2) = true := fun hall => by
    have hparsed := List.all_eq_true.1 hall kp hkp
    rw [hp] at hparsed
    cases hparsed
  rw [validated, if_neg hunparsed]

/-- A bad parameter is turned away by the host or by PCHK. -/
theorem validated_of_bad {params : List (ParamKind × HostParam)} (s : State)
    (hbad : ∃ kp ∈ classCoded params, ¬ ParamGood kp) : ∃ t, validated params s = (none, t) ∧ VerdictOnly s t := by
  unfold validated
  split
  · exact checkParams_of_bad params [] s hbad
  · exact ⟨s, rfl, rfl⟩

/-- An operation that checks parameters is a write operation over them (R242 to R246). -/
theorem exec_of_checkedParams {i : Instr} (h : checkedParams i ≠ []) :
    ∃ code selecting params value name, checkedParams i = classCoded params ∧
      ∀ s, exec i s = hostOutcome (writeOperation code selecting params value name s) := by
  cases i with
  | op10 | op11 | op12 | op13 | op14 => exact ⟨_, _, _, _, _, rfl, fun _ => rfl⟩
  | _ => exact absurd rfl h

end Sys2Proof.Machine
end

namespace Sys2Proof.Proofs

open Sys2Proof.Machine

/-- Settles O49: the checks end at the bad parameter, before the catalog is looked at, and only the report is added. -/
theorem badParametersTouchNoBus : Obligations.BadParametersTouchNoBus := by
  intro i s hbad
  have hchecks : Spec.checkedParams i ≠ [] := by
    obtain ⟨kp, hkp, -⟩ := hbad
    exact List.ne_nil_of_mem hkp
  obtain ⟨code, selecting, params, value, name, hparams, hexec⟩ := exec_of_checkedParams hchecks
  rw [hparams] at hbad ⊢
  obtain ⟨t, ht, hverdict⟩ := validated_of_bad s hbad
  have hhost : t.host = s.host := by rw [hverdict]
  refine ⟨report (.failure .parameterOutOfRange) t, ?_, ?_, ?_, ?_, fun hmalformed => ?_⟩
  · rw [hexec, writeOperation, ht, hostOutcome]
  · rw [report_host, hhost]
  · rw [hverdict]
    rfl
  · rw [report_host, hhost]
  · have hsame : t = s := by simpa [ht] using validated_of_malformed s hmalformed
    rw [hsame]
    rfl

/-- Settles O15: ENCRD builds the request of the descriptor with its operands, and a word is an ENCRD only with its
reserved operand zero. -/
theorem encrdBuildsTheReadRequest : Obligations.EncrdBuildsTheReadRequest := by
  intro s dest type len
  refine ⟨fun hdest => ?_, fun hdest => ?_, fun d i hd hdecode => ?_⟩
  · refine ⟨(succeed (buildFrame (readDest dest) type 0x00 len s)).state, _, ?_, rfl,
      buildFrame_readRequest ⟨dest, type, len⟩ s, buildFrame_kept _ _ _ _ s, rfl⟩
    rw [exec, execEncrd, encrd_legal type len s hdest]
  · rw [exec, execEncrd, encrd_wide type len s hdest, fail_state]
    rfl
  · rw [decode, decodeCommand_commandWord] at hdecode
    obtain ⟨-, -, hzero⟩ := accept_ok (mnemonic := "ENCRD") (reserved := [d]) (i := .encrd dest type len) hdecode
    exact hd (hzero d List.mem_cons_self)

/-- Settles O16: ENCWR builds the request of the descriptor with its operands. -/
theorem encwrBuildsTheWriteRequest : Obligations.EncwrBuildsTheWriteRequest := by
  intro s dest type woff val
  refine ⟨fun hdest => ?_, fun hdest => ?_⟩
  · refine ⟨(succeed (buildFrame dest type woff val s)).state, _, ?_, rfl,
      buildFrame_writeRequest ⟨dest, type, woff⟩ val s, buildFrame_kept _ _ _ _ s, rfl⟩
    rw [exec, execEncwr, encwr_legal type woff val s hdest]
  · rw [exec, execEncwr, encwr_wide type woff val s hdest, fail_state]
    rfl

end Sys2Proof.Proofs

section
/-! SUPPORT. What the field decoder's commands answer, by the bytes at the field's offset and by their operands
(R140 to R148). -/

namespace Sys2Proof.Machine

/-! ## The bytes of a field -/

/-- A buffer holds a run of bytes when it holds the first of them and, from the next index on, the others. -/
theorem reads_cons {m : Memory} {a : Nat} {b : Byte} {bs : List Byte} (hb : m.read a = some b)
    (hbs : ∀ i < bs.length, m.read (a + 1 + i) = bs[i]?) :
    ∀ i < (b :: bs).length, m.read (a + i) = (b :: bs)[i]? := by
  intro i hi
  cases i with
  | zero => exact hb
  | succ i =>
    have hrest := hbs i (Nat.lt_of_succ_lt_succ hi)
    rwa [Nat.add_assoc, Nat.add_comm 1] at hrest

/-- A decode answers the value of the bytes its field reads. -/
theorem outcome_decodeField {off width : Nat} {s : State} {bs : List Byte} (value : List Byte → Int)
    (h : readField off width s = .ok bs) :
    outcome (decodeField off width value s) = .next (Spec.succeededWith (value bs) s) := by
  simp only [decodeField, h, outcome, succeedWith_state]

/-- A decode faults where its field does. -/
theorem outcome_decodeField_fault {off width : Nat} {s : State} {f : Fault} (value : List Byte → Int)
    (h : readField off width s = .error f) : outcome (decodeField off width value s) = .fault f := by
  simp only [decodeField, h, outcome]

theorem readField_one {s : State} {off : Nat} {b : Byte} (hin : off + 3 ≤ s.rxlen) (h : s.rx.read off = some b) :
    readField off 1 s = .ok [b] :=
  readField_of_reads [b] rfl hin (reads_cons h nofun)

/-- Two bytes side by side are the 16-bit number they spell, most significant first (R51). -/
theorem append_toNat (b0 b1 : Byte) : (b0 ++ b1).toNat = be16 b0 b1 := by
  rw [BitVec.toNat_append, ← Nat.shiftLeft_add_eq_or_of_lt b1.isLt, Nat.shiftLeft_eq]
  rfl

/-- The two's-complement reading of a 16-bit field (R9, R145). -/
theorem sext16_be16_eq_toInt (b0 b1 : Byte) : sext16 (be16 b0 b1) = (b0 ++ b1).toInt := by
  rw [BitVec.toInt_eq_toNat_cond, append_toNat]
  unfold sext16
  split <;> split <;> omega

theorem be24_le (b0 b1 b2 : Byte) : be24 b0 b1 b2 ≤ 16777215 := by
  have h0 := b0.isLt
  have h1 := b1.isLt
  have h2 := b2.isLt
  unfold be24
  omega

/-! ## The commands with a check of their own -/

theorem exec_tchk_same {s : State} {b : Byte} (h : readField 2 1 s = .ok [b]) :
    exec (.tchk b) s = .next (Spec.succeeded s) := by
  simp only [exec, execTchk, tchk, h, ↓reduceIte, outcome, succeed_state]

theorem exec_tchk_other {s : State} {b type : Byte} (h : readField 2 1 s = .ok [b]) (hne : b ≠ type) :
    exec (.tchk type) s = .next (Spec.failedWith 5 s) := by
  have hne' : [b] ≠ [type] := mt List.singleton_injective.eq_iff.1 hne
  simp only [exec, execTchk, tchk, h, hne', ↓reduceIte, outcome, fail_state]
  rfl

theorem exec_tchk_fault {s : State} {type : Byte} {f : Fault} (h : readField 2 1 s = .error f) :
    exec (.tchk type) s = .fault f := by
  simp only [exec, execTchk, tchk, h, outcome]

theorem exec_du16_legal {sgn : Byte} (off : Byte) (s : State) (h : sgn.toNat ≤ 1) :
    exec (.du16 off sgn) s = outcome (decodeField off.toNat 2 (wordValue (sgn == 1)) s) :=
  congrArg outcome (if_pos h)

theorem exec_du16_illegal {sgn : Byte} (off : Byte) (s : State) (h : 1 < sgn.toNat) :
    exec (.du16 off sgn) s = .next (Spec.illegal s) :=
  congrArg outcome (if_neg (Nat.not_le.2 h))

theorem exec_dflag_legal {bit : Byte} (off : Byte) (s : State) (h : bit.toNat ≤ 7) :
    exec (.dflag off bit) s = outcome (decodeField off.toNat 1 (bitValue bit.toNat) s) :=
  congrArg outcome (if_pos h)

theorem exec_dflag_illegal {bit : Byte} (off : Byte) (s : State) (h : 7 < bit.toNat) :
    exec (.dflag off bit) s = .next (Spec.illegal s) :=
  congrArg outcome (if_neg (Nat.not_le.2 h))

/-! ## BT_STATE -/

/-- DACK moves BT_STATE from REPLY_CAPTURED to VALIDATED, or not at all (R84, R149). -/
theorem dack_bt {s : State} {e : Ended} (h : dack s = .ok e) :
    e.state.bt = s.bt ∨ s.bt = .replyCaptured ∧ e.state.bt = .validated := by
  unfold dack at h
  split at h
  · cases h; exact .inl rfl
  · split at h
    · cases h
    · split at h <;> cases h
      · rw [succeed_bt, markValidated]
        split
        · rename_i hbt; exact .inr ⟨hbt, rfl⟩
        · exact .inl rfl
      · exact .inl rfl

theorem runsExchanges_of_isDecode {i : Instr} (h : Spec.isDecode i = true) : Spec.runsExchanges i = false := by
  cases i with
  | dtype | tchk | du8 | du16 | dhalf | dflag | du24 | dack => rfl
  | _ => cases h

end Sys2Proof.Machine
end

namespace Sys2Proof.Proofs

open Sys2Proof.Machine

/-- Settles O18: both commands read the one byte RX[2], which lies in the data region from 5 captured bytes on. -/
theorem typeByteIsReadAndChecked : Obligations.TypeByteIsReadAndChecked := by
  intro s type
  refine ⟨fun b hin hread => ?_, fun hshort => ?_⟩
  · have hfield := readField_one hin hread
    refine ⟨outcome_decodeField byteValue hfield, ?_, exec_tchk_other hfield⟩
    rintro rfl
    exact exec_tchk_same hfield
  · have hfield := readField_outside (off := 2) (width := 1) hshort
    exact ⟨outcome_decodeField_fault byteValue hfield, exec_tchk_fault hfield⟩

/-- Settles O19: the three commands read one byte; DFLAG checks its bit number before. -/
theorem oneByteFieldsDecode : Obligations.OneByteFieldsDecode := by
  intro s off bit
  refine ⟨fun b hin hread => ?_, fun hout => ?_, exec_dflag_illegal off s⟩
  · have hfield := readField_one hin hread
    refine ⟨outcome_decodeField byteValue hfield, outcome_decodeField byteValue hfield, fun hbit => ?_⟩
    rw [exec_dflag_legal off s hbit, outcome_decodeField _ hfield, bitValue, flagOf_eq b ⟨bit.toNat, by omega⟩]
  · have hfield := readField_outside hout
    refine ⟨outcome_decodeField_fault byteValue hfield, outcome_decodeField_fault byteValue hfield, fun hbit => ?_⟩
    rw [exec_dflag_legal off s hbit, outcome_decodeField_fault _ hfield]

/-- Settles O20: two bytes read most significant first; their two's-complement reading is that of the bytes side by
side. -/
theorem sixteenBitFieldDecodes : Obligations.SixteenBitFieldDecodes := by
  intro s off sgn
  refine ⟨fun b0 b1 hin h0 h1 => ?_, fun hout hsgn => ?_, exec_du16_illegal off s⟩
  · have hfield := readField_of_reads [b0, b1] rfl hin (reads_cons h0 (reads_cons h1 nofun))
    refine ⟨outcome_decodeField (wordValue false) hfield, ?_⟩
    rw [← sext16_be16_eq_toInt]
    exact outcome_decodeField (wordValue true) hfield
  · rw [exec_du16_legal off s hsgn, outcome_decodeField_fault _ (readField_outside hout)]

/-- Settles O21: three bytes read most significant first, each at most 255. -/
theorem counterDecodes : Obligations.CounterDecodes := by
  intro s off
  refine ⟨fun b0 b1 b2 hin h0 h1 h2 => ⟨be24 b0 b1 b2, rfl, be24_le b0 b1 b2, ?_⟩, fun hout => ?_⟩
  · have hfield := readField_of_reads [b0, b1, b2] rfl hin (reads_cons h0 (reads_cons h1 (reads_cons h2 nofun)))
    exact outcome_decodeField counterValue hfield
  · exact outcome_decodeField_fault counterValue (readField_outside hout)

/-- Settles O24: by the registers each instruction writes; among the field decoder's commands DACK alone writes
BT_STATE. -/
theorem decodeCommandsTouchOnlyTheResult : Obligations.DecodeCommandsTouchOnlyTheResult := by
  intro i s t hi ht
  have h20 : i ≠ .op20 := by rintro rfl; cases hi
  cases exec_wrote ht (runsExchanges_of_isDecode hi) h20 with
  | outcome _ h => rw [h.eq]; exact ⟨rfl, .inl rfl⟩
  | dack h =>
    obtain ⟨_, he⟩ := outcome_next ht
    exact ⟨h.eq, (dack_bt he).imp_right fun hmoves => ⟨rfl, hmoves⟩⟩
  | _ => cases hi

end Sys2Proof.Proofs


section
/-! SUPPORT. AWAIT and RECV on a scripted link that lets their deadline pass (R172, R195): first the traffic or the
gaps before it, then the wait's last clock reads. -/

namespace Sys2Proof.Machine

open Sys2Proof.Spec

theorem exists_append_length_eq {ts : List Nat} {n : Nat} (h : n ≤ ts.length) :
    ∃ us vs, ts = us ++ vs ∧ us.length = n :=
  ⟨ts.take n, ts.drop n, (List.take_append_drop n ts).symm, List.length_take_of_le h⟩

theorem elapsed_after_self (e : Env) (ts : List Nat) (as : List LinkEvent) {d : Nat} (hd : d < 2 ^ 32) :
    ((e.after d ts as).clock - e.clock).toNat = d := by
  rw [Env.after_clock, elapsed_add _ _ _ (by rwa [elapsed_self, Nat.zero_add]), elapsed_self, Nat.zero_add]

section

variable {s : State} {traffic : List Traffic} {t0 d d' : Nat} {us vs ts ts' : List Nat}

/-- AWAIT over traffic that is not meant for this controller: its loop goes on after it (R172). -/
theorem awaitTurn_traffic {as : List LinkEvent} (hforeign : ∀ q ∈ traffic, q.Foreign s.cfg)
    (ha : s.env.arrivals = traffic.flatMap Traffic.events ++ as) (ht : s.env.times = t0 :: (us ++ vs))
    (hl : us.length = (traffic.map Traffic.reads).sum) (he : us = [] ∨ spent us < s.cfg.pollTo) :
    ∃ n fuel, awaitTurn s = awaitLoop s.env.now.clock s.cfg.pollTo (fuel + 1) { s with
      rx := storedBy traffic s.rx, rxlen := n, bt := .waitingForPoll, env := s.env.now.after (spent us) vs as } := by
  have hreads := length_le_reads traffic
  have hnow := now_after ht
  have hfuel : waitFuel s.cfg.pollTo s.env.now =
      traffic.length + (us.length - traffic.length + vs.length + s.cfg.pollTo + 1) := by
    simp only [waitFuel, hnow, Env.after_times, List.length_append]
    omega
  have hbefore : traffic = [] ∨ (s.env.now.clock - s.env.now.clock).toNat + spent us < s.cfg.pollTo := by
    rw [elapsed_self, Nat.zero_add]
    refine he.imp_left fun hnil => List.length_eq_zero_iff.1 ?_
    rw [hnil, List.length_nil] at hl
    omega
  obtain ⟨n, hpassed⟩ := awaitLoop_traffic traffic as us vs s.env.now.clock s.cfg.pollTo
    (us.length - traffic.length + vs.length + s.cfg.pollTo + 1) s.cfg.pollTo_lt
    { s with env := s.env.now, bt := .waitingForPoll } hforeign (by simpa using ha) (by rw [hnow]; rfl) hl hbefore
  refine ⟨n, us.length - traffic.length + vs.length + s.cfg.pollTo, ?_⟩
  simp only [awaitTurn, hfuel, hpassed]

/-- AWAIT gives up when the deadline is over while it waits for a further capture's first unit (R172). -/
theorem awaitTurn_waiting_timeout {quiet rest : List LinkEvent} (hforeign : ∀ q ∈ traffic, q.Foreign s.cfg)
    (hq : Quiet s.cfg.idleFiller quiet) (ha : s.env.arrivals = traffic.flatMap Traffic.events ++ quiet ++ rest)
    (ht : s.env.times = t0 :: (ts ++ d :: d' :: ts')) (hl : ts.length = (traffic.map Traffic.reads).sum + quiet.length)
    (he : ts = [] ∨ spent ts < s.cfg.pollTo) (hd : s.cfg.pollTo ≤ spent (ts ++ [d]))
    (hw : spent (ts ++ [d, d']) < 2 ^ 32) :
    awaitTurn s = fail .pollTimeout { s with
      rx := storedBy traffic s.rx, rxlen := 0, bt := .idle,
      env := s.env.now.after (spent (ts ++ [d, d'])) ts' rest } := by
  obtain ⟨us, vs, rfl, hus⟩ := exists_append_length_eq (n := (traffic.map Traffic.reads).sum) (ts := ts) (by omega)
  rw [List.append_eq_nil_iff] at he
  rw [List.append_assoc] at ha ht
  simp only [List.length_append, spent_append, spent_cons, spent_nil, Nat.add_zero] at hl he hd hw
  obtain ⟨n, fuel, hpassed⟩ := awaitTurn_traffic hforeign ha ht hus (he.imp (·.1) (by omega))
  have helapsed := elapsed_after_self s.env.now (vs ++ d :: d' :: ts') (quiet ++ rest) (d := spent us) (by omega)
  rw [hpassed]
  refine (awaitLoop_timeout quiet rest d d' vs ts' s.env.now.clock s.cfg.pollTo fuel s.cfg.pollTo_lt _ (by exact hq) rfl rfl
    (by omega) ?_ ?_ ?_).trans ?_
  · rw [helapsed]; exact he.imp_left (·.2)
  · rw [helapsed]; omega
  · rw [helapsed]; omega
  · simp only [Env.after_after, spent_append, spent_cons, spent_nil, Nat.add_zero, Nat.add_assoc]

/-- AWAIT gives up when the deadline is over at the test after a capture that is no poll of this controller (R172). -/
theorem awaitTurn_foreign_timeout {last : Traffic} {rest : List LinkEvent} (hforeign : ∀ q ∈ traffic, q.Foreign s.cfg)
    (hlast : last.Foreign s.cfg) (ha : s.env.arrivals = traffic.flatMap Traffic.events ++ last.events ++ rest)
    (ht : s.env.times = t0 :: (ts ++ d :: ts'))
    (hl : ts.length = (traffic.map Traffic.reads).sum + last.quiet.length + 1) (he : spent ts < s.cfg.pollTo)
    (hd : s.cfg.pollTo ≤ spent (ts ++ [d])) :
    awaitTurn s = fail .pollTimeout { s with
      rx := storedBy (traffic ++ [last]) s.rx, rxlen := last.group.bytes.length, bt := .idle,
      env := s.env.now.after (spent (ts ++ [d])) ts' rest } := by
  have hpollTo := s.cfg.pollTo_lt
  obtain ⟨us, vs, rfl, hus⟩ := exists_append_length_eq (n := (traffic.map Traffic.reads).sum) (ts := ts) (by omega)
  rw [List.append_assoc] at ha ht
  simp only [List.length_append, spent_append, spent_cons, spent_nil, Nat.add_zero] at hl he hd
  obtain ⟨n, fuel, hpassed⟩ := awaitTurn_traffic hforeign ha ht hus (.inr (by omega))
  have helapsed := elapsed_after_self s.env.now (vs ++ d :: ts') (last.events ++ rest) (d := spent us) (by omega)
  rw [hpassed]
  refine (awaitLoop_foreign last rest vs d ts' s.env.now.clock s.cfg.pollTo fuel hpollTo _ (by exact hlast) rfl rfl
    (by omega) (by rw [helapsed]; omega)).trans ?_
  rw [if_pos (by rw [helapsed]; omega)]
  simp only [Env.after_after, spent_append, spent_cons, spent_nil, Nat.add_zero, Nat.add_assoc, storedBy,
    List.foldl_append, List.foldl_cons, List.foldl_nil]

end

theorem answerWindow_lt (s : State) : answerWindow s < 2 ^ 31 := by
  have hansTo := s.ansTo.isLt
  simp only [answerWindow, Config.ansToUnit]
  omega

section

variable {s : State} {k d : Nat} {us vs ts ts' : List Nat}

/-- RECV over gaps: its busy wait goes on after them (R195). -/
theorem recv_gaps {as : List LinkEvent} (hbt : s.bt = .awaitingReply)
    (ha : s.env.arrivals = List.replicate k .gap ++ as) (ht : s.env.times = us ++ vs) (hl : us.length = k)
    (he : us = [] ∨ (s.env.clock - s.tTx).toNat + spent us < answerWindow s) :
    ∃ fuel, recv s =
      recvLoop s.tTx (answerWindow s) (fuel + 1) { s with env := s.env.after (spent us) vs as } := by
  have hfuel : waitFuel (answerWindow s) s.env = k + (vs.length + answerWindow s + 1) := by
    simp only [waitFuel, ht, List.length_append]
    omega
  have hwindow := answerWindow_lt s
  refine ⟨vs.length + answerWindow s, ?_⟩
  rw [recv, if_pos hbt, hfuel]
  exact recvLoop_gaps k as us vs s.tTx (answerWindow s) _ (by omega) s ha ht hl he

/-- RECV gives up when the answer window is over while it waits for a first unit (R195). -/
theorem recv_waiting_timeout {rest : List LinkEvent} (hbt : s.bt = .awaitingReply)
    (ha : s.env.arrivals = List.replicate k .gap ++ rest) (ht : s.env.times = ts ++ d :: ts') (hl : ts.length = k)
    (he : ts = [] ∨ (s.env.clock - s.tTx).toNat + spent ts < answerWindow s)
    (hd : answerWindow s ≤ (s.env.clock - s.tTx).toNat + spent (ts ++ [d]))
    (hw : (s.env.clock - s.tTx).toNat + spent (ts ++ [d]) < 2 ^ 32) :
    recv s = recvTimeout { s with env := s.env.after (spent (ts ++ [d])) ts' rest } := by
  simp only [spent_append, spent_cons, spent_nil, Nat.add_zero] at hd hw ⊢
  obtain ⟨fuel, hpassed⟩ := recv_gaps hbt ha ht hl he
  have helapsed := elapsed_add s.tTx s.env.clock (spent ts) (by omega)
  have hexpired := expired_after (e := s.env.after (spent ts) (d :: ts') rest) s.tTx (answerWindow s) rfl
    (by rw [Env.after_clock, helapsed]; omega)
  rw [decide_eq_true (by rw [Env.after_clock, helapsed]; omega), Env.after_after] at hexpired
  rw [hpassed]
  simp only [recvLoop, hexpired, Env.after_arrivals]

/-- RECV gives up when the answer window is over in the capture, which nothing but gaps and fillers has reached
(R170, R195). -/
theorem recv_capture_timeout {quiet rest as : List LinkEvent} {u : LinkUnit} (hbt : s.bt = .awaitingReply)
    (ha : s.env.arrivals = List.replicate k .gap ++ (quiet ++ rest)) (hunit : quiet ++ rest = .arrived u :: as)
    (hq : Quiet s.cfg.idleFiller quiet) (ht : s.env.times = ts ++ d :: ts') (hl : ts.length = k + 1 + quiet.length)
    (he : (s.env.clock - s.tTx).toNat + spent ts < answerWindow s)
    (hd : answerWindow s ≤ (s.env.clock - s.tTx).toNat + spent (ts ++ [d]))
    (hw : (s.env.clock - s.tTx).toNat + spent (ts ++ [d]) < 2 ^ 32) :
    recv s = recvTimeout { s with env := s.env.after (spent (ts ++ [d])) ts' rest } := by
  have hwindow := answerWindow_lt s
  obtain ⟨us, ws, rfl, hus⟩ := exists_append_length_eq (n := k) (ts := ts) (by omega)
  obtain _ | ⟨t, vs⟩ := ws
  · rw [List.append_nil] at hl; omega
  simp only [List.length_append, List.length_cons] at hl
  simp only [List.append_assoc, List.cons_append] at ht
  simp only [spent_append, spent_cons, spent_nil, Nat.add_zero] at he hd hw ⊢
  obtain ⟨fuel, hpassed⟩ := recv_gaps hbt ha ht hus (.inr (by omega))
  have hgaps := elapsed_add s.tTx s.env.clock (spent us) (by omega)
  have hlook := elapsed_add s.tTx s.env.clock (spent us + t % 2 ^ 31) (by omega)
  have hexpired := expired_after (e := s.env.after (spent us) (t :: (vs ++ d :: ts')) (quiet ++ rest)) s.tTx
    (answerWindow s) rfl (by rw [Env.after_clock, hgaps]; omega)
  rw [decide_eq_false (by rw [Env.after_clock, hgaps]; omega), Env.after_after] at hexpired
  have havail := avail_unit (e := s.env.after (spent us + t % 2 ^ 31) (vs ++ d :: ts') (quiet ++ rest)) hunit
  rw [hpassed]
  simp only [recvLoop, hexpired, Env.after_arrivals, havail]
  refine (recvCapture_timeout quiet rest vs d ts' s.tTx (answerWindow s) (by omega) _
    (by exact hq) rfl rfl (by omega) (.inr ?_) ?_ ?_).trans ?_
  · rw [Env.after_clock, hlook]; omega
  · rw [Env.after_clock, hlook]; omega
  · rw [Env.after_clock, hlook]; omega
  · simp only [Env.after_after, Nat.add_assoc]

end

end Sys2Proof.Machine
end

section
/-! SUPPORT. How AWAIT and RECV end on any link and any clock: what a captured poll is, and that they give up only at
a clock read that finds their deadline past (R172, R174, R195). -/

namespace Sys2Proof.Machine

theorem pollMatches_iff (s : State) :
    pollMatches s = true ↔ s.rxlen = 2 ∧ ∃ b, s.rx.read 0 = some b ∧ (b &&& 0x7F).toNat = s.cfg.ctrlAddr.toNat := by
  cases hread : s.rx.read 0 with
  | none => simp [pollMatches, hread]
  | some b => simp only [pollMatches, hread, Bool.and_eq_true, decide_eq_true_eq, beq_iff_eq, polledAddress_eq,
      Option.some.injEq, exists_eq_left']

theorem awaitTurn_deadline (s : State) (h : (awaitTurn s).cause ≠ none) :
    s.cfg.pollTo ≤ (awaitTurn s).state.env.elapsed s.env.now.clock :=
  awaitLoop_deadline _ _ s.cfg.pollTo_lt _ _ (waitMeasure_le_fuel _ _ _) h

theorem recv_deadline (s : State) (hbt : s.bt = .awaitingReply) (h : (recv s).cause ≠ none) :
    answerWindow s ≤ (recv s).state.env.elapsed s.tTx := by
  rw [recv, if_pos hbt] at h ⊢
  exact recvLoop_deadline _ _ (answerWindow_lt s) _ s (waitMeasure_le_fuel _ _ _) h

end Sys2Proof.Machine
end

namespace Sys2Proof.Proofs

open Sys2Proof.Machine

/-- Settles O26: AWAIT's loop over the foreign traffic, and then its last clock reads, in the wait for a further unit
or at the test after one more capture. -/
theorem awaitTimesOut : Obligations.AwaitTimesOut := by
  intro s traffic rest t0 d ts ts' hforeign
  refine ⟨fun quiet d' ha hq ht hl he hd hw => ?_, fun last hlast ha ht hl he hd => ?_⟩
  · have htimeout := awaitTurn_waiting_timeout hforeign hq ha ht hl he hd hw
    exact ⟨_, congrArg (fun r : Ended => Host.Outcome.next r.state) htimeout, rfl, rfl, EnvLaws.now_sent _, rfl⟩
  · have htimeout := awaitTurn_foreign_timeout hforeign hlast ha ht hl he hd
    exact ⟨_, congrArg (fun r : Ended => Host.Outcome.next r.state) htimeout, rfl, rfl, EnvLaws.now_sent _, rfl⟩

/-- Settles O27: by the two ends of AWAIT; a match is a poll of this controller, and a loop that gives up has read a
clock past the deadline. -/
theorem awaitEndsInTurnOrTimeout : Obligations.AwaitEndsInTurnOrTimeout := by
  intro s
  have hawait := awaitTurn_awaited s
  refine ⟨_, rfl, hawait.sent, hawait.kept, ?_⟩
  obtain ⟨-, hbt, hmatch, hstatus, hresv⟩ | ⟨hcause, hbt, hstatus, hresv⟩ := hawait.ends
  · obtain ⟨hrxlen, b, hread, haddr⟩ := (pollMatches_iff _).1 hmatch
    refine .inl ⟨b, hrxlen, hread, haddr.trans ?_, hawait.frame.trans ?_⟩
    · rw [congrArg State.cfg hawait.frame]
    · rw [hrxlen, hbt, hstatus, hresv]; rfl
  · refine .inr ⟨hawait.short, awaitTurn_deadline s (by simp [hcause]), hawait.frame.trans ?_⟩
    rw [hbt, hstatus, hresv]; rfl

/-- Settles O32: RECV's busy wait over the gaps; then its deadline test, or the capture's, finds the window over. -/
theorem recvTimesOut : Obligations.RecvTimesOut := by
  intro s k quiet rest d ts ts' hbt ha hq ht hend he hd hw
  rw [List.append_assoc] at ha
  have htimeout : recv s = recvTimeout { s with env := s.env.after (Spec.spent (ts ++ [d])) ts' rest } := by
    obtain ⟨rfl, hl⟩ | ⟨⟨u, as, hunit⟩, hl⟩ := hend
    · exact recv_waiting_timeout hbt ha ht hl he hd hw
    · have hbefore := he.resolve_left (by rintro rfl; rw [List.length_nil] at hl; omega)
      exact recv_capture_timeout hbt ha hunit hq ht hl hbefore hd hw
  exact ⟨_, congrArg (fun r : Ended => Host.Outcome.next r.state) htimeout, rfl, rfl, rfl, rfl⟩

/-- Settles O33: by the two ends of RECV; a loop that gives up has read a clock past the window. -/
theorem recvEndsInReplyOrTimeout : Obligations.RecvEndsInReplyOrTimeout := by
  intro s hwaiting
  have hrecv := recv_received s hwaiting
  refine ⟨_, rfl, hrecv.sent, hrecv.kept, hrecv.written, ?_⟩
  obtain ⟨-, hbt, hpos, hres, hstatus, hresv⟩ | ⟨hcause, hbt, hrxlen, hstatus, hresv, hres⟩ := hrecv.ends
  · refine .inl ⟨hpos, hrecv.bound, hrecv.frame.trans ?_⟩
    rw [hbt, hres, hstatus, hresv]; rfl
  · refine .inr ⟨recv_deadline s hwaiting (by simp [hcause]), hrecv.frame.trans ?_⟩
    rw [hbt, hrxlen, hres, hstatus, hresv]; rfl

end Sys2Proof.Proofs

section
/-! SUPPORT. What XMIT puts on the send log, stamp by stamp (R191, R192), and the deadline test across a wrap of the
clock (R190, R198). -/

namespace Sys2Proof.Machine

/-- The frame's items with their stamps: the bytes of a paced send, then the signal at the clock it ends with. -/
theorem zipWith_signalled {bs : List Byte} {stamps : List ClockWord} (h : stamps.length = bs.length) (c : ClockWord) :
    List.zipWith Sent.mk (bs.map .data ++ [.endOfFrame]) (stamps ++ [c]) =
      List.zipWith (fun b c => ⟨.data b, c⟩) bs stamps ++ [⟨.endOfFrame, c⟩] := by
  rw [List.zipWith_append (by rw [List.length_map, h]), List.zipWith_map_left]
  rfl

/-- The signal goes out after the last byte's wait, so it is paced like the bytes before it. -/
theorem SentPaced.signal_paced {gap : Nat} {bs : List Byte} {e e' : Env} {stamps : List ClockWord}
    (h : SentPaced gap bs e e' stamps) {i : Nat} {a b : ClockWord} (ha : (stamps ++ [e'.clock])[i]? = some a)
    (hb : (stamps ++ [e'.clock])[i + 1]? = some b) : gap ≤ (b - a).toNat := by
  obtain ⟨hi, -⟩ := List.getElem?_eq_some_iff.1 hb
  rw [List.length_append, List.length_singleton, h.length] at hi
  exact h.paced i (Nat.lt_of_succ_lt_succ hi) a b ha hb

/-- XMIT in TRANSMITTING is a paced send of the frame, then the signal, the flush and a clock reading (R192). -/
theorem xmit_paced {s : State} {bs : List Byte} (ht : s.bt = .transmitting) (hg : s.cfg.txGap < 2 ^ 32)
    (hl : bs.length = 6) (h : Spec.Holds s.tx bs) :
    ∃ e stamps, SentPaced s.cfg.txGap bs s.env.now e stamps ∧
      xmit s = .ok (succeed { s with
        env := (e.send .endOfFrame).flush.now, tTx := (e.send .endOfFrame).flush.now.clock, xcnt := s.xcnt + 1,
        bt := .awaitingReply }) := by
  obtain ⟨e, stamps, hsend, hpaced⟩ := sendBytes_paced s.cfg.txGap hg s.tx bs 0 s.env.now
    fun i hi => by rw [Nat.zero_add]; exact h i hi
  rw [hl, ← List.range_eq_range'] at hsend
  exact ⟨e, stamps, hpaced, by simp only [xmit, ht, ↓reduceIte, Config.txWire, hsend]⟩

/-- `d` milliseconds later, `d` milliseconds have passed, whatever the clock wraps over. -/
theorem elapsed_after (start : ClockWord) {d : Nat} (hd : d < 2 ^ 32) :
    (start + BitVec.ofNat 32 d - start).toNat = d := by
  rw [elapsed_add start start d (by rwa [elapsed_self, Nat.zero_add]), elapsed_self, Nat.zero_add]

end Sys2Proof.Machine
end

section
/-! SUPPORT. What holds over whole exchanges holds over WVERIFY and the host operations, which are made of them
(R228, R234, R235). Unlike HoldsOverSteps it asks nothing of the states within an exchange. -/

namespace Sys2Proof.Machine

/-- A property of the state that every exchange keeps, and so does whatever writes only the outcome registers, RC and
the host's side. -/
structure HoldsOverExchanges (P : State → Prop) : Prop where
  between : ∀ {s t}, P s → OutcomeOnly { s with rc := t.rc, host := t.host } t → P t
  xread : ∀ {rd s e}, P s → xread rd s = .ok e → P e.state
  xwrite : ∀ {wd val s e}, P s → xwrite wd val s = .ok e → P e.state

section

variable {P : State → Prop}

/-- A sequence ends in the property when its first part does and the rest keeps it. -/
theorem thenRun_ends {r : Except Fault Ended} {k : State → Except Fault Ended} (hr : ∀ e, r = .ok e → P e.state)
    (hk : ∀ t, P t → ∀ e, k t = .ok e → P e.state) : ∀ e, thenRun r k = .ok e → P e.state := by
  intro e he
  obtain ⟨t, ht, hkt⟩ | ⟨_, -, hc⟩ := thenRun_cases he
  · exact hk t (hr _ ht) e hkt
  · exact hr e hc

namespace HoldsOverExchanges

variable (hP : HoldsOverExchanges P)

include hP

theorem outcome {s t : State} (h : P s) (ht : OutcomeOnly s t) : P t := hP.between h (by rw [ht.eq]; rfl)

theorem report {s : State} (h : P s) (r : Report) : P (report r s) := hP.between h rfl

theorem reportEnd {e : Ended} (h : P e.state) (name : String) : P (reportEnd name e) := by
  unfold Machine.reportEnd
  split <;> exact hP.report h _

theorem confirm {v : VerifyDesc} {s : State} {e : Ended} (h : P s) (he : confirm v s = .ok e) : P e.state :=
  thenRun_ends (fun _ => hP.xread h) (fun _ ht _ he => hP.outcome ht (dfield_writes he)) e he

/-- An attempt of WVERIFY counts RC down, then writes, and then reads to confirm (R228). -/
theorem verifyLoop {wd val : Byte} {v : VerifyDesc} {budget : Nat} {s : State} {e : Ended} (h : P s)
    (he : verifyLoop wd val v budget s = .ok e) : P e.state := by
  induction budget generalizing s with
  | zero => cases he; exact hP.outcome h rfl
  | succ budget ih =>
    have hcount : P { s with rc := budget } := hP.between h rfl
    simp only [Machine.verifyLoop] at he
    split at he
    · cases he
    · rename_i ht
      have hwrite := hP.xwrite hcount ht
      split at he
      · exact ih hwrite he
      · cases he; exact hwrite
    · rename_i ht
      have hwrite := hP.xwrite hcount ht
      split at he
      · cases he
      · rename_i hu
        cases he; exact hP.confirm hwrite hu
      · rename_i hu
        have hread := hP.confirm hwrite hu
        split at he
        · cases he; exact hP.outcome hread rfl
        · split at he
          · cases he; exact hP.outcome hread rfl
          · exact ih hread he

theorem wverify {wd val vd : Byte} {s : State} {e : Ended} (h : P s) (he : wverify wd val vd s = .ok e) :
    P e.state := by
  unfold Machine.wverify at he
  split at he
  · cases he
  · split at he
    · cases he
    · split at he
      · cases he
      · exact hP.verifyLoop h he

theorem decodeNamed {fields : List (String × FieldSpec)} {acc : List (String × Int)} {s : State}
    {p : List (String × Int) × State} (h : P s) (hp : decodeNamed fields acc s = .ok p) : P p.2 := by
  induction fields generalizing acc s with
  | nil => cases hp; exact h
  | cons field fields ih =>
    simp only [Machine.decodeNamed] at hp
    split at hp
    · cases hp
    · rename_i he
      exact ih (hP.outcome h (dfield_writes he)) hp

theorem runReadSteps {steps : List ReadStep} {acc : List (String × Int)} {s t : State} (h : P s)
    (ht : runReadSteps steps acc s = .ok t) : P t := by
  induction steps generalizing acc s with
  | nil => cases ht; exact hP.report h _
  | cons st steps ih =>
    simp only [Machine.runReadSteps] at ht
    split at ht
    · cases ht
    · rename_i hu
      cases ht; exact hP.report (hP.xread h hu) _
    · rename_i hu
      split at ht
      · cases ht
      · rename_i hw
        exact ih (hP.decodeNamed (hP.xread h hu) hw) ht

theorem readOperation {code : Nat} {s t : State} (h : P s) (ht : readOperation code s = .ok t) : P t := by
  unfold Machine.readOperation at ht
  split at ht
  · cases ht
  · exact hP.runReadSteps h ht

theorem checkParams (params : List (ParamKind × HostParam)) (acc : List Byte) {s : State} (h : P s) :
    P (checkParams params acc s).2 := by
  induction params generalizing acc s with
  | nil => exact h
  | cons kp params ih =>
    simp only [Machine.checkParams]
    split
    · exact h
    · rename_i v _
      have hcheck := hP.outcome h (pchkClass_writes kp.1 v s)
      split <;> rename_i hp <;> rw [hp] at hcheck
      · exact ih _ hcheck
      · exact hcheck

theorem validated (params : List (ParamKind × HostParam)) {s : State} (h : P s) : P (validated params s).2 := by
  unfold Machine.validated
  split
  · exact hP.checkParams params [] h
  · exact h

theorem writeOperation {code selecting : Nat} {params : List (ParamKind × HostParam)}
    {value : Catalog → List Byte → Byte} {name : String} {s t : State} (h : P s)
    (ht : writeOperation code selecting params value name s = .ok t) : P t := by
  have hcheck := hP.validated params h
  unfold Machine.writeOperation at ht
  split at ht <;> rename_i hv <;> rw [hv] at hcheck
  · cases ht; exact hP.report hcheck _
  · split at ht
    · cases ht
    · split at ht
      · cases ht
      · rename_i he
        cases ht; exact hP.reportEnd (hP.wverify hcheck he) _

theorem exec {i : Instr} {s t : State} (hx : Spec.runsExchanges i = true) (h : P s) (ht : exec i s = .next t) :
    P t := by
  cases i with
  | xread => obtain ⟨_, he⟩ := outcome_next ht; exact hP.xread h he
  | xwrite => obtain ⟨_, he⟩ := outcome_next ht; exact hP.xwrite h he
  | wverify => obtain ⟨_, he⟩ := outcome_next ht; exact hP.wverify h he
  | op1 | op2 | op3 | op4 | op9 => exact hP.readOperation h (hostOutcome_next ht)
  | op10 | op11 | op12 | op13 | op14 => exact hP.writeOperation h (hostOutcome_next ht)
  | crcgen | crcchk | fvalid | encrd | encwr | pchk | dtype | tchk | du8 | du16 | dhalf | dflag | du24 | dack | await
  | xmit | recv | setto | op20 | op21 | op22 | op23 | op24 | op25 => cases hx

end HoldsOverExchanges

end

end Sys2Proof.Machine
end

section
/-! SUPPORT. How the block comes into TRANSMITTING and AWAITING_REPLY (R196). AWAIT and XMIT enter them; an exchange
passes through both and ends in neither, unless its request is turned away and BT_STATE stays. -/

namespace Sys2Proof.Machine

/-- The transport states between a turn and the end of its answer window. -/
def BtState.inTurn : BtState → Bool
  | .transmitting | .awaitingReply => true
  | .idle | .waitingForPoll | .replyCaptured | .validated | .timedOut => false

theorem BtState.ne_of_not_inTurn {b c : BtState} (hb : b.inTurn = true) (hc : c.inTurn = false) : c ≠ b := by
  rintro rfl
  cases hb.symm.trans hc

/-- FVALID moves BT_STATE from REPLY_CAPTURED to VALIDATED, or not at all (R84, R104). -/
theorem fvalid_bt {s : State} {e : Ended} (h : fvalid s = .ok e) :
    e.state.bt = s.bt ∨ s.bt = .replyCaptured ∧ e.state.bt = .validated := by
  unfold fvalid at h
  split at h
  · cases h; exact .inl rfl
  · split at h <;> cases h
    · exact .inl rfl
    · rw [succeedWith_bt, markValidated]
      split
      · rename_i hbt; exact .inr ⟨hbt, rfl⟩
      · exact .inl rfl

/-- AWAIT gives the turn and succeeds, or fails and ends in IDLE (R172). -/
theorem awaitTurn_bt {s : State} {e : Ended} (h : awaitTurn s = e) :
    e.cause = none ∧ e.state.bt = .transmitting ∧ e.state.status = statusOk ∨
      e.cause ≠ none ∧ e.state.bt = .idle := by
  subst h
  obtain ⟨hcause, hbt, -, hstatus, -⟩ | ⟨hcause, hbt, -⟩ := (awaitTurn_awaited s).ends
  · exact .inl ⟨hcause, hbt, hstatus⟩
  · exact .inr ⟨by simp [hcause], hbt⟩

/-- XMIT with the turn opens the answer window and succeeds, unless it faults (R192). -/
theorem xmit_bt {s : State} {e : Ended} (h : s.bt = .transmitting) (he : xmit s = .ok e) :
    e.cause = none ∧ e.state.bt = .awaitingReply ∧ e.state.status = statusOk := by
  rw [xmit, if_pos h] at he
  split at he <;> cases he
  exact ⟨rfl, rfl, rfl⟩

section

variable {b : BtState} (hb : b.inTurn = true)
include hb

/-- A verdict on the reply moves BT_STATE to VALIDATED at most. -/
theorem bt_ne_of_verdict {s t : State} (h : s.bt ≠ b)
    (ht : t.bt = s.bt ∨ s.bt = .replyCaptured ∧ t.bt = .validated) :
    t.bt ≠ b := by
  obtain ht | ⟨-, ht⟩ := ht <;> rw [ht]
  · exact h
  · exact BtState.ne_of_not_inTurn hb rfl

/-- A request gives up any turn held, or is turned away for its address (R120, R121, R304). -/
theorem request_bt_ne {dest first type off payload : Byte} {s : State} {e : Ended} (h : s.bt ≠ b)
    (he : e = if addressLegal dest then succeed (buildFrame first type off payload s) else fail .illegalCommand s) :
    e.state.bt ≠ b := by
  subst he
  split
  · exact BtState.ne_of_not_inTurn hb rfl
  · exact h

/-- RECV ends the answer window (R195). -/
theorem recv_bt_ne_of_awaiting {s : State} (h : s.bt = .awaitingReply) : (recv s).state.bt ≠ b := by
  obtain ⟨-, hbt, -⟩ | ⟨-, hbt, -⟩ := (recv_received s h).ends <;> rw [hbt] <;>
    exact BtState.ne_of_not_inTurn hb rfl

theorem recv_bt_ne {s : State} (h : s.bt ≠ b) : (recv s).state.bt ≠ b := by
  by_cases hwaiting : s.bt = .awaitingReply
  · exact recv_bt_ne_of_awaiting hb hwaiting
  · rw [recv_interlock s hwaiting]
    exact h

/-- An exchange from its request on: it ends after RECV, or where AWAIT gets no turn, or with its request. -/
theorem exchange_bt_ne {e : Ended} (he : e.state.bt ≠ b) {k : State → Except Fault Ended}
    (hk : ∀ t, t.bt ≠ b → ∀ r, k t = .ok r → r.state.bt ≠ b) {r : Ended}
    (hr : thenRun (.ok e) (fun s => thenRun (.ok (awaitTurn s)) fun s => thenRun (xmit s) fun s =>
      thenRun (.ok (recv s)) k) = .ok r) : r.state.bt ≠ b := by
  obtain ⟨s, -, hr⟩ | ⟨_, -, hr⟩ := thenRun_cases hr
  · obtain ⟨t, ht, hr⟩ | ⟨_, hfailed, hr⟩ := thenRun_cases hr
    · obtain ⟨-, hturn, -⟩ | ⟨hcause, -⟩ := awaitTurn_bt (Except.ok.inj ht)
      · obtain ⟨u, hu, hr⟩ | ⟨_, hfailed, hr⟩ := thenRun_cases hr
        · obtain ⟨-, hwaiting, -⟩ := xmit_bt hturn hu
          exact thenRun_ends (fun _ he => by cases he; exact recv_bt_ne_of_awaiting hb hwaiting) hk _ hr
        · obtain ⟨hcause, -⟩ := xmit_bt hturn hr
          cases hfailed.symm.trans hcause
      · exact absurd rfl hcause
    · obtain ⟨hcause, -⟩ | ⟨-, hidle⟩ := awaitTurn_bt (Except.ok.inj hr)
      · cases hfailed.symm.trans hcause
      · rw [hidle]
        exact BtState.ne_of_not_inTurn hb rfl
  · cases hr; exact he

/-- An exchange ends in neither state of the turn, unless it starts there. -/
theorem bt_ne_holdsOverExchanges : HoldsOverExchanges fun s => s.bt ≠ b where
  between h ht := by rwa [ht.eq]
  xread {rd s e} h he := by
    unfold xread at he
    split at he
    · cases he
    · refine exchange_bt_ne hb (request_bt_ne hb h rfl) (fun t ht => ?_) he
      exact thenRun_ends (P := fun s => s.bt ≠ b) (fun _ he => bt_ne_of_verdict hb ht (fvalid_bt he)) fun u hu =>
        thenRun_ends (P := fun s => s.bt ≠ b) (fun _ he => by rw [(tchk_writes he).eq]; exact hu) fun v hv _ he => by
          cases he; exact hv
  xwrite {wd val s e} h he := by
    unfold xwrite at he
    split at he
    · cases he
    · refine exchange_bt_ne hb (request_bt_ne hb h rfl) (fun t ht => ?_) he
      exact thenRun_ends (P := fun s => s.bt ≠ b) (fun _ he => bt_ne_of_verdict hb ht (dack_bt he)) fun u hu _ he => by
        cases he; exact hu

/-- An instruction that comes into a state of the turn is AWAIT or, from TRANSMITTING, XMIT. -/
theorem instr_of_exec_enters {i : Instr} {s t : State} (h : exec i s = .next t) (hs : s.bt ≠ b) (ht : t.bt = b) :
    i = .await ∧ b = .transmitting ∧ t.status = statusOk ∨
      i = .xmit ∧ s.bt = .transmitting ∧ b = .awaitingReply ∧ t.status = statusOk := by
  by_cases hx : Spec.runsExchanges i = true
  · exact absurd ht ((bt_ne_holdsOverExchanges hb).exec hx hs h)
  by_cases h20 : i = .op20
  · subst h20
    rw [execOp20_next h] at ht
    exact absurd ht (BtState.ne_of_not_inTurn hb rfl)
  cases exec_wrote h (Bool.eq_false_iff.2 hx) h20 with
  | outcome _ hw | crcgen hw | setto _ hw | op25 _ hw =>
    rw [hw.eq] at ht
    exact absurd ht hs
  | encrd | encwr => cases h; exact absurd ht (request_bt_ne hb hs rfl)
  | fvalid => obtain ⟨_, he⟩ := outcome_next h; exact absurd ht (bt_ne_of_verdict hb hs (fvalid_bt he))
  | dack => obtain ⟨_, he⟩ := outcome_next h; exact absurd ht (bt_ne_of_verdict hb hs (dack_bt he))
  | await =>
    cases h
    obtain ⟨-, hbt, hstatus⟩ | ⟨-, hidle⟩ := awaitTurn_bt (s := s) rfl
    · exact .inl ⟨rfl, ht.symm.trans hbt, hstatus⟩
    · exact absurd (hidle.symm.trans ht) (BtState.ne_of_not_inTurn hb rfl)
  | xmit =>
    obtain ⟨_, he⟩ := outcome_next h
    by_cases hturn : s.bt = .transmitting
    · obtain ⟨-, hbt, hstatus⟩ := xmit_bt hturn he
      exact .inr ⟨rfl, hturn, ht.symm.trans hbt, hstatus⟩
    · rw [xmit_interlock hturn] at he
      cases he
      exact absurd ht hs
  | recv => cases h; exact absurd ht (recv_bt_ne hb hs)

end

end Sys2Proof.Machine
end

namespace Sys2Proof.Proofs

open Sys2Proof.Machine

/-- Settles O34: the difference modulo `2^32` is `d` itself. -/
theorem deadlineTestIsModular : Obligations.DeadlineTestIsModular := by
  intro start d dur hd
  rw [elapsedAtLeast, decide_eq_true_iff, elapsed_after start hd]

/-- Settles O28: by the paced send of the six bytes, whose last wait ends at the signal's stamp. -/
theorem xmitSendsThePacedFrame : Obligations.XmitSendsThePacedFrame := by
  intro s bs ht hg hl h
  obtain ⟨e, stamps, hpaced, hxmit⟩ := xmit_paced ht hg hl h
  refine ⟨_, stamps ++ [e.clock], congrArg outcome hxmit, ?_, ?_, fun i a b => hpaced.signal_paced, ?_, ?_, rfl⟩
  · rw [List.length_append, hpaced.length, hl, List.length_singleton]
  · rw [zipWith_signalled hpaced.length]
    simp [hpaced.sent]
  · simp [hpaced.arrivals]
  · simp [hpaced.linkDraws]

/-- Settles O29: without the state each needs, XMIT and RECV only fail; and TRANSMITTING and AWAITING_REPLY are states
of the turn, which only AWAIT and XMIT come into. -/
theorem transportInterlocks : Obligations.TransportInterlocks := by
  refine ⟨fun s => ⟨fun h => congrArg outcome (xmit_interlock h), fun h => ?_⟩,
    fun i s t h => ⟨fun ht => or_iff_not_imp_left.2 fun hs => ?_, fun ht => or_iff_not_imp_left.2 fun hs => ?_⟩⟩
  · exact congrArg (fun r : Ended => Host.Outcome.next r.state) (recv_interlock s h)
  · obtain ⟨hawait, -, hstatus⟩ | ⟨-, -, hstate, -⟩ := instr_of_exec_enters rfl h hs ht
    · exact ⟨hawait, hstatus⟩
    · cases hstate
  · obtain ⟨-, hstate, -⟩ | ⟨hxmit, hturn, -, hstatus⟩ := instr_of_exec_enters rfl h hs ht
    · cases hstate
    · exact ⟨hxmit, hturn, hstatus⟩

end Sys2Proof.Proofs

section
/-! SUPPORT. The model's sequences and the statements' own (R221): a sequence goes on exactly where STATUS is a success,
so XREAD, XWRITE and WVERIFY are runs of the commands they name. -/

namespace Sys2Proof.Machine

open Sys2Proof.Spec

/-! ## Sequences (R221) -/

theorem runSteps_cons (i : Instr) (is : List Instr) (s : State) :
    runSteps (i :: is) s = onSuccess (exec i s) (runSteps is) := rfl

theorem runSteps_singleton (i : Instr) (s : State) : runSteps [i] s = exec i s := by
  rw [runSteps_cons]
  cases exec i s with
  | next t => simp only [onSuccess, runSteps, ite_self]
  | fault f => rfl
  | refused r => rfl

theorem onSuccess_onSuccess (o : Host.Outcome State Fault Refusal) (k l : State → Host.Outcome State Fault Refusal) :
    onSuccess (onSuccess o k) l = onSuccess o fun t => onSuccess (k t) l := by
  cases o with
  | next t => by_cases h : statusOkBit t.status = true <;> simp [onSuccess, h]
  | fault f => rfl
  | refused r => rfl

/-- A sound end tells in STATUS whether the sequence goes on. -/
theorem outcome_thenRun {r : Except Fault Ended} (hr : EndsSound r) (k : State → Except Fault Ended) :
    outcome (thenRun r k) = onSuccess (outcome r) fun t => outcome (k t) := by
  match r, hr with
  | .error f, _ => rfl
  | .ok ⟨none, t⟩, hr => simp [outcome, onSuccess, (hr _ rfl).okBit]
  | .ok ⟨some c, t⟩, hr => simp [outcome, onSuccess, (hr _ rfl).okBit]

section

variable {i : Instr} {is : List Instr} {s : State} {r : Except Fault Ended} {k : State → Except Fault Ended}
  {l : State → Host.Outcome State Fault Refusal}

/-- A sequence whose first part is the instruction `i` and whose rest is a run of `is`. -/
theorem outcome_thenRun_steps (hi : exec i s = outcome r) (hr : EndsSound r)
    (hk : ∀ t, outcome (k t) = onSuccess (runSteps is t) l) :
    outcome (thenRun r k) = onSuccess (runSteps (i :: is) s) l := by
  rw [outcome_thenRun hr, funext hk, runSteps_cons, onSuccess_onSuccess, hi]

/-- A sequence whose last command is the instruction `i`. -/
theorem outcome_thenRun_last (hi : exec i s = outcome r) (hr : EndsSound r) (hk : ∀ t, outcome (k t) = l t) :
    outcome (thenRun r k) = onSuccess (runSteps [i] s) l := by
  rw [outcome_thenRun hr, funext hk, runSteps_singleton, hi]

end

/-! ## Exchanges (R222, R224) -/

theorem outcome_readExchange (r : ReadDesc) (s : State) : outcome (readExchange r s) =
    onSuccess (runSteps [.encrd r.dest r.type r.len, .await, .xmit, .recv, .fvalid, .tchk r.type] s)
      fun t => .next (succeededWith t.rxlen t) :=
  outcome_thenRun_steps rfl (.ok (encrd_sound _ _ _ _)) fun _ =>
  outcome_thenRun_steps rfl (.ok (awaitTurn_sound _)) fun _ =>
  outcome_thenRun_steps rfl (xmit_sound _) fun _ =>
  outcome_thenRun_steps rfl (.ok (recv_sound _)) fun _ =>
  outcome_thenRun_steps rfl (fvalid_sound _) fun _ =>
  outcome_thenRun_last rfl (tchk_sound _ _) fun _ => rfl

theorem outcome_writeExchange (w : WriteDesc) (val : Byte) (s : State) : outcome (writeExchange w val s) =
    onSuccess (runSteps [.encwr w.dest w.type w.woff val, .await, .xmit, .recv, .dack] s)
      fun t => .next (succeededWith t.rxlen t) :=
  outcome_thenRun_steps rfl (.ok (encwr_sound _ _ _ _ _)) fun _ =>
  outcome_thenRun_steps rfl (.ok (awaitTurn_sound _)) fun _ =>
  outcome_thenRun_steps rfl (xmit_sound _) fun _ =>
  outcome_thenRun_steps rfl (.ok (recv_sound _)) fun _ =>
  outcome_thenRun_last rfl (dack_sound _) fun _ => rfl

theorem descriptor_of_some {α : Type} {table : List (Byte × α)} {id : Byte} {d : α} (kind : CatalogKind)
    (h : table.lookup id = some d) : descriptor kind table id = .ok d := by
  simp only [descriptor, h]

theorem descriptor_of_none {α : Type} {table : List (Byte × α)} {id : Byte} (kind : CatalogKind)
    (h : table.lookup id = none) : descriptor kind table id = .error (.catalogUndefined kind id.toNat) := by
  simp only [descriptor, h]

/-! ## WVERIFY (R228) -/

/-- The confirming read of an attempt is XREAD and the field's decode. -/
theorem outcome_confirm (v : VerifyDesc) (s : State) :
    outcome (confirm v s) = runSteps [.xread v.rd, expandField v.fs] s := by
  rw [confirm, outcome_thenRun (xread_sound _ _), runSteps_cons]
  congr 1
  funext t
  rw [runSteps_singleton, exec_expandField]

/-- Of the causes only WriteNotAcknowledged has the code 6. -/
theorem Cause.code_eq_six_iff (c : Cause) : c.code = 6 ↔ c = .writeNotAcknowledged := by cases c <;> decide

/-- WVERIFY's loop is the loop of its rule: how an attempt ends stands in STATUS. -/
theorem outcome_verifyLoop (wd val : Byte) (v : VerifyDesc) (budget : Nat) (s : State) :
    outcome (verifyLoop wd val v budget s) = verifyByCommands wd val v budget s := by
  induction budget generalizing s with
  | zero => rfl
  | succ budget ih =>
    have hwrite := xwrite_sound wd val { s with rc := budget }
    simp only [verifyLoop, verifyByCommands, exec, execXwrite]
    match hw : xwrite wd val { s with rc := budget } with
    | .error f => rfl
    | .ok ⟨some c, t⟩ =>
      have hcode : statusCause t.status = c.code := (hwrite _ hw).causeCode
      have hok : statusOkBit t.status = false := (hwrite _ hw).okBit
      by_cases hc : c = .writeNotAcknowledged
      · by_cases hb : budget = 0
        · simp [outcome, hcode, hc, hb, Cause.code]
        · simp [outcome, hcode, hc, hb, Cause.code, Nat.pos_of_ne_zero hb, ← ih]
      · simp [outcome, hcode, hok, hc, Cause.code_eq_six_iff]
    | .ok ⟨none, t⟩ =>
      have hcode : statusCause t.status = 0 := (hwrite _ hw).causeCode
      have hok : statusOkBit t.status = true := (hwrite _ hw).okBit
      have hconfirm := confirm_sound v t
      simp only [outcome, hcode, hok, ← outcome_confirm]
      match hr : confirm v t with
      | .error f => simp
      | .ok ⟨some c, u⟩ =>
        have hu : statusOkBit u.status = false := (hconfirm _ hr).okBit
        simp [hu]
      | .ok ⟨none, u⟩ =>
        have hu : statusOkBit u.status = true := (hconfirm _ hr).okBit
        by_cases hm : u.res = expected v.expect val
        · simp [hu, hm, succeed_state, succeeded]
        · by_cases hb : budget = 0
          · simp [hu, hm, hb, fail_state, Cause.code]
          · simp [hu, hm, hb, ← ih, outcome]

end Sys2Proof.Machine
end

section
/-! SUPPORT. The host operations and the statements' own runs of the commands they name (R234, R235): a host read
operation is its chain of XREADs and decodes, a host write operation its PCHKs and then WVERIFY. -/

namespace Sys2Proof.Machine

open Sys2Proof.Spec

/-! ## Reports (R249) -/

/-- A cause is the one its number names (R260). -/
theorem causeNamed_code (c : Cause) : causeNamed c.code = c := by cases c <;> rfl

/-- STATUS keeps the cause of a failure, so a report from STATUS is a report of the cause. -/
theorem reportCause_of_sound {c : Cause} {t : State} (h : Ended.Sound ⟨some c, t⟩) :
    reportCause t = report (.failure c) t := by
  have hcode : statusCause t.status = c.code := h.causeCode
  rw [reportCause, hcode, causeNamed_code]

/-! ## Read operations (R234) -/

theorem decodeByCommands_of_ok {fields : List (String × FieldSpec)} {acc : List (String × Int)} {s : State}
    {p : List (String × Int) × State} (h : decodeNamed fields acc s = .ok p)
    (k : List (String × Int) → State → Host.Outcome State Fault Refusal) :
    decodeByCommands k fields acc s = k p.1 p.2 := by
  induction fields generalizing acc s with
  | nil => cases h; rfl
  | cons field fields ih =>
    simp only [decodeNamed] at h
    split at h
    · cases h
    · rename_i e he
      simp only [decodeByCommands, exec_expandField, he, outcome]
      exact ih h

theorem decodeByCommands_of_error {fields : List (String × FieldSpec)} {acc : List (String × Int)} {s : State}
    {f : Fault} (h : decodeNamed fields acc s = .error f)
    (k : List (String × Int) → State → Host.Outcome State Fault Refusal) :
    decodeByCommands k fields acc s = .fault f := by
  induction fields generalizing acc s with
  | nil => cases h
  | cons field fields ih =>
    simp only [decodeNamed] at h
    split at h
    · rename_i he
      cases h
      simp only [decodeByCommands, exec_expandField, he, outcome]
    · rename_i e he
      simp only [decodeByCommands, exec_expandField, he, outcome]
      exact ih h

/-- The chained exchanges of a read operation are the loop of R234 over XREAD and the decodes. -/
theorem hostOutcome_runReadSteps (steps : List ReadStep) (acc : List (String × Int)) (s : State) :
    hostOutcome (runReadSteps steps acc s) = readByCommands steps acc s := by
  induction steps generalizing acc s with
  | nil => rfl
  | cons step steps ih =>
    have hread := xread_sound step.rd s
    simp only [runReadSteps, readByCommands, exec, execXread]
    match hx : xread step.rd s with
    | .error f => rfl
    | .ok ⟨some c, t⟩ =>
      have hok : statusOkBit t.status = false := (hread _ hx).okBit
      simp [outcome, hok, hostOutcome, reportCause_of_sound (hread _ hx)]
    | .ok ⟨none, t⟩ =>
      have hok : statusOkBit t.status = true := (hread _ hx).okBit
      simp only [outcome, hok, ↓reduceIte]
      match hd : decodeNamed step.fields acc t with
      | .error f => rw [decodeByCommands_of_error hd]; rfl
      | .ok p => rw [decodeByCommands_of_ok hd, ← ih]

theorem exec_readOperation {i : Instr} {code : Nat}
    (h : (i, code) ∈ [(Instr.op1, 1), (.op2, 2), (.op3, 3), (.op4, 4), (.op9, 9)]) (s : State) :
    exec i s = hostOutcome (readOperation code s) := by
  simp only [List.mem_cons, Prod.mk.injEq, List.not_mem_nil, or_false] at h
  obtain ⟨rfl, rfl⟩ | ⟨rfl, rfl⟩ | ⟨rfl, rfl⟩ | ⟨rfl, rfl⟩ | ⟨rfl, rfl⟩ := h <;> rfl

/-! ## Write operations (R235) -/

/-- Numbers, as the host's dispatcher hands them to the checks of their classes. -/
def numbered (params : List (ParamKind × Nat)) : List (ParamKind × HostParam) := params.map fun kn => (kn.1, .num kn.2)

/-- The bytes that stand for these numbers. -/
def numberBytes (params : List (ParamKind × Nat)) : List Byte := params.map fun kn => BitVec.ofNat 8 kn.2

/-- Numbers are parsed, so each is checked in its turn. -/
theorem validated_numbered (params : List (ParamKind × Nat)) (s : State) :
    validated (numbered params) s = checkParams (numbered params) [] s :=
  if_pos (by simp [numbered, hostParamParsed])

theorem hostParamByte_of_le {n : Nat} (h : n ≤ 255) : hostParamByte (.num n) = some (BitVec.ofNat 8 n) := if_pos h

theorem hostParamByte_of_gt {n : Nat} (h : 255 < n) : hostParamByte (.num n) = none := if_neg (by omega)

/-- PCHK of a class's own code is the check of the class. -/
theorem exec_pchk_paramKindCode (k : ParamKind) (value : Byte) (s : State) :
    exec (.pchk (BitVec.ofNat 8 (paramKindCode k).toNat) value) s = .next (pchkClass k value s).state :=
  exec_pchk_of_class (by cases k <;> rfl) value s

/-- The checks of numbers are PCHKs, and when all pass, what goes on goes on with their bytes. -/
theorem checkParamsByCommands_numbered (k : State → Host.Outcome State Fault Refusal)
    (params : List (ParamKind × Nat)) (acc : List Byte) (s : State) :
    (∃ t, checkParams (numbered params) acc s = (none, t) ∧
      checkParamsByCommands k (classCoded (numbered params)) s = .next (report (.failure .parameterOutOfRange) t)) ∨
    ∃ t, checkParams (numbered params) acc s = (some (acc ++ numberBytes params), t) ∧
      checkParamsByCommands k (classCoded (numbered params)) s = k t := by
  induction params generalizing acc s with
  | nil => exact .inr ⟨s, by simp [numbered, checkParams, numberBytes], rfl⟩
  | cons kn params ih =>
    obtain ⟨kind, n⟩ := kn
    simp only [numbered, classCoded, List.map_cons, checkParams, checkParamsByCommands, exec_pchk_paramKindCode]
    by_cases hn : 255 < n
    · exact .inl ⟨s, by simp only [hostParamByte_of_gt hn], if_pos hn⟩
    · simp only [hostParamByte_of_le (Nat.le_of_not_lt hn), if_neg hn]
      obtain ⟨hcheck, -⟩ | ⟨hcheck, -⟩ := pchkClass_cases kind (BitVec.ofNat 8 n) s
      · have hrest := ih (acc ++ [BitVec.ofNat 8 n]) (succeed s).state
        have hok : statusOkBit (succeed s).state.status = true := (succeed_sound s).okBit
        rw [List.append_assoc] at hrest
        simp only [hcheck, hok, ↓reduceIte]
        exact hrest
      · have hok : statusOkBit (fail .parameterOutOfRange s).state.status = false := (fail_sound _ s).okBit
        simp only [hcheck, hok, Bool.false_eq_true, ↓reduceIte]
        exact .inl ⟨_, rfl, rfl⟩

/-- WVERIFY's end, reported. -/
theorem reportEnd_of_sound {e : Ended} (h : e.Sound) (name : String) :
    reportEnd name e =
      if statusOkBit e.state.status then report (.success [(name, e.state.res)]) e.state else reportCause e.state := by
  rw [h.okBit]
  match e, h with
  | ⟨none, t⟩, _ => rfl
  | ⟨some c, t⟩, h => exact (reportCause_of_sound h).symm

/-- A host write operation over numbers is their PCHKs and then WVERIFY of the pair its map selects. -/
theorem hostOutcome_writeOperation (code selecting : Nat) (params : List (ParamKind × Nat))
    (value : Catalog → List Byte → Byte) (name : String) (s : State) :
    hostOutcome (writeOperation code selecting (numbered params) value name s) =
      checkParamsByCommands
        (confirmByCommands code ((numberBytes params).take selecting) (value s.cfg.cat (numberBytes params)) name)
        (classCoded (numbered params)) s := by
  have hcfg := checkParams_cfg (numbered params) [] s
  rw [writeOperation, validated_numbered]
  obtain ⟨t, ht, hcommands⟩ | ⟨t, ht, hcommands⟩ := checkParamsByCommands_numbered
    (confirmByCommands code ((numberBytes params).take selecting) (value s.cfg.cat (numberBytes params)) name) params [] s
  · rw [hcommands, ht]
    rfl
  · rw [ht] at hcfg
    rw [hcommands, ht, ← hcfg]
    simp only [confirmByCommands, exec, execWverify, List.nil_append]
    match t.cfg.cat.writeOp.lookup (code, (numberBytes params).take selecting) with
    | none => rfl
    | some sel =>
      have hverify := wverify_sound sel.wd (value t.cfg.cat (numberBytes params)) sel.vd t
      match he : wverify sel.wd (value t.cfg.cat (numberBytes params)) sel.vd t with
      | .error f => simp [he, outcome, hostOutcome]
      | .ok e => simp [he, outcome, hostOutcome, reportEnd_of_sound (hverify e he)]

end Sys2Proof.Machine
end

namespace Sys2Proof.Proofs

open Sys2Proof.Machine

/-- Settles O37: the exchange of the descriptor, step by step; a missing descriptor faults. -/
theorem exchangesAreTheirCommands : Obligations.ExchangesAreTheirCommands := by
  intro s id val
  refine ⟨fun r hr => ?_, fun hnone => ?_, fun w hw => ?_, fun hnone => ?_⟩
  · simp only [exec, execXread, xread, descriptor_of_some .read hr, outcome_readExchange]
  · simp only [exec, execXread, xread, descriptor_of_none .read hnone, outcome]
  · simp only [exec, execXwrite, xwrite, descriptor_of_some .write hw, outcome_writeExchange]
  · simp only [exec, execXwrite, xwrite, descriptor_of_none .write hnone, outcome]

/-- Settles O38: the three descriptors are looked up in order, and then the loop runs on its budget. -/
theorem wverifyIsItsLoop : Obligations.WverifyIsItsLoop := by
  intro s wd val vd
  refine ⟨fun w v r hw hv hr => ?_, fun hw => ?_, fun hw hv => ?_, fun v hw hv hr => ?_⟩
  · simp only [exec, execWverify, wverify, descriptor_of_some .write hw, descriptor_of_some .verify hv,
      descriptor_of_some .read hr, outcome_verifyLoop]
  · simp only [exec, execWverify, wverify, descriptor_of_none .write hw, outcome]
  · obtain ⟨w, hw⟩ := Option.isSome_iff_exists.1 hw
    simp only [exec, execWverify, wverify, descriptor_of_some .write hw, descriptor_of_none .verify hv, outcome]
  · obtain ⟨w, hw⟩ := Option.isSome_iff_exists.1 hw
    simp only [exec, execWverify, wverify, descriptor_of_some .write hw, descriptor_of_some .verify hv,
      descriptor_of_none .read hr, outcome]

/-- Settles O39: the operation's map is looked up by its code, and then its steps run. -/
theorem hostReadOperationsAreTheirCommands : Obligations.HostReadOperationsAreTheirCommands := by
  intro i code s hi
  rw [exec_readOperation hi]
  refine ⟨fun op hop => ?_, fun hnone => ?_⟩
  · simp only [readOperation, hop, hostOutcome_runReadSteps]
  · simp only [readOperation, hnone, hostOutcome]

/-- Settles O40: each operation is a write operation over the numbers it is given. -/
theorem hostWriteOperationsAreTheirCommands : Obligations.HostWriteOperationsAreTheirCommands := by
  intro i code key val name s hop
  obtain ⟨c, m, rfl, rfl, rfl, rfl, rfl⟩ | ⟨c, m, x, rfl, rfl, rfl, rfl, rfl⟩ | ⟨x, rfl, rfl, rfl, rfl, rfl⟩ |
    ⟨m, rfl, rfl, rfl, rfl, rfl⟩ | ⟨m, rfl, rfl, rfl, rfl, rfl⟩ := hop
  · exact hostOutcome_writeOperation 10 2 [(.circuit, c), (.mode3, m)] lastValue "confirmed mode" s
  · exact hostOutcome_writeOperation 11 2 [(.circuit, c), (.mode3, m), (.tempHc, x)] lastValue
      "confirmed temperature" s
  · exact hostOutcome_writeOperation 12 0 [(.tempWw, x)] lastValue "confirmed temperature" s
  · exact hostOutcome_writeOperation 13 0 [(.mode3, m)] lastValue "confirmed mode" s
  · exact hostOutcome_writeOperation 14 0 [(.mode2, m)] chargeOf "confirmed flag" s

end Sys2Proof.Proofs

section
/-! SUPPORT. WVERIFY on a bus that fails every attempt (R226, R251): by induction on the failed attempts, the last of
which names the cause. -/

namespace Sys2Proof.Machine

open Sys2Proof.Spec

/-- The cause an attempt fails with. -/
def attemptCause : FailedAttempt → Cause
  | .notAcknowledged _ => .writeNotAcknowledged
  | .mismatched _ _ => .verifyMismatch

section

variable {s : State} {wd val vd : Byte} {w : WriteDesc} {v : VerifyDesc} {r : ReadDesc} {a : FailedAttempt}
  {failed : List FailedAttempt} {rest : List LinkEvent} {ts ts' : List Nat}

/-- A failed attempt, at the start of a prompt script, ends the loop with its cause or leads to the next attempt while
the budget lasts. -/
theorem verifyLoop_attempt (hentries : VerifyEntries s.cfg wd vd w v r) (hf : a.Fails s.cfg val v r)
    (ha : s.env.arrivals = a.events ++ rest) (ht : s.env.times = ts ++ ts') {n : Nat}
    (hp : Prompt s (a.exchanges + n) ts) (budget : Nat) :
    ∃ t, Continues s t a.exchanges a.longest (a.sends s.cfg w val r) rest (ts.drop (13 * a.exchanges) ++ ts') ∧
      Prompt t n (ts.drop (13 * a.exchanges)) ∧ t.rc = budget ∧
      verifyLoop wd val v (budget + 1) s =
        if budget = 0 then .ok (fail (attemptCause a) t) else verifyLoop wd val v budget t := by
  obtain ⟨hw, -, hr, hwd, hrd⟩ := hentries
  obtain ⟨hpAttempt, hpRest⟩ := prompt_split hp
  rw [← List.take_append_drop (13 * a.exchanges) ts, List.append_assoc] at ht
  obtain ⟨t, c, hcontinues, hrc, hloop, hcause⟩ :=
    verifyLoop_failedAttempt wd val v w r a budget rest _ _ s hw hwd hr hrd hf ha ht hpAttempt
  obtain rfl : c = attemptCause a := by
    obtain ⟨⟨_, rfl⟩, rfl⟩ | ⟨⟨_, _, rfl⟩, rfl⟩ := hcause <;> rfl
  exact ⟨t, hcontinues, prompt_congr hpRest hcontinues.cfg hcontinues.ansTo, hrc, hloop⟩

/-- A budget that failed attempts use up: `a`, and then the others (R226, R251). -/
theorem verifyLoop_exhausted (hentries : VerifyEntries s.cfg wd vd w v r)
    (hf : ∀ b ∈ a :: failed, b.Fails s.cfg val v r)
    (ha : s.env.arrivals = (a :: failed).flatMap FailedAttempt.events ++ rest) (ht : s.env.times = ts ++ ts')
    (hp : Prompt s ((a :: failed).map FailedAttempt.exchanges).sum ts) :
    ∃ t last longest, Continues s t ((a :: failed).map FailedAttempt.exchanges).sum longest
        ((a :: failed).flatMap (FailedAttempt.sends s.cfg w val r)) rest ts' ∧ t.rc = 0 ∧
      (a :: failed).getLast? = some last ∧
      verifyLoop wd val v (a :: failed).length s = .ok (fail (attemptCause last) t) := by
  induction failed generalizing s a ts with
  | nil =>
    have hevents : s.env.arrivals = a.events ++ rest := by simpa using ha
    obtain ⟨t, hcontinues, ⟨hdrawn, -⟩, hrc, hloop⟩ :=
      verifyLoop_attempt hentries (hf a List.mem_cons_self) hevents ht (n := 0) (by simpa using hp) 0
    rw [List.eq_nil_of_length_eq_zero hdrawn] at hcontinues
    exact ⟨t, a, _, by simpa using hcontinues, hrc, rfl, hloop⟩
  | cons b failed ih =>
    obtain ⟨hfirst, hothers⟩ := List.forall_mem_cons.1 hf
    rw [List.flatMap_cons, List.append_assoc] at ha
    rw [List.map_cons, List.sum_cons] at hp
    obtain ⟨t, hcontinues, hprompt, -, hloop⟩ := verifyLoop_attempt hentries hfirst ha ht hp (b :: failed).length
    obtain ⟨u, last, _, hrest, hrc, hlast, hend⟩ := ih (hcontinues.cfg ▸ hentries) (hcontinues.cfg ▸ hothers)
      hcontinues.arrivals hcontinues.times hprompt
    rw [hcontinues.cfg] at hrest
    exact ⟨u, last, _, hcontinues.trans hrest, hrc, hlast, hloop.trans hend⟩

/-- Every mismatched attempt has two exchanges. -/
theorem exchanges_of_mismatched (h : ∀ a ∈ failed, ∃ x y, a = .mismatched x y) :
    (failed.map FailedAttempt.exchanges).sum = 2 * failed.length := by
  rw [List.map_congr_left (g := fun _ => 2) fun a ha => by obtain ⟨x, y, rfl⟩ := h a ha; rfl]
  simp [Nat.mul_comm]

end

end Sys2Proof.Machine
end

section
/-! SUPPORT. The causes the commands of an exchange can fail with (R222, R224), and how many frames they send: XMIT is
the one that counts in XCNT (R32). -/

namespace Sys2Proof.Machine

/-- When `r` ends in a failure, its cause is one of `cs`. -/
def FailsBy (cs : List Cause) (r : Except Fault Ended) : Prop := ∀ e c, r = .ok e → e.cause = some c → c ∈ cs

theorem FailsBy.thenRun {cs ds : List Cause} {r : Except Fault Ended} {k : State → Except Fault Ended}
    (hr : FailsBy cs r) (hk : ∀ t, FailsBy ds (k t)) : FailsBy (cs ++ ds) (thenRun r k) := by
  intro e c he hc
  obtain ⟨t, -, ht⟩ | ⟨_, -, hfailed⟩ := thenRun_cases he
  · exact List.mem_append_right cs (hk t e c ht hc)
  · exact List.mem_append_left ds (hr e c hfailed hc)

theorem failsBy_of_success {r : Except Fault Ended} (h : ∀ e, r = .ok e → e.cause = none) : FailsBy [] r := by
  intro e c he hc
  cases (h e he).symm.trans hc

theorem encrd_failsBy (dest type len : Byte) (s : State) : FailsBy [.illegalCommand] (.ok (encrd dest type len s)) := by
  unfold encrd
  split <;> intro e c he hc <;> cases he <;> cases hc
  exact List.mem_cons_self

theorem encwr_failsBy (dest type woff val : Byte) (s : State) :
    FailsBy [.illegalCommand] (.ok (encwr dest type woff val s)) := by
  unfold encwr
  split <;> intro e c he hc <;> cases he <;> cases hc
  exact List.mem_cons_self

theorem awaitTurn_failsBy (s : State) : FailsBy [.pollTimeout] (.ok (awaitTurn s)) := by
  intro e c he hc
  cases he
  obtain ⟨hcause, -⟩ | ⟨hcause, -⟩ := (awaitTurn_awaited s).ends <;> rw [hcause] at hc <;> cases hc
  exact List.mem_cons_self

theorem xmit_failsBy (s : State) : FailsBy [.illegalCommand] (xmit s) := by
  intro e c he hc
  unfold xmit at he
  split at he
  · split at he <;> cases he
    cases hc
  · cases he; cases hc; exact List.mem_cons_self

theorem recv_failsBy (s : State) : FailsBy [.illegalCommand, .replyTimeout] (.ok (recv s)) := by
  intro e c he hc
  cases he
  by_cases h : s.bt = .awaitingReply
  · obtain ⟨hcause, -⟩ | ⟨hcause, -⟩ := (recv_received s h).ends <;> rw [hcause] at hc <;> cases hc
    simp
  · rw [recv_interlock s h] at hc
    cases hc
    simp

theorem fvalid_failsBy (s : State) : FailsBy [.checksumInvalid] (fvalid s) := by
  intro e c he hc
  unfold fvalid at he
  split at he
  · cases he; cases hc; exact List.mem_cons_self
  · split at he <;> cases he <;> cases hc
    exact List.mem_cons_self

theorem tchk_failsBy (type : Byte) (s : State) : FailsBy [.messageTypeMismatch] (tchk type s) := by
  intro e c he hc
  unfold tchk at he
  split at he
  · cases he
  · split at he <;> cases he <;> cases hc
    exact List.mem_cons_self

theorem dack_failsBy (s : State) : FailsBy [.replyTimeout, .writeNotAcknowledged] (dack s) := by
  intro e c he hc
  unfold dack at he
  split at he
  · cases he; cases hc; simp
  · split at he
    · cases he
    · split at he <;> cases he <;> cases hc
      simp

theorem dfield_failsBy (fs : FieldSpec) (s : State) : FailsBy [] (dfield fs s) :=
  failsBy_of_success fun _ he => by obtain ⟨_, rfl⟩ := dfield_ok he; rfl

/-- XREAD never fails with a cause that WVERIFY retries (R222, R226). -/
theorem xread_failsBy (rd : Byte) (s : State) : FailsBy [.illegalCommand, .pollTimeout, .illegalCommand,
    .illegalCommand, .replyTimeout, .checksumInvalid, .messageTypeMismatch] (xread rd s) := by
  unfold xread
  split
  · exact fun _ _ he => by cases he
  · exact .thenRun (encrd_failsBy _ _ _ _) fun _ => .thenRun (awaitTurn_failsBy _) fun _ =>
      .thenRun (xmit_failsBy _) fun _ => .thenRun (recv_failsBy _) fun _ => .thenRun (fvalid_failsBy _) fun _ =>
      .thenRun (tchk_failsBy _ _) fun _ => failsBy_of_success fun _ he => by cases he; rfl

/-- XWRITE fails with one cause that WVERIFY retries, WriteNotAcknowledged (R224, R226). -/
theorem xwrite_failsBy (wd val : Byte) (s : State) : FailsBy [.illegalCommand, .pollTimeout, .illegalCommand,
    .illegalCommand, .replyTimeout, .replyTimeout, .writeNotAcknowledged] (xwrite wd val s) := by
  unfold xwrite
  split
  · exact fun _ _ he => by cases he
  · exact .thenRun (encwr_failsBy _ _ _ _ _) fun _ => .thenRun (awaitTurn_failsBy _) fun _ =>
      .thenRun (xmit_failsBy _) fun _ => .thenRun (recv_failsBy _) fun _ => .thenRun (dack_failsBy _) fun _ =>
      failsBy_of_success fun _ he => by cases he; rfl

theorem confirm_failsBy (v : VerifyDesc) (s : State) : FailsBy [.illegalCommand, .pollTimeout, .illegalCommand,
    .illegalCommand, .replyTimeout, .checksumInvalid, .messageTypeMismatch] (confirm v s) :=
  .thenRun (xread_failsBy v.rd s) fun t => dfield_failsBy v.fs t

/-! ## Frames sent (R32) -/

/-- From `s` to `t` at most `n` frames were sent, and the host's side is as it was. -/
structure SendsUpTo (n : Nat) (s t : State) : Prop where
  count : ∃ k ≤ n, t.xcnt = s.xcnt + BitVec.ofNat 32 k
  host : t.host = s.host

theorem SendsUpTo.trans {m n : Nat} {s t u : State} (h1 : SendsUpTo m s t) (h2 : SendsUpTo n t u) :
    SendsUpTo (m + n) s u := by
  obtain ⟨⟨j, hj, ht⟩, hhost⟩ := h1
  obtain ⟨⟨k, hk, hu⟩, hhost'⟩ := h2
  exact ⟨⟨j + k, Nat.add_le_add hj hk, by rw [hu, ht, BitVec.ofNat_add, BitVec.add_assoc]⟩, hhost'.trans hhost⟩

theorem SendsUpTo.mono {m n : Nat} {s t : State} (h : SendsUpTo m s t) (hmn : m ≤ n) : SendsUpTo n s t := by
  obtain ⟨⟨k, hk, ht⟩, hhost⟩ := h
  exact ⟨⟨k, hk.trans hmn, ht⟩, hhost⟩

theorem SendsUpTo.none {s t : State} (hcount : t.xcnt = s.xcnt) (hhost : t.host = s.host) : SendsUpTo 0 s t :=
  ⟨⟨0, Nat.le_refl 0, by rw [hcount]; exact (BitVec.add_zero _).symm⟩, hhost⟩

theorem OutcomeOnly.sendsNone {s t : State} {m : Memory} {b : BtState} (h : OutcomeOnly { s with tx := m, bt := b } t) :
    SendsUpTo 0 s t := by
  rw [h.eq]; exact .none rfl rfl

theorem CaptureOnly.sendsNone {s t : State} (h : CaptureOnly s t) : SendsUpTo 0 s t := by
  rw [h.eq]; exact .none rfl rfl

/-- XMIT sends one frame, when it has the turn. -/
theorem xmit_sendsUpTo {s : State} {e : Ended} (h : xmit s = .ok e) : SendsUpTo 1 s e.state := by
  unfold xmit at h
  split at h
  · split at h <;> cases h
    exact ⟨⟨1, Nat.le_refl 1, rfl⟩, rfl⟩
  · cases h
    exact .mono (.none rfl rfl) (Nat.zero_le 1)

theorem EndsIn.sendsThenRun {m n : Nat} {s : State} {r : Except Fault Ended} {k : State → Except Fault Ended}
    (hr : EndsIn (SendsUpTo m) s r) (hk : ∀ t, EndsIn (SendsUpTo n) t (k t)) :
    EndsIn (SendsUpTo (m + n)) s (thenRun r k) := by
  intro e he
  obtain ⟨t, ht, hkt⟩ | ⟨_, -, hfailed⟩ := thenRun_cases he
  · exact (hr _ ht).trans (hk t e hkt)
  · exact (hr e hfailed).mono (Nat.le_add_right m n)

/-- AWAIT, XMIT and RECV send one frame at most, and what comes after them, where it sends none, adds none. -/
theorem exchange_sendsUpTo {k : State → Except Fault Ended} (hk : ∀ t, EndsIn (SendsUpTo 0) t (k t)) (s : State) :
    EndsIn (SendsUpTo 1) s
      (thenRun (.ok (awaitTurn s)) fun s => thenRun (xmit s) fun s => thenRun (.ok (recv s)) k) :=
  .sendsThenRun (.ok (awaitTurn_writes s).sendsNone) fun _ => .sendsThenRun (fun _ => xmit_sendsUpTo) fun t =>
    .sendsThenRun (.ok (recv_writes t).sendsNone) hk

/-- A read exchange sends one frame at most (R222). -/
theorem xread_sendsUpTo (rd : Byte) (s : State) : EndsIn (SendsUpTo 1) s (xread rd s) := by
  unfold xread
  split
  · exact .error s _
  · exact .sendsThenRun (.ok (encrd_writes _ _ _ s).sendsNone) (exchange_sendsUpTo fun _ =>
      .sendsThenRun (fun _ he => (fvalid_writes he).sendsNone) fun _ =>
      .sendsThenRun (fun _ he => OutcomeOnly.sendsNone (tchk_writes he)) fun _ => .ok (.none rfl rfl))

/-- A write exchange sends one frame at most (R224). -/
theorem xwrite_sendsUpTo (wd val : Byte) (s : State) : EndsIn (SendsUpTo 1) s (xwrite wd val s) := by
  unfold xwrite
  split
  · exact .error s _
  · exact .sendsThenRun (.ok (encwr_writes _ _ _ _ s).sendsNone) (exchange_sendsUpTo fun _ =>
      .sendsThenRun (fun _ he => (dack_writes he).sendsNone) fun _ => .ok (.none rfl rfl))

theorem confirm_sendsUpTo (v : VerifyDesc) (s : State) : EndsIn (SendsUpTo 1) s (confirm v s) :=
  .sendsThenRun (xread_sendsUpTo v.rd s) fun _ _ he => OutcomeOnly.sendsNone (dfield_writes he)

end Sys2Proof.Machine
end

section
/-! SUPPORT. What an attempt of WVERIFY can do (R226, R228), said once, and that the command stays within its budget. -/

namespace Sys2Proof.Machine

/-- How the loop of WVERIFY, with `budget` attempts left after this one, comes to the end `e`. -/
inductive Attempted (wd val : Byte) (v : VerifyDesc) (budget : Nat) (s : State) (e : Ended) : Prop where
  | writeEnds (c : Cause) (hwrite : xwrite wd val { s with rc := budget } = .ok e) (hc : e.cause = some c)
      (hlast : c = .writeNotAcknowledged → budget = 0)
  | writeRetried (t : State) (c : Cause) (hwrite : xwrite wd val { s with rc := budget } = .ok ⟨some c, t⟩)
      (hbudget : 0 < budget) (he : verifyLoop wd val v budget t = .ok e)
  | readEnds (t : State) (c : Cause) (hwrite : xwrite wd val { s with rc := budget } = .ok ⟨none, t⟩)
      (hread : confirm v t = .ok e) (hc : e.cause = some c)
  | confirmed (t u : State) (hwrite : xwrite wd val { s with rc := budget } = .ok ⟨none, t⟩)
      (hread : confirm v t = .ok ⟨none, u⟩) (he : e = succeed { u with resv := true })
  | mismatched (t u : State) (hwrite : xwrite wd val { s with rc := budget } = .ok ⟨none, t⟩)
      (hread : confirm v t = .ok ⟨none, u⟩) (hlast : budget = 0) (he : e = fail .verifyMismatch u)
  | readRetried (t u : State) (hwrite : xwrite wd val { s with rc := budget } = .ok ⟨none, t⟩)
      (hread : confirm v t = .ok ⟨none, u⟩) (hbudget : 0 < budget) (he : verifyLoop wd val v budget u = .ok e)

section

variable {wd val vd : Byte} {v : VerifyDesc} {budget : Nat} {s : State} {e : Ended}

theorem attempted_of_verifyLoop (h : verifyLoop wd val v (budget + 1) s = .ok e) :
    Attempted wd val v budget s e := by
  simp only [verifyLoop] at h
  split at h
  · cases h
  · rename_i c t hwrite
    split at h
    · rename_i hretry
      exact .writeRetried t c hwrite hretry.2 h
    · rename_i hend
      cases h
      exact .writeEnds c hwrite rfl fun hc => Nat.eq_zero_of_not_pos fun hb => hend ⟨hc, hb⟩
  · rename_i t hwrite
    split at h
    · cases h
    · rename_i c u hread
      cases h
      exact .readEnds t c hwrite hread rfl
    · rename_i u hread
      split at h
      · cases h
        exact .confirmed t u hwrite hread rfl
      · split at h
        · rename_i hb
          cases h
          exact .mismatched t u hwrite hread hb rfl
        · rename_i hb
          exact .readRetried t u hwrite hread (Nat.pos_of_ne_zero hb) h

/-- WVERIFY that ends has run its loop on its budget. -/
theorem verifyLoop_of_wverify (h : wverify wd val vd s = .ok e) :
    ∃ v, verifyLoop wd val v s.cfg.retryMax s = .ok e := by
  unfold wverify at h
  split at h
  · cases h
  · split at h
    · cases h
    · split at h
      · cases h
      · exact ⟨_, h⟩

/-- The end `e` of a loop from `s` with `budget` attempts: it has used at least one and at most all, has sent two frames
at most in each, leaves the host's side alone, and fails with a cause that is retried only when none is left. -/
structure WithinBudget (budget : Nat) (s : State) (e : Ended) : Prop where
  used : e.state.rc < budget
  frames : SendsUpTo (2 * (budget - e.state.rc)) s e.state
  spent : e.cause = some .writeNotAcknowledged ∨ e.cause = some .verifyMismatch → e.state.rc = 0

/-- An attempt that ends the loop. -/
theorem WithinBudget.of_end (hrc : e.state.rc = budget) (hframes : SendsUpTo 2 s e.state)
    (hlast : e.cause = some .writeNotAcknowledged ∨ e.cause = some .verifyMismatch → budget = 0) :
    WithinBudget (budget + 1) s e where
  used := by omega
  frames := hframes.mono (by omega)
  spent h := hrc.trans (hlast h)

/-- An attempt that leads to the rest of the loop. -/
theorem WithinBudget.of_rest {t : State} (h : WithinBudget budget t e) (hframes : SendsUpTo 2 s t) :
    WithinBudget (budget + 1) s e where
  used := Nat.lt_succ_of_lt h.used
  frames := (hframes.trans h.frames).mono (by have := h.used; omega)
  spent := h.spent

theorem verifyLoop_withinBudget (h : verifyLoop wd val v (budget + 1) s = .ok e) : WithinBudget (budget + 1) s e := by
  induction budget using Nat.strong_induction_on generalizing s with
  | _ budget ih =>
    -- the write, and the confirming read, leave the counter at `budget` and send one frame each at most
    have hwritten {e : Ended} (hwrite : xwrite wd val { s with rc := budget } = .ok e) :
        e.state.rc = budget ∧ SendsUpTo 1 s e.state := by
      obtain ⟨hcount, hhost⟩ := xwrite_sendsUpTo wd val _ e hwrite
      exact ⟨(xwrite_budget wd val _ e hwrite).1, hcount, hhost⟩
    have hconfirmed {t : State} {e : Ended} (hwrite : xwrite wd val { s with rc := budget } = .ok ⟨none, t⟩)
        (hread : confirm v t = .ok e) : e.state.rc = budget ∧ SendsUpTo 2 s e.state :=
      ⟨(confirm_budget v t e hread).1.trans (hwritten hwrite).1, (hwritten hwrite).2.trans (confirm_sendsUpTo v t e hread)⟩
    have hrest {t : State} (hbudget : 0 < budget) (hframes : SendsUpTo 2 s t)
        (he : verifyLoop wd val v budget t = .ok e) : WithinBudget (budget + 1) s e := by
      obtain ⟨b, rfl⟩ := Nat.exists_eq_add_one_of_ne_zero hbudget.ne'
      exact (ih b (Nat.lt_succ_self b) he).of_rest hframes
    cases attempted_of_verifyLoop h with
    | writeEnds c hwrite hc hlast =>
      obtain ⟨hrc, hframes⟩ := hwritten hwrite
      refine .of_end hrc (hframes.mono one_le_two) fun hcause => ?_
      obtain hcause | hcause := hcause
      · exact hlast (Option.some.inj (hc.symm.trans hcause))
      · exact absurd (xwrite_failsBy wd val _ e _ hwrite hcause) (by decide)
    | writeRetried t c hwrite hbudget he => exact hrest hbudget ((hwritten hwrite).2.mono one_le_two) he
    | readEnds t _ hwrite hread _ =>
      obtain ⟨hrc, hframes⟩ := hconfirmed hwrite hread
      refine .of_end hrc hframes fun hcause => ?_
      obtain hcause | hcause := hcause <;> exact absurd (confirm_failsBy v t e _ hread hcause) (by decide)
    | confirmed t u hwrite hread he =>
      subst he
      obtain ⟨hrc, hframes⟩ := hconfirmed hwrite hread
      exact .of_end hrc ⟨hframes.count, hframes.host⟩ (by simp)
    | mismatched t u hwrite hread hlast he =>
      subst he
      obtain ⟨hrc, hframes⟩ := hconfirmed hwrite hread
      exact .of_end hrc ⟨hframes.count, hframes.host⟩ fun _ => hlast
    | readRetried t u hwrite hread hbudget he => exact hrest hbudget (hconfirmed hwrite hread).2 he

/-- WVERIFY stays within its budget (R226, R228). -/
theorem wverify_withinBudget (h : wverify wd val vd s = .ok e) : WithinBudget s.cfg.retryMax s e := by
  obtain ⟨v, hloop⟩ := verifyLoop_of_wverify h
  obtain ⟨budget, hbudget⟩ := Nat.exists_eq_add_one_of_ne_zero (Nat.ne_of_gt s.cfg.retryMax_pos)
  rw [hbudget] at hloop ⊢
  exact verifyLoop_withinBudget hloop

end

end Sys2Proof.Machine
end

namespace Sys2Proof.Proofs

open Sys2Proof.Machine

/-- Settles O41: the exchange of the answered poll, read off the state it leaves. -/
theorem xreadSucceedsWhenAnswered : Obligations.XreadSucceedsWhenAnswered := by
  intro s rd r x rest ts ts' hr hd hx ha ht hp
  obtain ⟨e, tTx, harrivals, htimes, hsent, hread⟩ := xread_answered rd r x rest ts ts' s hr hd hx ha ht hp
  refine ⟨answered x (readDest r.dest) r.type 0x00 r.len e tTx s, _, _, ?_, ⟨rfl, exchanged_frame x e tTx _⟩, rfl, rfl,
    buildFrame_readRequest r s, ?_, harrivals, htimes, exchanged_kept x _ _ _ _ e tTx s, rfl⟩
  · simp only [exec, execXread, hread, outcome]
  · rw [List.append_assoc]
    exact hsent

/-- Settles O42: the exchange of the acknowledged poll, read off the state it leaves. -/
theorem xwriteSucceedsWhenAcknowledged : Obligations.XwriteSucceedsWhenAcknowledged := by
  intro s wd val w x rest ts ts' hw hd hx ha ht hp
  obtain ⟨e, tTx, harrivals, htimes, hsent, hwrite⟩ := xwrite_acknowledged wd val w x rest ts ts' s hw hd hx ha ht hp
  refine ⟨answered x w.dest w.type w.woff val e tTx s, _, _, ?_, ⟨rfl, exchanged_frame x e tTx _⟩, rfl, rfl,
    buildFrame_writeRequest w val s, ?_, harrivals, htimes, exchanged_kept x _ _ _ _ e tTx s, rfl⟩
  · simp only [exec, execXwrite, hwrite, outcome]
  · rw [List.append_assoc]
    exact hsent

/-- Settles O44: by induction on the failed attempts; the last one's cause is the command's. -/
theorem wverifyExhaustsItsBudget : Obligations.WverifyExhaustsItsBudget := by
  intro s wd val vd w v r failed rest ts ts' hentries hf hbudget ha ht hp
  obtain ⟨a, failed, rfl⟩ : ∃ a l, failed = a :: l :=
    List.exists_cons_of_length_pos (hbudget ▸ s.cfg.retryMax_pos)
  obtain ⟨t, last, _, hcontinues, hrc, hlast, hloop⟩ := verifyLoop_exhausted hentries hf ha ht hp
  have hcause : statusCause (fail (attemptCause last) t).state.status = (attemptCause last).code :=
    (fail_sound _ t).causeCode
  refine ⟨(fail (attemptCause last) t).state, ?_, ?_, hcontinues.arrivals, hcontinues.times, hcontinues.sends,
    hcontinues.count, fun x hx => ?_, fun x y hx => ?_, fun hmismatched => ?_⟩
  · obtain ⟨hw, hv, hr, -⟩ := hentries
    rw [hbudget] at hloop
    simp only [exec, execWverify, wverify, descriptor, hw, hv, hr, hloop, outcome]
  · rw [hcontinues.frame, hrc]
    rfl
  · rw [hcause, Option.some.inj (hlast.symm.trans hx)]
    rfl
  · rw [hcause, Option.some.inj (hlast.symm.trans hx)]
    rfl
  · rw [← hbudget, ← exchanges_of_mismatched hmismatched]
    exact hcontinues.count

/-- Settles O45: by what an attempt can do; STATUS tells the two retried causes. -/
theorem wverifyKeepsItsBudget : Obligations.WverifyKeepsItsBudget := by
  intro s t wd val vd h
  obtain ⟨c, he⟩ := outcome_next h
  obtain ⟨hused, hframes, hspent⟩ := wverify_withinBudget he
  refine ⟨hused, hframes.count, fun hcode => hspent ?_⟩
  have hcause : statusCause t.status = (c.map Cause.code).getD 0 := (wverify_sound wd val vd s _ he).causeCode
  rw [hcause] at hcode
  match c, hcode with
  | some .writeNotAcknowledged, _ => exact .inl rfl
  | some .verifyMismatch, _ => exact .inr rfl

end Sys2Proof.Proofs

section
/-! SUPPORT. A host read operation whose steps are all answered (R234): an answered step leaves its request in TX and
assigns its values, and the steps follow one another. -/

namespace Sys2Proof.Machine

open Sys2Proof.Spec

/-- `result[name] <- v` for these pairs, in order (R234). -/
def assignAll (acc pairs : List (String × Int)) : List (String × Int) := pairs.foldl (fun a p => assign a p.1 p.2) acc

theorem assignAll_append (acc pairs pairs' : List (String × Int)) :
    assignAll acc (pairs ++ pairs') = assignAll (assignAll acc pairs) pairs' := List.foldl_append

/-- What assignments to no names leave is the last value under each name, once. -/
theorem assigned_assignAll (pairs : List (String × Int)) : Assigned pairs (assignAll [] pairs) :=
  ⟨assignAll_nodup pairs [] List.nodup_nil, fun name => by simp [assignAll, assignAll_lookup]⟩

theorem stepRequest_of_lookup {p : Params} {step : ReadStep} {r : ReadDesc} (h : p.cat.read.lookup step.rd = some r) :
    stepRequest p step = readRequest p r := by
  simp only [stepRequest, h]

/-- The decodes of a reply that holds every field assign the values of the fields, and end with STATUS a success when
they start with one. -/
theorem decodeNamed_values {fields : List (String × FieldSpec)} (acc : List (String × Int)) {s : State}
    {bs : List Byte} (hframe : Frame s bs) (hinside : ∀ nf ∈ fields, FieldInside nf.2 bs)
    (hstatus : s.status = statusOk) :
    ∃ t, OutcomeOnly s t ∧ t.status = statusOk ∧
      decodeNamed fields acc s = .ok (assignAll acc (fields.map fun nf => (nf.1, fieldValue nf.2 bs)), t) := by
  induction fields generalizing acc s with
  | nil => exact ⟨s, rfl, hstatus, rfl⟩
  | cons nf fields ih =>
    obtain ⟨hfirst, hothers⟩ := List.forall_mem_cons.1 hinside
    obtain ⟨t, hstate, hok, hrest⟩ := ih (assign acc nf.1 (fieldValue nf.2 bs))
      (s := (succeedWith (fieldValue nf.2 bs) s).state) hframe hothers rfl
    refine ⟨t, hstate, hok, ?_⟩
    simp only [decodeNamed, dfield_value nf.2 bs s hframe.1 hframe.2 hfirst, succeedWith_res]
    exact hrest

/-- What answered steps leave, `last` the last of them. -/
structure StepsAnswered (s t : State) (last : ReadStep) (steps longest : Nat) (sent : List SentItem)
    (rest : List LinkEvent) (ts : List Nat) : Prop where
  continues : Continues s t steps longest sent rest ts
  status : t.status = statusOk
  bt : t.bt = .validated
  rc : t.rc = s.rc
  request : Holds t.tx (stepRequest s.cfg last)

/-- Answered steps that follow answered steps. -/
theorem StepsAnswered.trans {s t u : State} {mid last : ReadStep} {m n l l' : Nat} {is is' : List SentItem}
    {as as' : List LinkEvent} {ts ts' : List Nat} (h1 : StepsAnswered s t mid m l is as ts)
    (h2 : StepsAnswered t u last n l' is' as' ts') :
    StepsAnswered s u last (m + n) (max l l') (is ++ is') as' ts' where
  continues := h1.continues.trans h2.continues
  status := h2.status
  bt := h2.bt
  rc := h2.rc.trans h1.rc
  request := h1.continues.cfg ▸ h2.request

/-- One answered step (R234). -/
theorem runReadSteps_step {step : ReadStep} (steps : List ReadStep) (acc : List (String × Int)) {x : Exchange}
    {s : State} {rest : List LinkEvent} {ts ts' : List Nat} {n : Nat} (h : StepAnswered s.cfg step x)
    (ha : s.env.arrivals = x.events ++ rest) (ht : s.env.times = ts ++ ts') (hp : Prompt s (1 + n) ts) :
    ∃ t, StepsAnswered s t step 1 x.reply.length (transmitted (stepRequest s.cfg step)) rest (ts.drop 13 ++ ts') ∧
      Prompt t n (ts.drop 13) ∧
      runReadSteps (step :: steps) acc s = runReadSteps steps (assignAll acc (stepValues step x)) t := by
  obtain ⟨r, hr, hd, hx, hinside⟩ := h
  obtain ⟨hpStep, hpRest⟩ := prompt_split hp
  rw [← List.take_append_drop 13 ts, List.append_assoc] at ht
  obtain ⟨e, tTx, harrivals, htimes, hsent, hread⟩ := xread_answered step.rd r x rest _ _ s hr hd hx ha ht hpStep
  obtain ⟨t, hstate, hstatus, hdecode⟩ := decodeNamed_values acc
    (s := answered x (readDest r.dest) r.type 0x00 r.len e tTx s) ⟨rfl, exchanged_frame x e tTx _⟩ hinside rfl
  have hcontinues : Continues s t 1 x.reply.length (transmitted (stepRequest s.cfg step)) rest (ts.drop 13 ++ ts') := by
    rw [stepRequest_of_lookup hr, hstate.eq]
    exact ⟨rfl, rfl, harrivals, htimes, hsent, exchanged_kept x _ _ _ _ e tTx s⟩
  refine ⟨t, ⟨hcontinues, hstatus, ?_, ?_, ?_⟩, prompt_congr hpRest hcontinues.cfg hcontinues.ansTo, ?_⟩
  · rw [hstate.eq]; rfl
  · rw [hstate.eq]; rfl
  · rw [stepRequest_of_lookup hr, hstate.eq]
    exact buildFrame_readRequest r s
  · simp only [runReadSteps, hread, hdecode, stepValues]

/-- The longest reply of these exchanges. -/
def longestOf (xs : List Exchange) : Nat := xs.foldr (fun x l => max x.reply.length l) 0

theorem longestOf_le {xs : List Exchange} {m : Nat} (h : ∀ x ∈ xs, x.reply.length ≤ m) : longestOf xs ≤ m := by
  induction xs with
  | nil => exact Nat.zero_le m
  | cons x xs ih =>
    obtain ⟨hx, hxs⟩ := List.forall_mem_cons.1 h
    exact Nat.max_le.2 ⟨hx, ih hxs⟩

/-- Answered steps, one after the other: `step`, and then the others (R234). -/
theorem runReadSteps_answered {step : ReadStep} {steps : List ReadStep} {x : Exchange} {xs : List Exchange}
    (acc : List (String × Int)) {s : State} {rest : List LinkEvent} {ts ts' : List Nat}
    (h : List.Forall₂ (StepAnswered s.cfg) (step :: steps) (x :: xs))
    (ha : s.env.arrivals = (x :: xs).flatMap Exchange.events ++ rest) (ht : s.env.times = ts ++ ts')
    (hp : Prompt s (x :: xs).length ts) :
    ∃ t last, (step :: steps).getLast? = some last ∧
      StepsAnswered s t last (x :: xs).length (longestOf (x :: xs))
        ((step :: steps).flatMap fun step => transmitted (stepRequest s.cfg step)) rest ts' ∧
      runReadSteps (step :: steps) acc s = .ok (report
        (.success (assignAll acc (List.zipWith stepValues (step :: steps) (x :: xs)).flatten)) t) := by
  induction steps generalizing step x xs acc s ts with
  | nil =>
    obtain ⟨hstep, hnone⟩ := List.forall₂_cons.1 h
    obtain rfl := List.forall₂_nil_left_iff.1 hnone
    obtain ⟨t, hanswered, ⟨hdrawn, -⟩, hrun⟩ := runReadSteps_step [] acc hstep (n := 0) (by simpa using ha) ht hp
    rw [List.eq_nil_of_length_eq_zero hdrawn] at hanswered
    exact ⟨t, step, rfl, by simpa [longestOf] using hanswered, by rw [hrun]; simp [runReadSteps]⟩
  | cons step' steps ih =>
    obtain ⟨hstep, hsteps⟩ := List.forall₂_cons.1 h
    obtain ⟨x', xs, -, -, rfl⟩ := List.forall₂_cons_left_iff.1 hsteps
    rw [List.flatMap_cons, List.append_assoc] at ha
    rw [List.length_cons, Nat.add_comm] at hp
    obtain ⟨t, hfirst, hprompt, hrun⟩ := runReadSteps_step (step' :: steps) acc hstep ha ht hp
    have hcfg := hfirst.continues.cfg
    obtain ⟨u, last, hlast, hothers, hend⟩ := ih (assignAll acc (stepValues step x)) (hcfg ▸ hsteps)
      hfirst.continues.arrivals hfirst.continues.times hprompt
    refine ⟨u, last, hlast, ?_, ?_⟩
    · have hall := hfirst.trans hothers
      rw [hcfg, Nat.add_comm] at hall
      exact hall
    · rw [hrun, hend, ← assignAll_append]
      rfl

end Sys2Proof.Machine
end

namespace Sys2Proof.Proofs

open Sys2Proof.Machine

/-- Settles O47: by induction on the answered steps, whose assignments start from no names. -/
theorem hostReadOperationsReportTheirFields : Obligations.HostReadOperationsReportTheirFields := by
  intro i code s op xs rest ts ts' hi hop hanswered ha ht hp
  obtain ⟨x, xs, -, -, rfl⟩ := List.forall₂_cons_left_iff.1 hanswered
  obtain ⟨t, last, hlast, hsteps, hrun⟩ := runReadSteps_answered [] hanswered ha ht hp
  obtain ⟨hcontinues, hstatus, hbt, hrc, hrequest⟩ := hsteps
  have hhost : t.host = s.host := by rw [hcontinues.frame]
  refine ⟨report (.success (assignAll [] (List.zipWith Spec.stepValues (op.first :: op.rest) (x :: xs)).flatten)) t, _,
    ?_, ?_, assigned_assignAll _, hcontinues.sends, fun step hstep => ?_, ?_, hstatus, hbt,
    hcontinues.count, hcontinues.arrivals, fun m h2 hm => ?_, ?_⟩
  · rw [exec_readOperation hi, readOperation, hop]
    simp only [hrun, hostOutcome]
  · rw [report_host, hhost]
  · cases Option.some.inj (hlast.symm.trans hstep)
    exact hrequest
  · rw [report_host, hhost]
  · exact keptFrom_mono hcontinues.kept (Nat.le_refl 7) (Nat.max_le.2 ⟨h2, longestOf_le hm⟩)
  · rw [hcontinues.frame, hrc]
    rfl

end Sys2Proof.Proofs

section
/-! SUPPORT. What an instruction does to the host's side (R249): a block command leaves it alone, and a host operation
that ends adds one report, which agrees with STATUS or names a parameter the host turned away. -/

namespace Sys2Proof.Machine

open Sys2Proof.Spec

/-! ## Block commands -/

theorem exec_command_host {i : Instr} {s t : State} (hi : isCommand i = true) (h : exec i s = .next t) :
    t.host = s.host := by
  by_cases hx : runsExchanges i = true
  · cases i with
    | xread rd => obtain ⟨_, he⟩ := outcome_next h; exact (xread_sendsUpTo rd s _ he).host
    | xwrite wd val => obtain ⟨_, he⟩ := outcome_next h; exact (xwrite_sendsUpTo wd val s _ he).host
    | wverify wd val vd => obtain ⟨_, he⟩ := outcome_next h; exact (wverify_withinBudget he).frames.host
    | op1 | op2 | op3 | op4 | op9 | op10 | op11 | op12 | op13 | op14 => cases hi
    | crcgen | crcchk | fvalid | encrd | encwr | pchk | dtype | tchk | du8 | du16 | dhalf | dflag | du24 | dack | await
    | xmit | recv | setto | op20 | op21 | op22 | op23 | op24 | op25 => cases hx
  · have h20 : i ≠ .op20 := by rintro rfl; cases hi
    cases exec_wrote h (Bool.eq_false_iff.2 hx) h20 with
    | outcome _ hw | crcgen hw | encrd _ _ _ hw | encwr _ _ _ _ hw | fvalid hw | dack hw | await hw | recv hw | xmit hw
    | setto _ hw => rw [hw.eq]
    | op25 => cases hi

/-! ## Host operations -/

/-- One report is added, and it is the outcome that STATUS holds. -/
def Reported (s t : State) : Prop :=
  ∃ rep, t.host = { s.host with reports := s.host.reports ++ [rep] } ∧
    ((∃ fields, rep = .success fields ∧ t.status = statusOk) ∨ ∃ c, rep = .failure c ∧ t.status = statusFail c)

/-- One report is added: the host itself turned a parameter away. -/
def TurnedAway (s t : State) : Prop :=
  t.host = { s.host with reports := s.host.reports ++ [.failure .parameterOutOfRange] }

theorem reported_success {s t : State} (hhost : t.host = s.host) (hstatus : t.status = statusOk)
    (fields : List (String × Int)) : Reported s (report (.success fields) t) :=
  ⟨_, by rw [report_host, hhost], .inl ⟨fields, rfl, hstatus⟩⟩

theorem reported_failure {s t : State} {c : Cause} (hhost : t.host = s.host) (hstatus : t.status = statusFail c) :
    Reported s (report (.failure c) t) :=
  ⟨_, by rw [report_host, hhost], .inr ⟨c, rfl, hstatus⟩⟩

/-- A block command's end, reported. -/
theorem reported_reportEnd {s : State} {e : Ended} (h : e.Sound) (hhost : e.state.host = s.host) (name : String) :
    Reported s (reportEnd name e) := by
  match e, h with
  | ⟨none, t⟩, hstatus => exact reported_success hhost hstatus _
  | ⟨some c, t⟩, ⟨hstatus, _⟩ => exact reported_failure hhost hstatus

/-! ### Read operations (R234) -/

/-- The decodes leave the host's side alone, and STATUS a success where it is one. -/
theorem decodeNamed_host {fields : List (String × FieldSpec)} {acc : List (String × Int)} {s : State}
    {p : List (String × Int) × State} (h : decodeNamed fields acc s = .ok p) :
    p.2.host = s.host ∧ (s.status = statusOk → p.2.status = statusOk) := by
  induction fields generalizing acc s with
  | nil => cases h; exact ⟨rfl, id⟩
  | cons nf fields ih =>
    simp only [decodeNamed] at h
    split at h
    · cases h
    · rename_i he
      obtain ⟨v, rfl⟩ := dfield_ok he
      obtain ⟨hhost, hstatus⟩ := ih h
      exact ⟨hhost, fun _ => hstatus rfl⟩

/-- The steps report once: the first failure, or at the end a success, which is the last step's. -/
theorem runReadSteps_reported {steps : List ReadStep} {acc : List (String × Int)} {s₀ s t : State}
    (hhost : s.host = s₀.host) (hempty : steps = [] → s.status = statusOk) (h : runReadSteps steps acc s = .ok t) :
    Reported s₀ t := by
  induction steps generalizing acc s with
  | nil => cases h; exact reported_success hhost (hempty rfl) acc
  | cons step steps ih =>
    simp only [runReadSteps] at h
    split at h
    · cases h
    · rename_i c u hu
      cases h
      exact reported_failure ((xread_sendsUpTo _ _ _ hu).host.trans hhost) (xread_sound _ _ _ hu).1
    · rename_i u hu
      split at h
      · cases h
      · rename_i hd
        obtain ⟨hdecoded, hstatus⟩ := decodeNamed_host hd
        exact ih (hdecoded.trans ((xread_sendsUpTo _ _ _ hu).host.trans hhost))
          (fun _ => hstatus (xread_sound _ _ _ hu)) h

theorem readOperation_reported {code : Nat} {s t : State} (h : readOperation code s = .ok t) : Reported s t := by
  unfold readOperation at h
  split at h
  · cases h
  · exact runReadSteps_reported rfl (fun hnil => by cases hnil) h

/-! ### Write operations (R235) -/

theorem unpresentable_of_no_byte {p : HostParam} (h : hostParamByte p = none) : Unpresentable p := by
  cases p with
  | malformed => exact .inl rfl
  | num n =>
    refine .inr ⟨n, rfl, Nat.lt_of_not_le fun hn => ?_⟩
    rw [hostParamByte_of_le hn] at h
    cases h

/-- The checks leave the host's side alone; they end early with ParameterOutOfRange in STATUS or at a parameter that
cannot be presented. -/
theorem checkParams_host (params : List (ParamKind × HostParam)) (acc : List Byte) (s : State) :
    (checkParams params acc s).2.host = s.host ∧
      ((checkParams params acc s).1 = none → (checkParams params acc s).2.status = statusFail .parameterOutOfRange ∨
        ∃ p ∈ params.map Prod.snd, Unpresentable p) := by
  induction params generalizing acc s with
  | nil => exact ⟨rfl, fun h => by cases h⟩
  | cons kp params ih =>
    obtain ⟨k, p⟩ := kp
    cases hbyte : hostParamByte p with
    | none =>
      have hstop : checkParams ((k, p) :: params) acc s = (none, s) := by simp only [checkParams, hbyte]
      rw [hstop]
      exact ⟨rfl, fun _ => .inr ⟨p, List.mem_cons_self, unpresentable_of_no_byte hbyte⟩⟩
    | some v =>
      obtain ⟨hcheck, -⟩ | ⟨hcheck, -⟩ := pchkClass_cases k v s
      · obtain ⟨hhost, hnone⟩ := ih (acc ++ [v]) (succeed s).state
        simp only [checkParams, hbyte, hcheck]
        refine ⟨hhost, fun h => (hnone h).imp_right ?_⟩
        rintro ⟨q, hq, hbad⟩
        exact ⟨q, List.mem_cons_of_mem p hq, hbad⟩
      · simp only [checkParams, hbyte, hcheck]
        exact ⟨rfl, fun _ => .inl rfl⟩

theorem validated_host (params : List (ParamKind × HostParam)) (s : State) :
    (validated params s).2.host = s.host ∧
      ((validated params s).1 = none → (validated params s).2.status = statusFail .parameterOutOfRange ∨
        ∃ p ∈ params.map Prod.snd, Unpresentable p) := by
  unfold validated
  split
  · exact checkParams_host params [] s
  · rename_i hparsed
    obtain ⟨kp, hkp, hmalformed⟩ : ∃ kp ∈ params, ¬ hostParamParsed kp.2 = true := by simpa using hparsed
    refine ⟨rfl, fun _ => .inr ⟨kp.2, List.mem_map_of_mem hkp, ?_⟩⟩
    cases hp : kp.2 with
    | malformed => exact .inl rfl
    | num n => rw [hp] at hmalformed; exact absurd rfl hmalformed

theorem writeOperation_reported {code selecting : Nat} {params : List (ParamKind × HostParam)}
    {value : Catalog → List Byte → Byte} {name : String} {s t : State}
    (h : writeOperation code selecting params value name s = .ok t) :
    Reported s t ∨ TurnedAway s t ∧ ∃ p ∈ params.map Prod.snd, Unpresentable p := by
  obtain ⟨hhost, hnone⟩ := validated_host params s
  unfold writeOperation at h
  split at h <;> rename_i hv <;> rw [hv] at hhost hnone
  · cases h
    obtain hstatus | hbad := hnone rfl
    · exact .inl (reported_failure hhost hstatus)
    · exact .inr ⟨by rw [TurnedAway, report_host, hhost], hbad⟩
  · split at h
    · cases h
    · split at h
      · cases h
      · rename_i e he
        cases h
        exact .inl (reported_reportEnd (wverify_sound _ _ _ _ _ he)
          ((wverify_withinBudget he).frames.host.trans hhost) name)

theorem timeoutOperation_reported (value : HostParam) (s : State) :
    Reported s (timeoutOperation value s) ∨ TurnedAway s (timeoutOperation value s) ∧ Unpresentable value := by
  unfold timeoutOperation
  split
  · exact .inr ⟨rfl, unpresentable_of_no_byte ‹_›⟩
  · rename_i v _
    exact .inl (reported_reportEnd (setto_sound v s) (by rw [(setto_writes v s).eq]) _)

/-- A host operation that ends reports once (R249). -/
theorem exec_operation_reported {i : Instr} {s t : State} (hi : isCommand i = false) (h20 : i ≠ .op20)
    (h : exec i s = .next t) : Reported s t ∨ TurnedAway s t ∧ ∃ p ∈ hostParams i, Unpresentable p := by
  cases i with
  | op1 | op2 | op3 | op4 | op9 => exact .inl (readOperation_reported (hostOutcome_next h))
  | op10 | op11 | op12 | op13 | op14 => exact writeOperation_reported (hostOutcome_next h)
  | op20 => exact absurd rfl h20
  | op21 | op22 | op23 | op24 => cases h
  | op25 value =>
    cases h
    exact (timeoutOperation_reported value s).imp_right fun ⟨haway, hbad⟩ => ⟨haway, value, List.mem_cons_self, hbad⟩
  | crcgen | crcchk | fvalid | encrd | encwr | pchk | dtype | tchk | du8 | du16 | dhalf | dflag | du24 | dack | await
  | xmit | recv | setto | xread | xwrite | wverify => cases hi

/-- No instruction touches the rest of the host's queue. -/
theorem exec_pending {i : Instr} {s t : State} (h : exec i s = .next t) : t.host.pending = s.host.pending := by
  by_cases hi : isCommand i = true
  · rw [exec_command_host hi h]
  by_cases h20 : i = .op20
  · subst h20
    rw [execOp20_next h, resetBlock_host]
  · obtain ⟨_, hhost, -⟩ | ⟨hhost, -⟩ := exec_operation_reported (Bool.eq_false_iff.2 hi) h20 h <;> rw [hhost]

/-! ## The answer-timeout (R232, R248) -/

/-- The timeout class is the values from 1 on. -/
theorem paramLegal_timeout_iff (v : Byte) : paramLegal .timeout v = true ↔ 1 ≤ v.toNat := by
  have hv : v.toNat ≤ 255 := Nat.le_of_lt_succ v.isLt
  rw [paramLegal_iff]
  simp [legalParam, paramKindCode, hv]

theorem setto_legal {v : Byte} (s : State) (h : 1 ≤ v.toNat) :
    setto v s = succeedWith v.toNat { s with ansTo := v } :=
  if_pos ((paramLegal_timeout_iff v).2 h)

theorem setto_zero {v : Byte} (s : State) (h : v.toNat = 0) : setto v s = fail .parameterOutOfRange s :=
  if_neg (mt (paramLegal_timeout_iff v).1 (by omega))

end Sys2Proof.Machine
end

namespace Sys2Proof.Proofs

open Sys2Proof.Machine

/-- Settles O52: a block command leaves the host's side alone, a host operation adds its report. -/
theorem hostOperationsReportOnce : Obligations.HostOperationsReportOnce := by
  intro i s t h
  refine ⟨exec_pending h, fun hi => exec_command_host hi h, fun hi h20 => ?_⟩
  obtain ⟨rep, hhost, houtcome⟩ | ⟨hhost, hbad⟩ := exec_operation_reported hi h20 h
  · refine ⟨rep, by rw [hhost], houtcome.imp_right ?_⟩
    rintro ⟨c, hrep, hstatus⟩
    exact ⟨c, hrep, .inl hstatus⟩
  · exact ⟨_, by rw [hhost], .inr ⟨_, rfl, .inr ⟨rfl, hbad⟩⟩⟩

/-- Settles O36: SETTO's check is the timeout class, which is the values from 1 on. -/
theorem settoSetsTheTimeout : Obligations.SettoSetsTheTimeout := by
  intro s value
  refine ⟨fun h => ?_, fun h => ?_⟩
  · rw [exec, execSetto, setto_legal s h, succeedWith_state]
    rfl
  · rw [exec, execSetto, setto_zero s h, fail_state]
    rfl

/-- Settles O50: a number that a byte holds goes to SETTO; the host turns away any other. -/
theorem hostTimeoutOperation : Obligations.HostTimeoutOperation := by
  intro s n
  refine ⟨fun ⟨h1, h255⟩ => ?_, fun h => ?_, fun h => ?_, rfl⟩
  · have hn : (BitVec.ofNat 8 n).toNat = n := by rw [BitVec.toNat_ofNat, Nat.mod_eq_of_lt (by omega)]
    simp only [exec, execOp25, timeoutOperation, hostParamByte_of_le h255, setto_legal s (hn.symm ▸ h1), hn]
    rfl
  · subst h
    rfl
  · simp only [exec, execOp25, timeoutOperation, hostParamByte_of_gt h]

/-- Settles O51: the five operations outside the block, the first of which has its one exception. -/
theorem operationsOutsideTheBlockAreRefused : Obligations.OperationsOutsideTheBlockAreRefused := by
  intro s tz
  refine ⟨rfl, rfl, rfl, rfl, fun h => ?_, fun h => ?_⟩
  · simp only [exec, execOp20, h, Bool.false_eq_true, ↓reduceIte]
  · simp only [exec, execOp20, h, ↓reduceIte, resetBlock_eq]

end Sys2Proof.Proofs

section
/-! SUPPORT. The exchange in which the link gives a read request back as its own reply (R303), and the frame that
stands in RX right after reset (R290, R292). -/

namespace Sys2Proof.Machine

open Sys2Proof.Spec

/-! ## The echo of a read request (R303) -/

/-- A poll, and then the six bytes of the read request themselves, closed by any boundary unit. -/
def echoExchange (p : Params) (r : ReadDesc) (poll : Byte) (second : LinkUnit) (last : Byte) : Exchange :=
  ⟨poll, second, (readRequest p r).take 6 ++ [last]⟩

theorem echoExchange_length (p : Params) (r : ReadDesc) (poll : Byte) (second : LinkUnit) (last : Byte) :
    (echoExchange p r poll second last).reply.length = 7 := rfl

/-- A request carries its own checksum just before the boundary unit. -/
theorem echo_checksumMatches (p : Params) (r : ReadDesc) (last : Byte) :
    ChecksumMatches p ((readRequest p r).take 6 ++ [last]) := rfl

/-- The echo is a frame of the requested type with a matching checksum, so it passes for a reply, unless a capture
discards its first byte as a filler. -/
theorem echoExchange_answers {p : Params} {r : ReadDesc} {poll : Byte} {second : LinkUnit} {last : Byte}
    (hfiller : poll ≠ p.idleFiller) (haddr : (poll &&& 0x7F).toNat = p.ctrlAddr.toNat)
    (hsource : BitVec.ofNat 8 p.ctrlAddr.toNat ≠ p.idleFiller) : (echoExchange p r poll second last).Answers p r := by
  have hheard : (echoExchange p r poll second last).Heard p :=
    ⟨hfiller, haddr, List.cons_ne_nil _ _, p.rxMax_ge, fun h => hsource (Option.some.inj h)⟩
  exact ⟨hheard, by rw [echoExchange_length]; decide, echo_checksumMatches p r last, rfl⟩

/-! ## The state after reset (R290) -/

theorem resetWith_ready (cfg : Params) (env : Env) (pending : List Input) :
    Ready (State.resetWith cfg env pending) := ⟨rfl, rfl⟩

/-- Nothing has been captured. -/
theorem resetWith_frame (cfg : Params) (env : Env) (pending : List Input) :
    Frame (State.resetWith cfg env pending) [] := ⟨rfl, fun _ hi => absurd hi (Nat.not_lt_zero _)⟩

end Sys2Proof.Machine
end

namespace Sys2Proof.Proofs

open Sys2Proof.Machine

/-- Settles O46: the echo answers the request, so XREAD succeeds on it as on any reply. -/
theorem echoOfAReadRequestAnswersIt : Obligations.EchoOfAReadRequestAnswersIt := by
  intro s rd r poll src crc last second rest ts ts' hr hd hsrc hcrc hfiller haddr hsource ha ht hp
  subst hsrc hcrc
  obtain ⟨t, _, _, hexec, hframe, rfl, rfl, htx, hsent, harrivals, htimes, hkept, heq⟩ :=
    xreadSucceedsWhenAnswered s rd r (echoExchange s.cfg r poll second last) rest ts ts' hr hd
      (echoExchange_answers hfiller haddr hsource) (by rw [ha]; rfl) ht hp
  exact ⟨t, hexec, hframe, htx, hsent, harrivals, htimes, hkept, heq⟩

/-- Settles O9: the values are those the reset gives, and a ready block with an empty queue waits. -/
theorem resetState : Obligations.ResetState := by
  intro cfg env pending
  refine ⟨_, rfl, fun _ => ⟨rfl, rfl⟩, rfl, rfl, rfl, rfl, rfl, rfl, rfl, rfl, rfl, rfl, rfl, fun hpending => ?_⟩
  obtain ⟨hwaits, -⟩ := stepWaitsReadsOrResets _ (resetWith_ready cfg env pending)
  exact hwaits hpending

/-- Settles O10: what each command does with nothing written in TX, nothing captured, and no turn. -/
theorem commandsRightAfterReset : Obligations.CommandsRightAfterReset := by
  intro cfg env pending x y
  have hempty := resetWith_frame cfg env pending
  obtain ⟨-, hcrcgen⟩ := crcgenWritesTheChecksum (State.resetWith cfg env pending)
  obtain ⟨hcrcchk, -⟩ := crcchkVerdict _ [] hempty
  obtain ⟨-, hfvalid⟩ := fvalidVerdict _ [] hempty
  obtain ⟨-, htype⟩ := typeByteIsReadAndChecked (State.resetWith cfg env pending) x
  obtain ⟨-, hbyte, -⟩ := oneByteFieldsDecode (State.resetWith cfg env pending) x y
  obtain ⟨-, hword, -⟩ := sixteenBitFieldDecodes (State.resetWith cfg env pending) x y
  obtain ⟨-, hcounter⟩ := counterDecodes (State.resetWith cfg env pending) x
  obtain ⟨hdack, -⟩ := dackChecksTheFirstByte (State.resetWith cfg env pending)
  obtain ⟨hinterlocks, -⟩ := transportInterlocks
  obtain ⟨hxmit, hrecv⟩ := hinterlocks (State.resetWith cfg env pending)
  obtain ⟨hdtype, htchk⟩ := htype (Nat.succ_pos _)
  obtain ⟨hdu8, hdhalf, hdflag⟩ := hbyte (Nat.succ_pos _)
  exact ⟨_, rfl, hcrcgen 0 (by decide) (fun _ hi => absurd hi (Nat.not_lt_zero _)) rfl, hcrcchk (by decide),
    hfvalid (.inl (by decide)), hdtype, htchk, hdu8, hword (Nat.succ_pos _), hdhalf, hdflag,
    hcounter (Nat.succ_pos _), hdack rfl, hxmit nofun, hrecv nofun⟩

end Sys2Proof.Proofs
